-- ==== Sys2Proof/Word.lean ====
section
/-! DEFINITION. The word types of the block and their plainest readings (00_scope.md R5, R8, R9). -/

namespace Sys2Proof

/-- One 32-bit word: an element, a control register, a command word (R5 `ELEM_W`, `DATA_W`, `CMD_W`). -/
abbrev Word := BitVec 32

/-- One word address of the register window, 0x000 to 0x1FF (R5 `ADDR_W`, R60). -/
abbrev Addr := BitVec 9

/-- One byte, seen only behind a byte-addressed bridge (20_memory.md R69). -/
abbrev Byte := BitVec 8

/-- `uint(w)`: the unsigned value of a word (R9). -/
def uint (w : Word) : Nat := w.toNat

/-- `sint(w)`: the two's-complement signed value of a word, how every source element is read (R9). -/
def sint (w : Word) : Int := w.toInt

/-- `word(v)`: the 32-bit word with `uint(word(v)) = v`, for `v` in 0 to 2^32 - 1 (R9). -/
def word (v : Nat) : Word := BitVec.ofNat 32 v

end Sys2Proof
end

