-- ==== Sys2Proof/Machine/Arith.lean ====
section
/-! DEFINITION. The arithmetic of the spec: `mod`, `gcd`, `inv_m`, `det`, `inv` (00_scope.md R10 to R15) and `matvec`, `matmul`
(40_matrix_ops.md R121). Exact over the integers (R11); a residue is a Nat. Matrices and vectors are functions of their indices,
used below the block size only. -/

namespace Sys2Proof.Machine

/-- A vector of integers, by index. -/
abbrev IVec := Nat → Int

/-- A matrix of integers, by row and column. -/
abbrev IMat := Nat → Nat → Int

/-- `mod(a, m)`: the non-negative residue (R10). -/
def residue (a : Int) (m : Nat) : Nat := (a % (m : Int)).toNat

/-- `Σ_{j=0}^{n-1} f(j)`. -/
def sumTo : Nat → (Nat → Int) → Int
  | 0, _ => 0
  | n + 1, f => sumTo n f + f n

/-- `(-1)^j`. -/
def altSign (j : Nat) : Int := if j % 2 = 0 then 1 else -1

/-- `matvec(A, v, m)[i]` (R121). -/
def matvec (n : Nat) (A : IMat) (v : IVec) (m : Nat) (i : Nat) : Nat :=
  residue (sumTo n fun j => A i j * v j) m

/-- `matmul(A, B, m)[i][j]` (R121). -/
def matmul (n : Nat) (A B : IMat) (m : Nat) (i j : Nat) : Nat :=
  residue (sumTo n fun k => A i k * B k j) m

/-- `minor(A, i, j)`: row `i` and column `j` removed, the others kept in order (R14). -/
def minor (A : IMat) (i j : Nat) : IMat :=
  fun r c => A (if r < i then r else r + 1) (if c < j then c else c + 1)

/-- `det(A)`: expansion along row 0, 1 for the 0 by 0 matrix (R14). -/
def detZ : Nat → IMat → Int
  | 0, _ => 1
  | n + 1, A => sumTo (n + 1) fun j => altSign j * A 0 j * detZ n (minor A 0 j)

/-- `gcd(a, b)` (R12). -/
def gcdOf (a b : Nat) : Nat := Nat.gcd a b

/-- `egcd(a, b)` (R13), by recursion on a bound of the number of Euclid steps. -/
def egcdSteps : Nat → Nat → Nat → Nat × Int × Int
  | 0, a, _ => (a, 1, 0)
  | k + 1, a, b =>
    if b = 0 then (a, 1, 0)
    else
      let r := egcdSteps k b (a % b)
      (r.1, r.2.2, r.2.1 - ((a / b : Nat) : Int) * r.2.2)

/-- `egcd(a, b) = (g, x, y)` with `a x + b y = g` (R13); the second argument falls at every step, so it bounds them. -/
def egcd (a b : Nat) : Nat × Int × Int := egcdSteps b a b

/-- `inv_m(d) = mod(x, m)` where `(1, x, y) = egcd(mod(d, m), m)` (R13). -/
def invMod (m : Nat) (d : Int) : Nat := residue (egcd (residue d m) m).2.1 m

/-- The adjugate formula with `u` the inverse of the determinant (R15, R139): note row `j`, column `i` removed. -/
def adjugateBy (n : Nat) (A : IMat) (m u : Nat) (i j : Nat) : Nat :=
  residue ((u : Int) * altSign (i + j) * detZ (n - 1) (minor A j i)) m

/-- `inv(A, m)[i][j]` (R15), defined for a matrix whose determinant is a unit modulo `m` (log 11). -/
def invMat (n : Nat) (A : IMat) (m : Nat) : Nat → Nat → Nat :=
  adjugateBy n A m (invMod m (detZ n A))

end Sys2Proof.Machine
end

