-- ==== Sys2Proof/Config.lean ====
section
/-! DEFINITION. What is fixed for this block (00_scope.md R5 to R7, R32) and the one free value that the spec leaves open. -/

namespace Sys2Proof

/-- `NMAX`, the largest block size and the storage size of every register (R5). -/
def Config.nmax : Nat := 8

/-- The least legal `RADIX` (R6). -/
def Config.radixMin : Nat := 2

/-- The greatest legal `RADIX`, 2^31 - 1 (R6). -/
def Config.radixMax : Nat := 2147483647

/-- The identification constant read at word address 0x000 (10_state.md R32). -/
def Config.idWord : Word := 0x4D4D4D01#32

/-- FREE VALUE (log 2). What a read of a matrix or vector element answers when nothing has written that
element since the last reset: 93_implementation_defined.md U1, "any value", "Never a fixed value such as 0, and not
assumed stable between two reads".
The arguments are the number of the port transaction, the operand position within the command (0 for the first
operand and for a port read, 1 for the second operand), and the element's word address.
It has no body here: no proof can see which word it is. -/
opaque Config.freeWord : Nat → Nat → Nat → Word

end Sys2Proof
end

