-- ==== Sys2Proof/Syntax.lean ====
section
/-! DEFINITION. The commands (30_encoding.md R94), the assembler's notation (R98, R99), and the names of the register
window (20_memory.md R63, 30_encoding.md R100). -/

namespace Sys2Proof

/-- A matrix register, M0 to M3 (10_state.md R21). -/
inductive MReg where
  | m0 | m1 | m2 | m3
deriving DecidableEq, Repr

/-- A vector register, V0 to V3 (10_state.md R23). -/
inductive VReg where
  | v0 | v1 | v2 | v3
deriving DecidableEq, Repr

/-- `KEY` is another name for M0 (R22). -/
abbrev MReg.key : MReg := .m0

/-- `INV` is another name for M1 (R22). -/
abbrev MReg.inv : MReg := .m1

/-- The ten commands of the opcode map (R94), operands in the assembler's order: destination, sources, immediate. -/
inductive Instr where
  | nop
  | mmul (md ma mb : MReg)
  | mvmul (vd : VReg) (ma : MReg) (vb : VReg)
  | mdet (ma : MReg)
  | invchk (ma : MReg)
  | minv (md ma : MReg)
  | enc (vd vb : VReg)
  | dec (vd vb : VReg)
  | encpad (vd vb : VReg) (r : Nat)
  | decpad (vd vb : VReg)
deriving DecidableEq, Repr

/-- The mnemonics of the assembler: the ten commands (R94) and the three pseudo-instructions (R99). -/
inductive Mnemonic where
  | nop | mmul | mvmul | mdet | invchk | minv | enc | dec | encpad | decpad
  | keyinv | keychk | keydet
deriving DecidableEq, Repr

/-- An operand as the assembler's source has it (R98): `M<k>`, `V<k>`, `KEY`, `INV`, or a number. -/
inductive Operand where
  | mreg (k : Nat)
  | vreg (k : Nat)
  | key
  | inv
  | imm (v : Nat)
deriving DecidableEq, Repr

/-- The kind of operand a command takes in a position (R95). -/
inductive OperandKind where
  | matrix | vector | count
deriving DecidableEq, Repr

/-- One assembler line: a mnemonic and its operands (R98). -/
structure AsmLine where
  mnemonic : Mnemonic
  operands : List Operand
deriving DecidableEq, Repr

/-- What a word address of the window names (R63); also the register names of host sequences (R100). -/
inductive Loc where
  | id | radix | n | cmd | status | errcmd | errinfo | det | gcd | pad
  | v (k : VReg) (j : Fin 8)
  | m (k : MReg) (i j : Fin 8)
  | reserved (a : Addr)
deriving DecidableEq, Repr

/-- One line of a host sequence (R100): `wr`, `rd` with the word the rules say it returns, or `cmd`. -/
inductive HostLine where
  | wr (loc : Loc) (w : Word)
  | rd (loc : Loc) (expected : Option Word)
  | cmd (line : AsmLine)
deriving DecidableEq, Repr

end Sys2Proof
end

