-- ==== Sys2Proof/WellFormed.lean ====
section
/-! DEFINITION. Which terms of the syntax stand for something: the checks of 30_encoding.md R92, R93 and R98. Register numbers
of `Instr` need no check, since `MReg` and `VReg` have exactly the four registers each (R92). -/

namespace Sys2Proof

/-- An instruction is well formed when its immediate fits the 8-bit field `IMM` (R93). -/
def Instr.wellFormed : Instr → Bool
  | .encpad _ _ r => decide (r < 256)
  | .nop => true
  | .mmul _ _ _ => true
  | .mvmul _ _ _ => true
  | .mdet _ => true
  | .invchk _ => true
  | .minv _ _ => true
  | .enc _ _ => true
  | .dec _ _ => true
  | .decpad _ _ => true

/-- The operand kinds of a mnemonic, in the order of the source line (R94, R95, R98; R99 for the pseudo-instructions). -/
def Mnemonic.signature : Mnemonic → List OperandKind
  | .nop => []
  | .mmul => [.matrix, .matrix, .matrix]
  | .mvmul => [.vector, .matrix, .vector]
  | .mdet => [.matrix]
  | .invchk => [.matrix]
  | .minv => [.matrix, .matrix]
  | .enc => [.vector, .vector]
  | .dec => [.vector, .vector]
  | .encpad => [.vector, .vector, .count]
  | .decpad => [.vector, .vector]
  | .keyinv => []
  | .keychk => []
  | .keydet => []

/-- An operand fits a position: a register of the right kind numbered 0 to 3, or a count of 8 bits (R92, R93). -/
def Operand.fits : OperandKind → Operand → Bool
  | .matrix, .mreg k => decide (k < 4)
  | .matrix, .key => true
  | .matrix, .inv => true
  | .vector, .vreg k => decide (k < 4)
  | .count, .imm v => decide (v < 256)
  | .matrix, .vreg _ => false
  | .matrix, .imm _ => false
  | .vector, .mreg _ => false
  | .vector, .key => false
  | .vector, .inv => false
  | .vector, .imm _ => false
  | .count, .mreg _ => false
  | .count, .vreg _ => false
  | .count, .key => false
  | .count, .inv => false

/-- The operands match the signature one for one (R98). -/
def operandsFit : List OperandKind → List Operand → Bool
  | [], [] => true
  | k :: ks, o :: os => Operand.fits k o && operandsFit ks os
  | [], _ :: _ => false
  | _ :: _, [] => false

/-- An assembler line is well formed when its operands are those its mnemonic takes (R98). -/
def AsmLine.wellFormed (l : AsmLine) : Bool := operandsFit l.mnemonic.signature l.operands

/-- A `reserved` location is one only at an address that R63 lists as reserved. -/
def Loc.wellFormed : Loc → Bool
  | .reserved a => decide ((0x00A ≤ a.toNat ∧ a.toNat ≤ 0x01F) ∨ (0x040 ≤ a.toNat ∧ a.toNat ≤ 0x0FF))
  | .id => true
  | .radix => true
  | .n => true
  | .cmd => true
  | .status => true
  | .errcmd => true
  | .errinfo => true
  | .det => true
  | .gcd => true
  | .pad => true
  | .v _ _ => true
  | .m _ _ _ => true

/-- A host line is well formed when its location or its command is (R100). -/
def HostLine.wellFormed : HostLine → Bool
  | .wr l _ => l.wellFormed
  | .rd l _ => l.wellFormed
  | .cmd l => l.wellFormed

end Sys2Proof
end

