-- ==== Sys2Proof/Decode.lean ====
section
/-! DEFINITION. The decoder of 30_encoding.md R96, total on 32-bit words, which rejects by name (R97), and after it the encoder
from the field layout of R91 and R95. A command is one word: there are no bytes and no fetch to lay out (R90; 20_memory.md R69). -/

namespace Sys2Proof

/-- Why a word is illegal: the clauses of R97. The names are diagnostics of the decoder (log 16): the block reports every one
of them as `ILLEGAL_CMD` with `ERRINFO` 0 (60_exceptions.md R195). -/
inductive Illegal where
  /-- an `OP` value outside R94 -/
  | reservedOpcode
  /-- a used register field holding 4 to 15 -/
  | registerNumber
  /-- an unused register field that is not 0 -/
  | unusedField
  /-- `Z` not 0 -/
  | zField
  /-- `IMM` not 0 in a command other than ENCPAD -/
  | immediate
deriving DecidableEq, Repr

/-- The matrix register that a two-bit register number names (R92). -/
def MReg.ofBits (b : BitVec 2) : MReg :=
  match b.toNat with
  | 0 => .m0
  | 1 => .m1
  | 2 => .m2
  | _ => .m3

/-- The vector register that a two-bit register number names (R92). -/
def VReg.ofBits (b : BitVec 2) : VReg :=
  match b.toNat with
  | 0 => .v0
  | 1 => .v1
  | 2 => .v2
  | _ => .v3

/-- `c[21:20]`, the low bits of `RD` (R96). -/
def fieldRd (c : Word) : BitVec 2 := c.extractLsb' 20 2

/-- `c[17:16]`, the low bits of `RA` (R96). -/
def fieldRa (c : Word) : BitVec 2 := c.extractLsb' 16 2

/-- `c[13:12]`, the low bits of `RB` (R96). -/
def fieldRb (c : Word) : BitVec 2 := c.extractLsb' 12 2

/-- `c[7:0]`, `IMM`, unsigned (R93). -/
def fieldImm (c : Word) : Nat := (c.extractLsb' 0 8).toNat

/-- Which fields a command uses, by `OP` (R95): `RD`, `RA`, `RB`, `IMM`. -/
def fieldUse : Nat → Option (Bool × Bool × Bool × Bool)
  | 0x01 => some (false, false, false, false)
  | 0x10 => some (true, true, true, false)
  | 0x11 => some (true, true, true, false)
  | 0x12 => some (false, true, false, false)
  | 0x13 => some (false, true, false, false)
  | 0x14 => some (true, true, false, false)
  | 0x20 => some (true, false, true, false)
  | 0x21 => some (true, false, true, false)
  | 0x22 => some (true, false, true, true)
  | 0x23 => some (true, false, true, false)
  | _ => none

/-- The name of the first clause of R97 that an illegal word falls under (log 16). -/
def whyIllegal (c : Word) : Illegal :=
  let rd := (c.extractLsb' 20 4).toNat
  let ra := (c.extractLsb' 16 4).toNat
  let rb := (c.extractLsb' 12 4).toNat
  match fieldUse (c.extractLsb' 24 8).toNat with
  | none => .reservedOpcode
  | some (useRd, useRa, useRb, _) =>
    if (useRd && decide (4 ≤ rd)) || (useRa && decide (4 ≤ ra)) || (useRb && decide (4 ≤ rb)) then .registerNumber
    else if (!useRd && decide (rd ≠ 0)) || (!useRa && decide (ra ≠ 0)) || (!useRb && decide (rb ≠ 0)) then .unusedField
    else if c.extractLsb' 8 4 ≠ 0#4 then .zField
    else .immediate

/-- `Decode(c)` (R96): the masks and matches of R95, in the rule's order. -/
def decode (c : Word) : Except Illegal Instr :=
  if c &&& 0xFFFFFFFF#32 = 0x01000000#32 then .ok .nop
  else if c &&& 0xFFCCCFFF#32 = 0x10000000#32 then
    .ok (.mmul (MReg.ofBits (fieldRd c)) (MReg.ofBits (fieldRa c)) (MReg.ofBits (fieldRb c)))
  else if c &&& 0xFFCCCFFF#32 = 0x11000000#32 then
    .ok (.mvmul (VReg.ofBits (fieldRd c)) (MReg.ofBits (fieldRa c)) (VReg.ofBits (fieldRb c)))
  else if c &&& 0xFFFCFFFF#32 = 0x12000000#32 then .ok (.mdet (MReg.ofBits (fieldRa c)))
  else if c &&& 0xFFFCFFFF#32 = 0x13000000#32 then .ok (.invchk (MReg.ofBits (fieldRa c)))
  else if c &&& 0xFFCCFFFF#32 = 0x14000000#32 then
    .ok (.minv (MReg.ofBits (fieldRd c)) (MReg.ofBits (fieldRa c)))
  else if c &&& 0xFFCFCFFF#32 = 0x20000000#32 then
    .ok (.enc (VReg.ofBits (fieldRd c)) (VReg.ofBits (fieldRb c)))
  else if c &&& 0xFFCFCFFF#32 = 0x21000000#32 then
    .ok (.dec (VReg.ofBits (fieldRd c)) (VReg.ofBits (fieldRb c)))
  else if c &&& 0xFFCFCF00#32 = 0x22000000#32 then
    .ok (.encpad (VReg.ofBits (fieldRd c)) (VReg.ofBits (fieldRb c)) (fieldImm c))
  else if c &&& 0xFFCFCFFF#32 = 0x23000000#32 then
    .ok (.decpad (VReg.ofBits (fieldRd c)) (VReg.ofBits (fieldRb c)))
  else .error (whyIllegal c)

/-- The instruction of a row of the opcode table whose bits are `w` (the rows are one 32-bit word; log 25). -/
def decodeTableWord (nbits w : Nat) : Option Instr :=
  match decode (BitVec.ofNat 32 (w % 2 ^ nbits)) with
  | .ok i => some i
  | .error _ => none

/-- The number of a matrix register (10_state.md R21). -/
def MReg.num : MReg → Nat
  | .m0 => 0
  | .m1 => 1
  | .m2 => 2
  | .m3 => 3

/-- The number of a vector register (10_state.md R23). -/
def VReg.num : VReg → Nat
  | .v0 => 0
  | .v1 => 1
  | .v2 => 2
  | .v3 => 3

/-- The field layout of a command word (R91): `OP ++ RD ++ RA ++ RB ++ Z ++ IMM` with `Z = 0`. -/
def packFields (op rd ra rb imm : Nat) : Word :=
  BitVec.ofNat 8 op ++ BitVec.ofNat 4 rd ++ BitVec.ofNat 4 ra ++ BitVec.ofNat 4 rb ++ 0#4 ++ BitVec.ofNat 8 imm

/-- The command word of an instruction (R91, R95): each operand in its field, every other field 0. -/
def encode : Instr → Word
  | .nop => packFields 0x01 0 0 0 0
  | .mmul md ma mb => packFields 0x10 md.num ma.num mb.num 0
  | .mvmul vd ma vb => packFields 0x11 vd.num ma.num vb.num 0
  | .mdet ma => packFields 0x12 0 ma.num 0 0
  | .invchk ma => packFields 0x13 0 ma.num 0 0
  | .minv md ma => packFields 0x14 md.num ma.num 0 0
  | .enc vd vb => packFields 0x20 vd.num 0 vb.num 0
  | .dec vd vb => packFields 0x21 vd.num 0 vb.num 0
  | .encpad vd vb r => packFields 0x22 vd.num 0 vb.num r
  | .decpad vd vb => packFields 0x23 vd.num 0 vb.num 0

end Sys2Proof
end

