-- ==== Sys2Proof/Machine/State.lean ====
section
/-! DEFINITION. The state of the block (10_state.md R20 to R41), the inputs at its port, and the state after reset (R44). Plain
data: no field holds a function. -/

namespace Sys2Proof.Machine

/-- One element of a matrix or vector register: its 32-bit word, and whether anything has written it since the last reset.
93_implementation_defined.md U1 treats an unwritten element as "any value"; the stored word of one is never observed (log 1, 2). -/
structure Elem where
  written : Bool
  word : Word
deriving DecidableEq, Repr

/-- A vector register: 8 elements (R23). -/
abbrev VecReg := Vector Elem 8

/-- A matrix register: 8 rows by 8 columns of elements (R21). -/
abbrev MatReg := Vector (Vector Elem 8) 8

/-- The six fault causes of 60_exceptions.md R191. They are the block's own exceptions: taking one is a next state (R200). -/
inductive FaultCode where
  | illegalCmd
  | badConfig
  | badOperand
  | invNotValid
  | singular
  | corruptPadding
deriving DecidableEq, Repr

/-- What the host can present to the block: a read or a write of the register port (20_memory.md R62), or a reset by `rst_n`
(70_reset_and_hazards.md R230), between transactions or cutting one short (R232). -/
inductive Input where
  | read (a : Addr)
  | write (a : Addr) (w : Word)
  | reset
deriving DecidableEq, Repr

/-- The state of the machine: the block's architectural state (R20), then the model's own record of the port. -/
structure State where
  /-- M0 to M3 (R21) -/
  mats : Vector MatReg 4
  /-- V0 to V3 (R23) -/
  vecs : Vector VecReg 4
  /-- `RADIX` (R33) -/
  radix : Word
  /-- `N`, bits 3:0 (R34) -/
  n : BitVec 4
  /-- `STATUS.FAULT` (R27) -/
  fault : Bool
  /-- `STATUS.INV_VALID` (R28) -/
  invValid : Bool
  /-- `STATUS.INVERTIBLE` (R30) -/
  invertible : Bool
  /-- `STATUS.ERR` (R36) -/
  err : BitVec 4
  /-- `ERRCMD` (R37) -/
  errcmd : Word
  /-- `ERRINFO` (R38) -/
  errinfo : Word
  /-- `DET` (R39) -/
  det : Word
  /-- `GCD` (R40) -/
  gcd : Word
  /-- `PAD` (R41) -/
  pad : Word
  /-- MODEL'S OWN (log 3): the inputs the host is still to present, oldest first -/
  port : List Input
  /-- MODEL'S OWN (log 3): the words the host's reads returned, newest first (42_system_and_port_ops.md R178) -/
  reads : List Word
  /-- MODEL'S OWN (log 2): how many inputs have been taken, the counter the free values are drawn at -/
  txn : Nat
deriving DecidableEq, Repr

/-- What stops the machine for good: nothing (93_implementation_defined.md, end of part 1: "Nothing in this spec is `stuck`").
The block's six faults are next states (R200), so this type has no constructor (log 10). -/
inductive Fault where
deriving DecidableEq, Repr

/-- Why a step has no meaning. -/
inductive Refusal where
  /-- Raised by `exec` for an instruction that has no meaning yet, by its mnemonic; safe. No arm of this model raises it. -/
  | notModelled (mnemonic : String)
deriving DecidableEq, Repr

/-- An element that nothing has written since reset (R231). The stored word 0 is a DESIGN CHOICE (log 1), never read. -/
def Elem.unwritten : Elem := ⟨false, 0#32⟩

/-- The state after reset (R44, R230): the control registers at 0, the data registers unwritten, nothing pending at the port. -/
def State.reset : State :=
  { mats := Vector.replicate 4 (Vector.replicate 8 (Vector.replicate 8 Elem.unwritten))
    vecs := Vector.replicate 4 (Vector.replicate 8 Elem.unwritten)
    radix := 0#32
    n := 0#4
    fault := false
    invValid := false
    invertible := false
    err := 0#4
    errcmd := 0#32
    errinfo := 0#32
    det := 0#32
    gcd := 0#32
    pad := 0#32
    port := []
    reads := []
    txn := 0 }

end Sys2Proof.Machine
end

