-- ==== Sys2Proof/Machine/Flags.lean ====
section
/-! DEFINITION. The fields of STATUS and the legality of the configuration (10_state.md R27 to R36; 60_exceptions.md R191, R196). -/

namespace Sys2Proof.Machine

/-- The code that `STATUS.ERR` holds for a fault cause (R191). -/
def FaultCode.code : FaultCode → BitVec 4
  | .illegalCmd => 1#4
  | .badConfig => 2#4
  | .badOperand => 3#4
  | .invNotValid => 4#4
  | .singular => 5#4
  | .corruptPadding => 6#4

/-- What a read of `STATUS` answers: `zext(ERR[3:0] ++ 0b0 ++ INVERTIBLE ++ INV_VALID ++ FAULT)` (R36; 20_memory.md R64). -/
def State.statusWord (s : State) : Word :=
  0#24 ++ s.err ++ 0#1 ++ BitVec.ofBool s.invertible ++ BitVec.ofBool s.invValid ++ BitVec.ofBool s.fault

/-- `RADIX` is legal: 2 to 2^31 - 1 (00_scope.md R6, R196). -/
def State.radixLegal (s : State) : Bool := decide (Config.radixMin ≤ uint s.radix ∧ uint s.radix ≤ Config.radixMax)

/-- `N` is legal: 1 to 8 (00_scope.md R7, R196). -/
def State.nLegal (s : State) : Bool := decide (1 ≤ s.n.toNat ∧ s.n.toNat ≤ Config.nmax)

/-- M0 or M1, the registers `INV_VALID` watches (R28). -/
def watched : MReg → Bool
  | .m0 => true
  | .m1 => true
  | .m2 => false
  | .m3 => false

/-- `INV_VALID` after an `MMUL md` that completes (R28 d; 40_matrix_ops.md R122). -/
def invValidAfterMmul (md : MReg) (old : Bool) : Bool := if watched md then false else old

/-- `INV_VALID` after a `MINV md, ma` that completes (R28; 40_matrix_ops.md R137). -/
def invValidAfterMinv (md ma : MReg) (old : Bool) : Bool :=
  if md = .m1 ∧ ma = .m0 then true else if watched md then false else old

end Sys2Proof.Machine
end

