-- ==== Sys2Proof/Machine/Operands.lean ====
section
/-! DEFINITION. The operands of a command: reading an element, the active region of a register as integers, and writing the active
region of a destination (00_scope.md R9, R16, R17; 10_state.md R21, R23). -/

namespace Sys2Proof.Machine

/-- The index of a matrix register in the register file. -/
def matIdx : MReg → Fin 4
  | .m0 => 0
  | .m1 => 1
  | .m2 => 2
  | .m3 => 3

/-- The index of a vector register in the register file. -/
def vecIdx : VReg → Fin 4
  | .v0 => 0
  | .v1 => 1
  | .v2 => 2
  | .v3 => 3

/-- The word address of `M[k][i][j]`, row-major (R21). -/
def addrM (k : MReg) (i j : Fin 8) : Nat := 0x100 + 64 * k.num + 8 * i.val + j.val

/-- The word address of `V[k][j]` (R23). -/
def addrV (k : VReg) (j : Fin 8) : Nat := 0x020 + 8 * k.num + j.val

/-- Reading an element: its word if something has written it since reset, else a free value (93 U1; log 2). -/
def Elem.read (e : Elem) (free : Word) : Word := if e.written then e.word else free

/-- The element `M[k][i][j]`. -/
def State.elemM (s : State) (k : MReg) (i j : Fin 8) : Elem := ((s.mats[matIdx k])[i])[j]

/-- The element `V[k][j]`. -/
def State.elemV (s : State) (k : VReg) (j : Fin 8) : Elem := (s.vecs[vecIdx k])[j]

/-- The word that a read of `M[k][i][j]` gives, for the operand at position `pos` of the command (log 14). -/
def State.wordM (s : State) (pos : Nat) (k : MReg) (i j : Fin 8) : Word :=
  (s.elemM k i j).read (Config.freeWord s.txn pos (addrM k i j))

/-- The word that a read of `V[k][j]` gives, for the operand at position `pos` of the command (log 14). -/
def State.wordV (s : State) (pos : Nat) (k : VReg) (j : Fin 8) : Word :=
  (s.elemV k j).read (Config.freeWord s.txn pos (addrV k j))

/-- `act(M[k])`: the elements as signed integers (R16). Indices are below the block size, so below 8 (log 20). -/
def State.actM (s : State) (pos : Nat) (k : MReg) : IMat :=
  fun i j => sint (s.wordM pos k (Fin.ofNat 8 i) (Fin.ofNat 8 j))

/-- `act(V[k])`: the elements as signed integers (R16). -/
def State.actV (s : State) (pos : Nat) (k : VReg) : IVec :=
  fun j => sint (s.wordV pos k (Fin.ofNat 8 j))

/-- A written element with the residue `x` (R9). -/
def Elem.holds (x : Nat) : Elem := ⟨true, Sys2Proof.word x⟩

/-- `M[k][i][j] <- word(C[i][j])` on the `n` by `n` active region; the other elements keep what they hold (R17). -/
def State.writeActM (s : State) (k : MReg) (n : Nat) (C : Nat → Nat → Nat) : State :=
  { s with
    mats := s.mats.set (matIdx k)
      (Vector.ofFn fun i : Fin 8 => Vector.ofFn fun j : Fin 8 =>
        if i.val < n ∧ j.val < n then Elem.holds (C i j) else s.elemM k i j) }

/-- `V[k][j] <- word(y[j])` on the active region; the other elements keep what they hold (R17). -/
def State.writeActV (s : State) (k : VReg) (n : Nat) (y : Nat → Nat) : State :=
  { s with
    vecs := s.vecs.set (vecIdx k)
      (Vector.ofFn fun j : Fin 8 => if j.val < n then Elem.holds (y j) else s.elemV k j) }

/-- `M[k][i][j] <- w`, a host write of one element (20_memory.md R65). -/
def State.setElemM (s : State) (k : MReg) (i j : Fin 8) (w : Word) : State :=
  { s with mats := s.mats.set (matIdx k) ((s.mats[matIdx k]).set i (((s.mats[matIdx k])[i]).set j ⟨true, w⟩)) }

/-- `V[k][j] <- w`, a host write of one element (20_memory.md R65). -/
def State.setElemV (s : State) (k : VReg) (j : Fin 8) (w : Word) : State :=
  { s with vecs := s.vecs.set (vecIdx k) ((s.vecs[vecIdx k]).set j ⟨true, w⟩) }

/-- The block that ENCPAD synthesizes (41_cipher_ops.md R156): the source's elements, and in slot `n - 1`, which is not read,
the pad-count marker `n - r`. -/
def padBlock (n r : Nat) (v : IVec) : IVec :=
  fun j => if j + 1 = n then (n : Int) - (r : Int) else v j

end Sys2Proof.Machine
end

