-- ==== Sys2Proof/Machine/Ops.lean ====
section
/-! DEFINITION. The shared operations: taking a fault, clearing it, and the steps every command goes through before its own
pseudocode (42_system_and_port_ops.md R175, R176; 60_exceptions.md R200, R203, R205). -/

namespace Sys2Proof.Machine

/-- `raise F(info)` while executing the command word `c` (R200): the fault record and nothing else. -/
def State.raise (s : State) (f : FaultCode) (info : Nat) (c : Word) : State :=
  { s with err := f.code, errcmd := c, errinfo := word info, fault := true }

/-- `ClearFault()`, the return from a fault (R176, R207). -/
def State.clearFault (s : State) : State :=
  { s with fault := false, err := 0#4, errcmd := 0#32, errinfo := 0#32 }

/-- The modulus `m = uint(RADIX)` (R16). -/
def State.modulus (s : State) : Nat := uint s.radix

/-- The block size `n = uint(N)` (R16). -/
def State.size (s : State) : Nat := s.n.toNat

/-- Steps 1, 4 and 5 of `Execute` for a decoded command other than NOP with command word `c` (R175, R120): lockout, then `RADIX`,
then `N`, then the command's own pseudocode with `m` and `n`. -/
def State.command (s : State) (c : Word) (body : Nat → Nat → State) : State :=
  if s.fault then s
  else if !s.radixLegal then s.raise .badConfig 1 c
  else if !s.nLegal then s.raise .badConfig 2 c
  else body s.modulus s.size

/-- Steps 1 and 2 of `Execute` for a word that decodes to `ILLEGAL` (R175, R195). -/
def State.illegal (s : State) (c : Word) : State :=
  if s.fault then s else s.raise .illegalCmd 0 c

/-- A vector register gets `matvec(A, v, m)` on its active region: the transform of MVMUL and the cipher commands (R121). -/
def State.transform (s : State) (vd : VReg) (m n : Nat) (A : IMat) (v : IVec) : State :=
  s.writeActV vd n (matvec n A v m)

end Sys2Proof.Machine
end

