-- ==== Sys2Proof/Machine/Cipher.lean ====
section
/-! DEFINITION. The cipher commands ENC, DEC, ENCPAD, DECPAD (41_cipher_ops.md). KEY is M0 and INV is M1 (R150). -/

namespace Sys2Proof.Machine

/-- `ENC vd, vb` (R151). -/
def execEnc (vd vb : VReg) (s : State) : Host.Outcome State Fault Refusal :=
  .next (s.command (encode (.enc vd vb)) fun m n => s.transform vd m n (s.actM 0 MReg.key) (s.actV 1 vb))

/-- `DEC vd, vb` (R153). -/
def execDec (vd vb : VReg) (s : State) : Host.Outcome State Fault Refusal :=
  .next (s.command (encode (.dec vd vb)) fun m n =>
    if !s.invValid then s.raise .invNotValid 0 (encode (.dec vd vb))
    else s.transform vd m n (s.actM 0 MReg.inv) (s.actV 1 vb))

/-- `ENCPAD vd, vb, r` (R156). -/
def execEncpad (vd vb : VReg) (r : Nat) (s : State) : Host.Outcome State Fault Refusal :=
  .next (s.command (encode (.encpad vd vb r)) fun m n =>
    if n ≤ r then s.raise .badOperand r (encode (.encpad vd vb r))
    else s.transform vd m n (s.actM 0 MReg.key) (padBlock n r (s.actV 1 vb)))

/-- `DECPAD vd, vb` (R160). -/
def execDecpad (vd vb : VReg) (s : State) : Host.Outcome State Fault Refusal :=
  .next (s.command (encode (.decpad vd vb)) fun m n =>
    if !s.invValid then s.raise .invNotValid 0 (encode (.decpad vd vb))
    else
      let p := matvec n (s.actM 0 MReg.inv) (s.actV 1 vb) m (n - 1)
      if p < 1 ∨ n < p then s.raise .corruptPadding p (encode (.decpad vd vb))
      else { s.transform vd m n (s.actM 0 MReg.inv) (s.actV 1 vb) with pad := word p })

end Sys2Proof.Machine
end

