-- ==== Sys2Proof/Machine/Matrix.lean ====
section
/-! DEFINITION. The matrix commands MMUL, MVMUL, MDET, INVCHK, MINV (40_matrix_ops.md). -/

namespace Sys2Proof.Machine

/-- `MMUL md, ma, mb` (R122). -/
def execMmul (md ma mb : MReg) (s : State) : Host.Outcome State Fault Refusal :=
  .next (s.command (encode (.mmul md ma mb)) fun m n =>
    { s.writeActM md n (matmul n (s.actM 0 ma) (s.actM 1 mb) m) with
      invValid := invValidAfterMmul md s.invValid })

/-- `MVMUL vd, ma, vb` (R126). -/
def execMvmul (vd : VReg) (ma : MReg) (vb : VReg) (s : State) : Host.Outcome State Fault Refusal :=
  .next (s.command (encode (.mvmul vd ma vb)) fun m n => s.transform vd m n (s.actM 0 ma) (s.actV 1 vb))

/-- `MDET ma` (R130). -/
def execMdet (ma : MReg) (s : State) : Host.Outcome State Fault Refusal :=
  .next (s.command (encode (.mdet ma)) fun m n =>
    { s with det := word (residue (detZ n (s.actM 0 ma)) m) })

/-- `INVCHK ma` (R133). -/
def execInvchk (ma : MReg) (s : State) : Host.Outcome State Fault Refusal :=
  .next (s.command (encode (.invchk ma)) fun m n =>
    let d := residue (detZ n (s.actM 0 ma)) m
    let g := gcdOf d m
    { s with det := word d, gcd := word g, invertible := decide (g = 1) })

/-- `MINV md, ma` (R137), by the adjugate (R139): `B = inv(A, m)` with `u = inv_m(det(A))`. -/
def execMinv (md ma : MReg) (s : State) : Host.Outcome State Fault Refusal :=
  .next (s.command (encode (.minv md ma)) fun m n =>
    let d := residue (detZ n (s.actM 0 ma)) m
    let g := gcdOf d m
    if g ≠ 1 then s.raise .singular g (encode (.minv md ma))
    else
      let u := invMod m d
      { s.writeActM md n (adjugateBy n (s.actM 0 ma) m u) with
        invValid := invValidAfterMinv md ma s.invValid })

end Sys2Proof.Machine
end

