-- ==== Sys2Proof/Machine/System.lean ====
section
/-! DEFINITION. The system family: NOP (42_system_and_port_ops.md R170, R171). -/

namespace Sys2Proof.Machine

/-- `NOP` (R171): nothing, with no configuration check; ignored under lockout with the same null effect. -/
def execNop (s : State) : Host.Outcome State Fault Refusal := .next s

end Sys2Proof.Machine
end

