-- ==== Sys2Proof/Machine/Dispatch.lean ====
section
/-! DEFINITION. One arm per command, each a direct call of its meaning. -/

namespace Sys2Proof.Machine

-- The meaning of an instruction: what `Execute` does with a word that decodes to it (42_system_and_port_ops.md R175).
def exec (i : Instr) (s : State) : Host.Outcome State Fault Refusal :=
  match i with
  | .nop => Sys2Proof.Machine.execNop s
  | .mmul md ma mb => Sys2Proof.Machine.execMmul md ma mb s
  | .mvmul vd ma vb => Sys2Proof.Machine.execMvmul vd ma vb s
  | .mdet ma => Sys2Proof.Machine.execMdet ma s
  | .invchk ma => Sys2Proof.Machine.execInvchk ma s
  | .minv md ma => Sys2Proof.Machine.execMinv md ma s
  | .enc vd vb => Sys2Proof.Machine.execEnc vd vb s
  | .dec vd vb => Sys2Proof.Machine.execDec vd vb s
  | .encpad vd vb r => Sys2Proof.Machine.execEncpad vd vb r s
  | .decpad vd vb => Sys2Proof.Machine.execDecpad vd vb s

end Sys2Proof.Machine
end

