-- ==== Sys2Proof/Machine/Port.lean ====
section
/-! DEFINITION. The register port: the address map (20_memory.md R63), `PortRead` and `PortWrite` (R64, R65), `Execute`
(42_system_and_port_ops.md R175), and what each input does. -/

namespace Sys2Proof.Machine

/-- The matrix register with number `k` (R21). -/
def matOf (k : Nat) : MReg := MReg.ofBits (BitVec.ofNat 2 k)

/-- The vector register with number `k` (R23). -/
def vecOf (k : Nat) : VReg := VReg.ofBits (BitVec.ofNat 2 k)

/-- The address map (R63): what a word address names. -/
def locate (a : Addr) : Loc :=
  let t := a.toNat
  if t = 0x000 then .id
  else if t = 0x001 then .radix
  else if t = 0x002 then .n
  else if t = 0x003 then .cmd
  else if t = 0x004 then .status
  else if t = 0x005 then .errcmd
  else if t = 0x006 then .errinfo
  else if t = 0x007 then .det
  else if t = 0x008 then .gcd
  else if t = 0x009 then .pad
  else if t < 0x020 then .reserved a
  else if t < 0x040 then .v (vecOf ((t - 0x020) / 8)) (Fin.ofNat 8 (t - 0x020))
  else if t < 0x100 then .reserved a
  else .m (matOf ((t - 0x100) / 64)) (Fin.ofNat 8 ((t - 0x100) / 8)) (Fin.ofNat 8 (t - 0x100))

/-- The word address of a named location (R63, R21, R23). -/
def addrOf : Loc → Addr
  | .id => 0x000#9
  | .radix => 0x001#9
  | .n => 0x002#9
  | .cmd => 0x003#9
  | .status => 0x004#9
  | .errcmd => 0x005#9
  | .errinfo => 0x006#9
  | .det => 0x007#9
  | .gcd => 0x008#9
  | .pad => 0x009#9
  | .v k j => BitVec.ofNat 9 (addrV k j)
  | .m k i j => BitVec.ofNat 9 (addrM k i j)
  | .reserved a => a

/-- `PortRead(a)` (R64): the word read; the block's state does not change. -/
def State.portRead (s : State) (a : Addr) : Word :=
  match locate a with
  | .id => Config.idWord
  | .radix => s.radix
  | .n => s.n.zeroExtend 32
  | .cmd => 0#32
  | .status => s.statusWord
  | .errcmd => s.errcmd
  | .errinfo => s.errinfo
  | .det => s.det
  | .gcd => s.gcd
  | .pad => s.pad
  | .v k j => s.wordV 0 k j
  | .m k i j => s.wordM 0 k i j
  | .reserved _ => 0#32

/-- `Execute(c)` (R175): lockout, decode, then the command's meaning. -/
def execute (c : Word) (s : State) : Host.Outcome State Fault Refusal :=
  match decode c with
  | .ok i => exec i s
  | .error _ => .next (s.illegal c)

/-- `PortWrite(a, w)` (R65). -/
def portWrite (a : Addr) (w : Word) (s : State) : Host.Outcome State Fault Refusal :=
  match locate a with
  | .id => .next s
  | .radix => .next { s with radix := w, invValid := false }
  | .n => .next { s with n := w.extractLsb' 0 4, invValid := false }
  | .cmd => execute w s
  | .status => .next (if w.getLsbD 0 then s.clearFault else s)
  | .errcmd => .next s
  | .errinfo => .next s
  | .det => .next s
  | .gcd => .next s
  | .pad => .next s
  | .v k j => .next (s.setElemV k j w)
  | .m k i j => .next { s.setElemM k i j w with invValid := if watched k then false else s.invValid }
  | .reserved _ => .next s

/-- Reset by `rst_n` (70_reset_and_hazards.md R230 to R232): the reset state; the model's own record of the port goes on (log 6, 21). -/
def State.afterReset (s : State) : State :=
  { State.reset with port := s.port, reads := s.reads, txn := s.txn }

/-- One input performed: a read returns its word to the host, a write takes effect, or the block is reset. -/
def perform (x : Input) (s : State) : Host.Outcome State Fault Refusal :=
  match x with
  | .read a => .next { s with reads := s.portRead a :: s.reads }
  | .write a w => portWrite a w s
  | .reset => .next s.afterReset

/-- The state in which an input is performed: the input is off the port and the transaction is counted (log 2). -/
def State.accept (s : State) (rest : List Input) : State := { s with port := rest, txn := s.txn + 1 }

end Sys2Proof.Machine
end

