-- ==== Sys2Proof/Machine/Step.lean ====
section
/-! DEFINITION. One step: the next input at the port, performed (00_scope.md R18; 20_memory.md R62, R72). -/

namespace Sys2Proof.Machine

/-- One port transaction as one step (R62). With nothing presented the block does nothing and its state does not change
(42_system_and_port_ops.md R178; 70_reset_and_hazards.md R233). -/
def step (s : State) : Host.Outcome State Fault Refusal :=
  match s.port with
  | [] => .next s
  | x :: rest => perform x (s.accept rest)

/-- `s` with a write of the command word `w` to `CMD` as the next input: where the next step takes its command from (log 4). -/
def State.withFetchWord (s : State) (nbits w : Nat) : State :=
  { s with port := .write 0x003#9 (BitVec.ofNat 32 (w % 2 ^ nbits)) :: s.port }

end Sys2Proof.Machine
end

