-- ==== Sys2Proof/Machine/Assembler.lean ====
section
/-! DEFINITION. The assembler's notation, its pseudo-instructions, and host sequences (30_encoding.md R98 to R100). A line is a
mnemonic and its operands; the spacing of the text is not modelled (log 24). -/

namespace Sys2Proof.Machine

/-- The matrix register an operand names: `M0` to `M3`, `KEY`, `INV` (R98). -/
def asMatrix (o : Operand) : Option MReg :=
  match o with
  | .mreg k => if k < 4 then some (matOf k) else none
  | .key => some MReg.key
  | .inv => some MReg.inv
  | .vreg _ => none
  | .imm _ => none

/-- The vector register an operand names: `V0` to `V3` (R98). -/
def asVector (o : Operand) : Option VReg :=
  match o with
  | .vreg k => if k < 4 then some (vecOf k) else none
  | .mreg _ => none
  | .key => none
  | .inv => none
  | .imm _ => none

/-- The immediate an operand gives, if it fits 8 bits (R93, R98). -/
def asCount (o : Operand) : Option Nat :=
  match o with
  | .imm v => if v < 256 then some v else none
  | .mreg _ => none
  | .vreg _ => none
  | .key => none
  | .inv => none

/-- No operand. -/
def takes0 (i : Instr) : List Operand → Option Instr
  | [] => some i
  | _ :: _ => none

/-- One matrix operand. -/
def takesM (f : MReg → Instr) : List Operand → Option Instr
  | [a] => (asMatrix a).map f
  | _ => none

/-- Two matrix operands. -/
def takesMM (f : MReg → MReg → Instr) : List Operand → Option Instr
  | [a, b] => (asMatrix a).bind fun x => (asMatrix b).map fun y => f x y
  | _ => none

/-- Two vector operands. -/
def takesVV (f : VReg → VReg → Instr) : List Operand → Option Instr
  | [a, b] => (asVector a).bind fun x => (asVector b).map fun y => f x y
  | _ => none

/-- Three matrix operands. -/
def takesMMM (f : MReg → MReg → MReg → Instr) : List Operand → Option Instr
  | [a, b, c] => (asMatrix a).bind fun x => (asMatrix b).bind fun y => (asMatrix c).map fun z => f x y z
  | _ => none

/-- A vector, a matrix and a vector operand. -/
def takesVMV (f : VReg → MReg → VReg → Instr) : List Operand → Option Instr
  | [a, b, c] => (asVector a).bind fun x => (asMatrix b).bind fun y => (asVector c).map fun z => f x y z
  | _ => none

/-- Two vector operands and a count. -/
def takesVVC (f : VReg → VReg → Nat → Instr) : List Operand → Option Instr
  | [a, b, c] => (asVector a).bind fun x => (asVector b).bind fun y => (asCount c).map fun z => f x y z
  | _ => none

/-- The command that a line of assembler source stands for (R98); each pseudo-instruction is exactly one command (R99). -/
def assemble (l : AsmLine) : Option Instr :=
  match l.mnemonic with
  | .nop => takes0 .nop l.operands
  | .mmul => takesMMM .mmul l.operands
  | .mvmul => takesVMV .mvmul l.operands
  | .mdet => takesM .mdet l.operands
  | .invchk => takesM .invchk l.operands
  | .minv => takesMM .minv l.operands
  | .enc => takesVV .enc l.operands
  | .dec => takesVV .dec l.operands
  | .encpad => takesVVC .encpad l.operands
  | .decpad => takesVV .decpad l.operands
  | .keyinv => takes0 (.minv .inv .key) l.operands
  | .keychk => takes0 (.invchk .key) l.operands
  | .keydet => takes0 (.mdet .key) l.operands

/-- The source line of a command (R98): destination, sources, immediate. -/
def disassemble (i : Instr) : AsmLine :=
  match i with
  | .nop => ⟨.nop, []⟩
  | .mmul md ma mb => ⟨.mmul, [.mreg md.num, .mreg ma.num, .mreg mb.num]⟩
  | .mvmul vd ma vb => ⟨.mvmul, [.vreg vd.num, .mreg ma.num, .vreg vb.num]⟩
  | .mdet ma => ⟨.mdet, [.mreg ma.num]⟩
  | .invchk ma => ⟨.invchk, [.mreg ma.num]⟩
  | .minv md ma => ⟨.minv, [.mreg md.num, .mreg ma.num]⟩
  | .enc vd vb => ⟨.enc, [.vreg vd.num, .vreg vb.num]⟩
  | .dec vd vb => ⟨.dec, [.vreg vd.num, .vreg vb.num]⟩
  | .encpad vd vb r => ⟨.encpad, [.vreg vd.num, .vreg vb.num, .imm r]⟩
  | .decpad vd vb => ⟨.decpad, [.vreg vd.num, .vreg vb.num]⟩

/-- The mnemonic in upper case, as the source is written (R98, R99). -/
def mnemonicText : Mnemonic → String
  | .nop => "NOP"
  | .mmul => "MMUL"
  | .mvmul => "MVMUL"
  | .mdet => "MDET"
  | .invchk => "INVCHK"
  | .minv => "MINV"
  | .enc => "ENC"
  | .dec => "DEC"
  | .encpad => "ENCPAD"
  | .decpad => "DECPAD"
  | .keyinv => "KEYINV"
  | .keychk => "KEYCHK"
  | .keydet => "KEYDET"

/-- An operand as it is written (R98), the immediate in decimal. -/
def operandText : Operand → String
  | .mreg k => "M" ++ toString k
  | .vreg k => "V" ++ toString k
  | .key => "KEY"
  | .inv => "INV"
  | .imm v => toString v

/-- A line as it is written: the mnemonic, then the operands separated by commas (R98). -/
def lineText (l : AsmLine) : String :=
  match l.operands with
  | [] => mnemonicText l.mnemonic
  | os => mnemonicText l.mnemonic ++ " " ++ String.intercalate ", " (os.map operandText)

/-- `cmd <command>` is `PortWrite(0x003, <word of the command>)` (R100). -/
def cmdInput (i : Instr) : Input := .write (addrOf .cmd) (encode i)

/-- The transaction a line of a host sequence stands for (R100). -/
def hostInput (l : HostLine) : Option Input :=
  match l with
  | .wr loc w => some (.write (addrOf loc) w)
  | .rd loc _ => some (.read (addrOf loc))
  | .cmd line => (assemble line).map cmdInput

end Sys2Proof.Machine
end

