-- ==== Sys2Proof/Machine/Bridge.lean ====
section
/-! DEFINITION. The port behind a byte-addressed bus, for the integrator who bridges it (20_memory.md R69, R70; log 17). The block
itself has no byte order. -/

namespace Sys2Proof.Machine

/-- An access on the byte-addressed side of a bridge: a byte offset from the window base, a width in bytes, and the bytes of a
write, lowest address first. -/
structure BusAccess where
  offset : Nat
  width : Nat
  data : Option (List Byte)
deriving DecidableEq, Repr

/-- Bits 7:0 at the lowest byte address (R69). -/
def bytesOfWord (w : Word) : List Byte :=
  [w.extractLsb' 0 8, w.extractLsb' 8 8, w.extractLsb' 16 8, w.extractLsb' 24 8]

/-- The word of four bytes, the first at the lowest byte address (R69). -/
def wordOfBytes (b0 b1 b2 b3 : Byte) : Word := b3 ++ b2 ++ b1 ++ b0

/-- What a bridge forwards to the block (R69, R70): only a naturally aligned 32-bit access inside the window, as one transaction
on the word at byte address `4 a`; anything else reaches nothing, and the block's state is unchanged by it. -/
def forwarded (b : BusAccess) : Option Input :=
  if b.offset % 4 = 0 ∧ b.width = 4 ∧ b.offset < 4 * 512 then
    match b.data with
    | none => some (.read (BitVec.ofNat 9 (b.offset / 4)))
    | some [b0, b1, b2, b3] => some (.write (BitVec.ofNat 9 (b.offset / 4)) (wordOfBytes b0 b1 b2 b3))
    | some _ => none
  else none

end Sys2Proof.Machine
end

