-- ==== Sys2Proof/Machine/Gauss.lean ====
section
/-! DEFINITION. Reference algorithm G, Gauss-Jordan over the residues with Euclidean row reduction (40_matrix_ops.md R140). It is
not what a meaning calls: R138 leaves the algorithm open and the result fixed (log 11). -/

namespace Sys2Proof.Machine

/-- A row of the table `T`: its residues. -/
abbrev GRow := List Nat

/-- The entry `T[r][k]`. -/
def entryAt (T : List GRow) (r k : Nat) : Nat := (T.getD r []).getD k 0

/-- `T[r][k] = mod(T[r][k] - q T[s][k], m)` for every `k` of one row. -/
def rowSub (m q : Nat) (src row : GRow) : GRow :=
  List.zipWith (fun x y : Nat => residue ((x : Int) - (q : Int) * (y : Int)) m) row src

/-- `T[c][k] = mod(u T[c][k], m)` for every `k` of one row. -/
def rowScale (m u : Nat) (row : GRow) : GRow := row.map fun x : Nat => residue ((u : Int) * (x : Int)) m

/-- The table `T[i][j] = mod(A[i][j], m)`, `T[i][n+j] = (1 if i = j else 0)`. -/
def gaussTable (n : Nat) (A : IMat) (m : Nat) : List GRow :=
  (List.range n).map fun i =>
    ((List.range n).map fun j => residue (A i j) m) ++ ((List.range n).map fun j => if i = j then 1 else 0)

/-- The rows `r` with `lo ≤ r < n` and `T[r][c] ≠ 0`: the set `S` of step 1. -/
def liveRows (T : List GRow) (n lo c : Nat) : List Nat :=
  (List.range n).filter fun r => decide (lo ≤ r) && decide (entryAt T r c ≠ 0)

/-- The `r` of a list with the smallest `T[r][c]`; among equals the first. -/
def smallestRow (T : List GRow) (c : Nat) : Nat → List Nat → Nat
  | best, [] => best
  | best, r :: rs => smallestRow T c (if entryAt T r c < entryAt T best c then r else best) rs

/-- One pass of step 1 with the smallest row `p`: every other row of `S` loses its multiple of row `p`. -/
def reducePass (m : Nat) (T : List GRow) (c p : Nat) (S : List Nat) : List GRow :=
  T.mapIdx fun r row =>
    if decide (r ≠ p) && S.contains r then rowSub m (entryAt T r c / entryAt T p c) (T.getD p []) row else row

/-- Step 1: Euclidean reduction of column `c` over rows `c .. n-1`, on a bound of the number of passes. -/
def reduceColumn (m n c : Nat) : Nat → List GRow → List GRow
  | 0, T => T
  | k + 1, T =>
    match liveRows T n c c with
    | [] => T
    | [_] => T
    | r :: rs => reduceColumn m n c k (reducePass m T c (smallestRow T c r rs) (r :: rs))

/-- Exchange of the rows `a` and `b`. -/
def swapRows (T : List GRow) (a b : Nat) : List GRow :=
  T.mapIdx fun r row => if r = a then T.getD b [] else if r = b then T.getD a [] else row

/-- Step 3: clear column `c` in every other row, above and below. -/
def clearColumn (m c : Nat) (T : List GRow) : List GRow :=
  T.mapIdx fun r row => if decide (r ≠ c) && decide (entryAt T r c ≠ 0) then rowSub m (entryAt T r c) (T.getD c []) row else row

/-- Steps 2 and 3 for column `c`: the pivot, its scaling, the clearing; nothing when the column shows the matrix singular. -/
def pivotColumn (m n c : Nat) (T : List GRow) : Option (List GRow) :=
  match liveRows T n c c with
  | [] => none
  | p :: _ =>
    let T1 := swapRows T c p
    let d := entryAt T1 c c
    if gcdOf d m ≠ 1 then none
    else some (clearColumn m c (T1.mapIdx fun r row => if r = c then rowScale m (invMod m d) row else row))

/-- The columns `c .. n-1`, `k` of them left. Every pass of step 1 lowers the smallest entry, so `m` passes are enough. -/
def gaussColumns (m n : Nat) : Nat → List GRow → Option (List GRow)
  | 0, T => some T
  | k + 1, T =>
    match pivotColumn m n (n - (k + 1)) (reduceColumn m n (n - (k + 1)) m T) with
    | none => none
    | some T' => gaussColumns m n k T'

/-- `inv_gauss(A, m)` (R140): the inverse, or `none` for SINGULAR. -/
def invGauss (n : Nat) (A : IMat) (m : Nat) : Option (Nat → Nat → Nat) :=
  (gaussColumns m n n (gaussTable n A m)).map fun T i j => entryAt T i (n + j)

end Sys2Proof.Machine
end

