-- ==== Sys2Proof/Machine/Procedures.lean ====
section
/-! DEFINITION. What the host does over the port, as lists of inputs: initialisation and the test of a key
candidate (70_reset_and_hazards.md R238 to R241, R244), and whole messages (41_cipher_ops.md R161 to R163), with the
convention `PAD_ALWAYS` as an argument (R158; 92_eei_decisions.md D21).
The registers chosen are the model's (log 18): V0 for the block to work on, V1 for the result. -/

namespace Sys2Proof.Machine

/-- `wr <name>, <word>` (30_encoding.md R100). -/
def wrInput (l : Loc) (w : Word) : Input := .write (addrOf l) w

/-- `rd <name>` (30_encoding.md R100). -/
def rdInput (l : Loc) : Input := .read (addrOf l)

/-- One `wr` per element of a vector register, from element 0 (42_system_and_port_ops.md R174, R242). -/
def loadVector (k : VReg) (xs : List Word) : List Input :=
  xs.zipIdx.map fun p => wrInput (.v k (Fin.ofNat 8 p.2)) p.1

/-- One `rd` per element of the active region of a vector register. -/
def readVector (k : VReg) (n : Nat) : List Input :=
  (List.range n).map fun j => rdInput (.v k (Fin.ofNat 8 j))

/-- One `wr` per element of a matrix register, row by row (R240). -/
def loadMatrix (k : MReg) (rows : List (List Word)) : List Input :=
  rows.zipIdx.flatMap fun r => r.1.zipIdx.map fun e => wrInput (.m k (Fin.ofNat 8 r.2) (Fin.ofNat 8 e.2)) e.1

/-- Initialisation after reset (R238): `RADIX` and `N` (R239), the key (R240), and for decryption `KEYINV` with a read of
`STATUS` (R241). -/
def initialise (radix : Word) (n : Nat) (key : List (List Word)) (decrypting : Bool) : List Input :=
  [wrInput .radix radix, wrInput .n (word n)] ++ loadMatrix MReg.key key
    ++ (if decrypting then [cmdInput (.minv MReg.inv MReg.key), rdInput .status] else [])

/-- Testing a key candidate (R244): write it into a matrix register, `INVCHK`, read `STATUS` for `INVERTIBLE`. The random source and
the retry bound are the host's. -/
def testCandidate (k : MReg) (rows : List (List Word)) : List Input :=
  loadMatrix k rows ++ [cmdInput (.invchk k), rdInput .status]

/-- Encrypting one full block (R162): write it, `ENC`, read the ciphertext. -/
def encryptBlock (n : Nat) (xs : List Word) : List Input :=
  loadVector .v0 xs ++ [cmdInput (.enc .v1 .v0)] ++ readVector .v1 n

/-- Encrypting the final padded block (R162): the `r` remaining tokens, the filler in slots `r` to `n - 2`, `ENCPAD`, read. -/
def encryptLast (n : Nat) (rest filler : List Word) : List Input :=
  loadVector .v0 (rest ++ filler.take (n - 1 - rest.length))
    ++ [cmdInput (.encpad .v1 .v0 rest.length)] ++ readVector .v1 n

/-- Whether a message has a padded last block (R158, R162, R163): always under `PAD_ALWAYS`, else when its length is no multiple of
the block size. -/
def hasPaddedBlock (padAlways exactMultiple : Bool) : Bool := padAlways || !exactMultiple

/-- Encrypting a message (R162), `q` full blocks and then the rest: a padded block if tokens remain, or always under `PAD_ALWAYS`. -/
def encryptMessage (padAlways : Bool) (n : Nat) (filler : List Word) : Nat → List Word → List Input
  | 0, rest => if hasPaddedBlock padAlways (decide (rest.length = 0)) then encryptLast n rest filler else []
  | q + 1, xs => encryptBlock n (xs.take n) ++ encryptMessage padAlways n filler q (xs.drop n)

/-- Decrypting one block that is not padded (R163): write it, `DEC`, read the plaintext. -/
def decryptBlock (n : Nat) (xs : List Word) : List Input :=
  loadVector .v0 xs ++ [cmdInput (.dec .v1 .v0)] ++ readVector .v1 n

/-- Decrypting the padded last block (R163): `DECPAD`, read `PAD`, read the slots. -/
def decryptLast (n : Nat) (xs : List Word) : List Input :=
  loadVector .v0 xs ++ [cmdInput (.decpad .v1 .v0), rdInput .pad] ++ readVector .v1 n

/-- Decrypting a ciphertext of `q` blocks and a last block (R163; 92_eei_decisions.md D21): the last by `DECPAD` when it is padded; by
`DEC` too when the convention is not `PAD_ALWAYS` and the message was an exact multiple of the block size, which the host must
know by other means, so both are arguments (log 18). -/
def decryptMessage (padAlways exactMultiple : Bool) (n : Nat) : Nat → List Word → List Input
  | 0, last => if hasPaddedBlock padAlways exactMultiple then decryptLast n last else decryptBlock n last
  | q + 1, xs => decryptBlock n (xs.take n) ++ decryptMessage padAlways exactMultiple n q (xs.drop n)

/-- What the host keeps of the last block (R161): the first `n - p` slots, where `p` is what `PAD` read. -/
def dropPadding (n : Nat) (p : Word) (slots : List Word) : List Word := slots.take (n - uint p)

/-- The plaintext that the host puts together (R163), from the words the reads of `decryptMessage` returned, oldest first: `n` of each
block that is not padded, and the first `n - p` of a padded last block, whose reads begin with `PAD = p`. -/
def decryptedTokens (padAlways exactMultiple : Bool) (n : Nat) : Nat → List Word → List Word
  | 0, [] => []
  | 0, w :: ws => if hasPaddedBlock padAlways exactMultiple then dropPadding n w (ws.take n) else (w :: ws).take n
  | q + 1, ws => ws.take n ++ decryptedTokens padAlways exactMultiple n q (ws.drop n)

end Sys2Proof.Machine
end

