-- ==== Sys2Proof/Safety.lean ====
section
/-! DEFINITION. The terms the statements use: when a command executes normally, what has been written, what a state of the block
keeps (its invariant), and what each command may write. -/

namespace Sys2Proof.Machine

/-- A command other than NOP runs its own pseudocode: no lockout, legal `RADIX` and `N` (40_matrix_ops.md R120). -/
def State.ready (s : State) : Prop := s.fault = false ∧ s.radixLegal = true ∧ s.nLegal = true

/-- Every element of the active region of a matrix register has been written since reset (70_reset_and_hazards.md R242). -/
def State.writtenM (s : State) (k : MReg) (n : Nat) : Prop :=
  ∀ i j : Fin 8, i.val < n → j.val < n → (s.elemM k i j).written = true

/-- Every element `0 .. n-1` of a vector register has been written since reset (R242). -/
def State.writtenV (s : State) (k : VReg) (n : Nat) : Prop :=
  ∀ j : Fin 8, j.val < n → (s.elemV k j).written = true

/-- `A · B` is the identity modulo `m` on the active region (00_scope.md R15). -/
def IdentityProduct (n : Nat) (A B : IMat) (m : Nat) : Prop :=
  ∀ i j : Nat, i < n → j < n → matmul n A B m i j = if i = j then 1 else 0

/-- The determinant of an active region is a unit modulo `m`: the criterion of invertibility (00_scope.md R15). -/
abbrev Unimodular (n : Nat) (A : IMat) (m : Nat) : Prop := gcdOf (residue (detZ n A) m) m = 1

/-- The fault record is coherent: `ERR` is 0 exactly when `FAULT` is, never above 6, and the record is clear without a fault
(10_state.md R36 to R38; 60_exceptions.md R191, R200). -/
def State.RecordOk (s : State) : Prop :=
  (s.fault = false → s.err = 0#4 ∧ s.errcmd = 0#32 ∧ s.errinfo = 0#32) ∧
  (s.fault = true → 1 ≤ s.err.toNat ∧ s.err.toNat ≤ 6)

/-- What `INV_VALID = 1` says (10_state.md R29): legal configuration, M1 written with residues, and M1 the inverse of M0 on both
sides. The last part has the premise of R242 that M0's active region is written (log 9). -/
def State.InverseOk (s : State) : Prop :=
  s.invValid = true →
    s.radixLegal = true ∧ s.nLegal = true ∧ s.writtenM .m1 s.size ∧
    (∀ i j : Fin 8, i.val < s.size → j.val < s.size → uint (s.elemM .m1 i j).word < s.modulus) ∧
    (s.writtenM .m0 s.size →
      IdentityProduct s.size (s.actM 0 .m0) (s.actM 1 .m1) s.modulus ∧
      IdentityProduct s.size (s.actM 0 .m1) (s.actM 1 .m0) s.modulus)

/-- The ranges of the result registers (10_state.md R39 to R41): a residue, a divisor of a legal radix, a pad count; 0 at reset. -/
def State.ResultsOk (s : State) : Prop :=
  uint s.det < Config.radixMax ∧ uint s.gcd ≤ Config.radixMax ∧ uint s.pad ≤ Config.nmax

/-- An element that nothing has written holds the reset word, so equal states are equal data (log 1). -/
def State.UnwrittenOk (s : State) : Prop :=
  (∀ k i j, (s.elemM k i j).written = false → s.elemM k i j = Elem.unwritten) ∧
  (∀ k j, (s.elemV k j).written = false → s.elemV k j = Elem.unwritten)

/-- The invariant of the block: it holds at reset and every step keeps it. -/
def State.Inv (s : State) : Prop := s.RecordOk ∧ s.InverseOk ∧ s.ResultsOk ∧ s.UnwrittenOk

/-- The locations a command writes on success with block size `n` (10_state.md R24); `STATUS` for its flags (R28, R30). -/
def writesLoc (n : Nat) (i : Instr) (l : Loc) : Prop :=
  match i with
  | .nop => False
  | .mmul md _ _ => (∃ r c : Fin 8, r.val < n ∧ c.val < n ∧ l = .m md r c) ∨ (watched md = true ∧ l = .status)
  | .mvmul vd _ _ => ∃ c : Fin 8, c.val < n ∧ l = .v vd c
  | .mdet _ => l = .det
  | .invchk _ => l = .det ∨ l = .gcd ∨ l = .status
  | .minv md _ => (∃ r c : Fin 8, r.val < n ∧ c.val < n ∧ l = .m md r c) ∨ (watched md = true ∧ l = .status)
  | .enc vd _ => ∃ c : Fin 8, c.val < n ∧ l = .v vd c
  | .dec vd _ => ∃ c : Fin 8, c.val < n ∧ l = .v vd c
  | .encpad vd _ _ => ∃ c : Fin 8, c.val < n ∧ l = .v vd c
  | .decpad vd _ => (∃ c : Fin 8, c.val < n ∧ l = .v vd c) ∨ l = .pad

/-- The source elements of a command are written: the active region of each source register, and of ENCPAD's vector the slots
`0 .. n-2` (70_reset_and_hazards.md R242). -/
def State.sourcesWritten (s : State) (i : Instr) : Prop :=
  match i with
  | .nop => True
  | .mmul _ ma mb => s.writtenM ma s.size ∧ s.writtenM mb s.size
  | .mvmul _ ma vb => s.writtenM ma s.size ∧ s.writtenV vb s.size
  | .mdet ma => s.writtenM ma s.size
  | .invchk ma => s.writtenM ma s.size
  | .minv _ ma => s.writtenM ma s.size
  | .enc _ vb => s.writtenM .m0 s.size ∧ s.writtenV vb s.size
  | .dec _ vb => s.writtenM .m1 s.size ∧ s.writtenV vb s.size
  | .encpad _ vb _ => s.writtenM .m0 s.size ∧ s.writtenV vb (s.size - 1)
  | .decpad _ vb => s.writtenM .m1 s.size ∧ s.writtenV vb s.size

/-- The pad count that DECPAD recovers: the last active slot of the decrypted block (41_cipher_ops.md R160). -/
def State.padCount (s : State) (vb : VReg) : Nat :=
  matvec s.size (s.actM 0 .m1) (s.actV 1 vb) s.modulus (s.size - 1)

/-- The condition under which a command that is `ready` completes without a fault, on the state and operands alone (R153, R156,
R137, R160): `INV_VALID` for the decrypt commands, a legal count, an invertible matrix, a pad count in range. -/
def State.completes (s : State) (i : Instr) : Prop :=
  match i with
  | .nop => True
  | .mmul _ _ _ => True
  | .mvmul _ _ _ => True
  | .mdet _ => True
  | .invchk _ => True
  | .minv _ ma => Unimodular s.size (s.actM 0 ma) s.modulus
  | .enc _ _ => True
  | .dec _ _ => s.invValid = true
  | .encpad _ _ r => r < s.size
  | .decpad _ vb => s.invValid = true ∧ 1 ≤ s.padCount vb ∧ s.padCount vb ≤ s.size

end Sys2Proof.Machine
end

