-- ==== Sys2Proof/Certificates/Slice0/Obligations.lean ====
section
/-! DEFINITION. The statements for the provers. Each says what a numbered rule of spec/ says an instruction or the machine does. -/

open Sys2Proof Sys2Proof.Machine

/-! ## Encoding -/

/-- 30_encoding.md R101: the worked encodings, each word written out from the rule's table, and the illegal neighbours. -/
def Obligations.WorkedEncodingsDecode : Prop :=
  decode 0x01000000#32 = .ok .nop ∧
  decode 0x10301000#32 = .ok (.mmul .m3 .m0 .m1) ∧
  decode 0x10222000#32 = .ok (.mmul .m2 .m2 .m2) ∧
  decode 0x11100000#32 = .ok (.mvmul .v1 .m0 .v0) ∧
  decode 0x11321000#32 = .ok (.mvmul .v3 .m2 .v1) ∧
  decode 0x12000000#32 = .ok (.mdet .m0) ∧
  decode 0x12020000#32 = .ok (.mdet .m2) ∧
  decode 0x13000000#32 = .ok (.invchk .m0) ∧
  decode 0x13030000#32 = .ok (.invchk .m3) ∧
  decode 0x14100000#32 = .ok (.minv .m1 .m0) ∧
  decode 0x14320000#32 = .ok (.minv .m3 .m2) ∧
  decode 0x20100000#32 = .ok (.enc .v1 .v0) ∧
  decode 0x21201000#32 = .ok (.dec .v2 .v1) ∧
  decode 0x22100001#32 = .ok (.encpad .v1 .v0 1) ∧
  decode 0x22302000#32 = .ok (.encpad .v3 .v2 0) ∧
  decode 0x23201000#32 = .ok (.decpad .v2 .v1) ∧
  ∀ c ∈ [0x00000000#32, 0x01000001#32, 0x10401000#32, 0x12100000#32, 0x14101000#32, 0x20110000#32, 0x20100100#32,
    0x21201001#32, 0x24000000#32], ∃ e, decode c = .error e

/-- 30_encoding.md R95: a word is the command of a row exactly when `(c AND mask) = match`; the operands are the numbers in the
fields the row names. No word is the command of two rows, since `decode c` is one value. -/
def Obligations.DecodeByMatchAndMask : Prop :=
  ∀ c : Word,
    (decode c = .ok .nop ↔ c &&& 0xFFFFFFFF#32 = 0x01000000#32) ∧
    (∀ md ma mb, decode c = .ok (.mmul md ma mb) ↔ c &&& 0xFFCCCFFF#32 = 0x10000000#32 ∧
      (c.extractLsb' 20 4).toNat = md.num ∧ (c.extractLsb' 16 4).toNat = ma.num ∧ (c.extractLsb' 12 4).toNat = mb.num) ∧
    (∀ vd ma vb, decode c = .ok (.mvmul vd ma vb) ↔ c &&& 0xFFCCCFFF#32 = 0x11000000#32 ∧
      (c.extractLsb' 20 4).toNat = vd.num ∧ (c.extractLsb' 16 4).toNat = ma.num ∧ (c.extractLsb' 12 4).toNat = vb.num) ∧
    (∀ ma, decode c = .ok (.mdet ma) ↔ c &&& 0xFFFCFFFF#32 = 0x12000000#32 ∧ (c.extractLsb' 16 4).toNat = ma.num) ∧
    (∀ ma, decode c = .ok (.invchk ma) ↔ c &&& 0xFFFCFFFF#32 = 0x13000000#32 ∧ (c.extractLsb' 16 4).toNat = ma.num) ∧
    (∀ md ma, decode c = .ok (.minv md ma) ↔ c &&& 0xFFCCFFFF#32 = 0x14000000#32 ∧
      (c.extractLsb' 20 4).toNat = md.num ∧ (c.extractLsb' 16 4).toNat = ma.num) ∧
    (∀ vd vb, decode c = .ok (.enc vd vb) ↔ c &&& 0xFFCFCFFF#32 = 0x20000000#32 ∧
      (c.extractLsb' 20 4).toNat = vd.num ∧ (c.extractLsb' 12 4).toNat = vb.num) ∧
    (∀ vd vb, decode c = .ok (.dec vd vb) ↔ c &&& 0xFFCFCFFF#32 = 0x21000000#32 ∧
      (c.extractLsb' 20 4).toNat = vd.num ∧ (c.extractLsb' 12 4).toNat = vb.num) ∧
    (∀ vd vb r, decode c = .ok (.encpad vd vb r) ↔ c &&& 0xFFCFCF00#32 = 0x22000000#32 ∧
      (c.extractLsb' 20 4).toNat = vd.num ∧ (c.extractLsb' 12 4).toNat = vb.num ∧ (c.extractLsb' 0 8).toNat = r) ∧
    (∀ vd vb, decode c = .ok (.decpad vd vb) ↔ c &&& 0xFFCFCFFF#32 = 0x23000000#32 ∧
      (c.extractLsb' 20 4).toNat = vd.num ∧ (c.extractLsb' 12 4).toNat = vb.num)

/-- 30_encoding.md R91, R95, R96: decoding the encoding of a well-formed instruction gives it back, every operand at every value. -/
def Obligations.DecodeOfEncodeIsInstruction : Prop :=
  ∀ i : Instr, i.wellFormed = true → decode (encode i) = .ok i

/-- 30_encoding.md R91, R95, R96: a word that decodes is the encoding of the well-formed instruction it decodes to, so no bit of a
legal word is dropped and each instruction has one word. -/
def Obligations.EncodeOfDecodeIsWord : Prop :=
  ∀ (c : Word) (i : Instr), decode c = .ok i → i.wellFormed = true ∧ encode i = c

/-- 30_encoding.md R96: the number of legal words is 4297. -/
def Obligations.LegalWordCount : Prop :=
  Nat.card { c : Word // ∃ i, decode c = .ok i } = 4297

/-- 30_encoding.md R97: a word is illegal exactly by one of the listed clauses (an `OP` outside the map, a used register field of 4
to 15, an unused field that is not 0, `Z` not 0, `IMM` not 0 outside ENCPAD), and executing it records `ILLEGAL_CMD` and
changes nothing else. -/
def Obligations.IllegalWordsFault : Prop :=
  ∀ c : Word,
    ((∃ e, decode c = .error e) ↔
      ((c.extractLsb' 24 8).toNat ∉ [0x01, 0x10, 0x11, 0x12, 0x13, 0x14, 0x20, 0x21, 0x22, 0x23]) ∨
      ((c.extractLsb' 24 8).toNat ∈ [0x10, 0x11, 0x14, 0x20, 0x21, 0x22, 0x23] ∧ 4 ≤ (c.extractLsb' 20 4).toNat) ∨
      ((c.extractLsb' 24 8).toNat ∈ [0x10, 0x11, 0x12, 0x13, 0x14] ∧ 4 ≤ (c.extractLsb' 16 4).toNat) ∨
      ((c.extractLsb' 24 8).toNat ∈ [0x10, 0x11, 0x20, 0x21, 0x22, 0x23] ∧ 4 ≤ (c.extractLsb' 12 4).toNat) ∨
      ((c.extractLsb' 24 8).toNat ∈ [0x01, 0x12, 0x13] ∧ (c.extractLsb' 20 4).toNat ≠ 0) ∨
      ((c.extractLsb' 24 8).toNat ∈ [0x01, 0x20, 0x21, 0x22, 0x23] ∧ (c.extractLsb' 16 4).toNat ≠ 0) ∨
      ((c.extractLsb' 24 8).toNat ∈ [0x01, 0x12, 0x13, 0x14] ∧ (c.extractLsb' 12 4).toNat ≠ 0) ∨
      (c.extractLsb' 8 4).toNat ≠ 0 ∨
      ((c.extractLsb' 24 8).toNat ≠ 0x22 ∧ (c.extractLsb' 0 8).toNat ≠ 0)) ∧
    (∀ (e : Illegal) (s : State), decode c = .error e → s.fault = false →
      execute c s = .next { s with err := 1#4, errcmd := c, errinfo := 0#32, fault := true })

/-- 30_encoding.md R98: assembling the source line of a well-formed command gives the command back, and the line is well formed. -/
def Obligations.AssembleOfDisassemble : Prop :=
  ∀ i : Instr, i.wellFormed = true → (disassemble i).wellFormed = true ∧ assemble (disassemble i) = some i

/-- 30_encoding.md R98: a line is well formed exactly when it stands for a command, and that command is then well formed. -/
def Obligations.AssembleExactlyWellFormedLines : Prop :=
  ∀ l : AsmLine, (l.wellFormed = true ↔ ∃ i, assemble l = some i) ∧ ∀ i, assemble l = some i → i.wellFormed = true

/-- 30_encoding.md R99: each pseudo-instruction expands to exactly one command, with the word of the table. -/
def Obligations.PseudoInstructionsExpand : Prop :=
  (assemble ⟨.keyinv, []⟩ = some (.minv .m1 .m0) ∧ encode (.minv .m1 .m0) = 0x14100000#32) ∧
  (assemble ⟨.keychk, []⟩ = some (.invchk .m0) ∧ encode (.invchk .m0) = 0x13000000#32) ∧
  (assemble ⟨.keydet, []⟩ = some (.mdet .m0) ∧ encode (.mdet .m0) = 0x12000000#32)

/-! ## The register port and the step -/

/-- 42_system_and_port_ops.md R175, 20_memory.md R65: a write of a word that decodes to `i` to `CMD` runs `i`: the step is `exec i`
at the state with the input taken off the port and the transaction counted. -/
def Obligations.StepRunsDecodedInstruction : Prop :=
  ∀ (s : State) (c : Word) (i : Instr) (rest : List Input),
    s.port = .write 0x003#9 c :: rest → decode c = .ok i →
    step s = exec i { s with port := rest, txn := s.txn + 1 }

/-- 42_system_and_port_ops.md R178, 70_reset_and_hazards.md R233: with no transaction presented the state does not change. -/
def Obligations.IdleStepKeepsState : Prop :=
  ∀ s : State, s.port = [] → step s = .next s

/-- 20_memory.md R64: what a read of each address returns, that no read faults, and that it changes nothing but the model's record
of the port. An element that nothing has written since reset is the exception the rule leaves open; no value is claimed for it. -/
def Obligations.PortReadReturnsTheRegister : Prop :=
  ∀ (s : State) (a : Addr) (rest : List Input), s.port = .read a :: rest →
    ∃ w : Word, step s = .next { s with port := rest, txn := s.txn + 1, reads := w :: s.reads } ∧
      (a.toNat = 0x000 → w = 0x4D4D4D01#32) ∧
      (a.toNat = 0x001 → w = s.radix) ∧
      (a.toNat = 0x002 → w = s.n.zeroExtend 32) ∧
      (a.toNat = 0x003 → w = 0#32) ∧
      (a.toNat = 0x004 → w = 0#24 ++ s.err ++ 0#1 ++ BitVec.ofBool s.invertible ++ BitVec.ofBool s.invValid
        ++ BitVec.ofBool s.fault) ∧
      (a.toNat = 0x005 → w = s.errcmd) ∧
      (a.toNat = 0x006 → w = s.errinfo) ∧
      (a.toNat = 0x007 → w = s.det) ∧
      (a.toNat = 0x008 → w = s.gcd) ∧
      (a.toNat = 0x009 → w = s.pad) ∧
      (∀ (k : VReg) (j : Fin 8), a.toNat = 0x020 + 8 * k.num + j.val →
        (s.elemV k j).written = true → w = (s.elemV k j).word) ∧
      (∀ (k : MReg) (i j : Fin 8), a.toNat = 0x100 + 64 * k.num + 8 * i.val + j.val →
        (s.elemM k i j).written = true → w = (s.elemM k i j).word) ∧
      ((0x00A ≤ a.toNat ∧ a.toNat ≤ 0x01F) ∨ (0x040 ≤ a.toNat ∧ a.toNat ≤ 0x0FF) → w = 0#32)

/-- 20_memory.md R65: what a write to each address does and that it does nothing else, whether `FAULT` is 0 or 1. -/
def Obligations.PortWriteStoresTheRegister : Prop :=
  ∀ (s : State) (a : Addr) (w : Word) (rest : List Input), s.port = .write a w :: rest →
    (a.toNat = 0x001 →
      step s = .next { s with port := rest, txn := s.txn + 1, radix := w, invValid := false }) ∧
    (a.toNat = 0x002 →
      step s = .next { s with port := rest, txn := s.txn + 1, n := w.extractLsb' 0 4, invValid := false }) ∧
    (a.toNat = 0x003 → step s = execute w { s with port := rest, txn := s.txn + 1 }) ∧
    (a.toNat = 0x004 → w.getLsbD 0 = true →
      step s = .next { s with port := rest, txn := s.txn + 1, fault := false, err := 0#4, errcmd := 0#32, errinfo := 0#32 }) ∧
    (a.toNat = 0x004 → w.getLsbD 0 = false → step s = .next { s with port := rest, txn := s.txn + 1 }) ∧
    (∀ (k : VReg) (j : Fin 8), a.toNat = 0x020 + 8 * k.num + j.val →
      ∃ t, step s = .next t ∧
        (∀ k' j', t.elemV k' j' = if k' = k ∧ j' = j then ⟨true, w⟩ else s.elemV k' j') ∧
        { t with vecs := s.vecs } = { s with port := rest, txn := s.txn + 1 }) ∧
    (∀ (k : MReg) (i j : Fin 8), a.toNat = 0x100 + 64 * k.num + 8 * i.val + j.val →
      ∃ t, step s = .next t ∧
        (∀ k' i' j', t.elemM k' i' j' = if k' = k ∧ i' = i ∧ j' = j then ⟨true, w⟩ else s.elemM k' i' j') ∧
        t.invValid = (if a.toNat ≤ 0x17F then false else s.invValid) ∧
        { t with mats := s.mats, invValid := s.invValid } = { s with port := rest, txn := s.txn + 1 }) ∧
    (a.toNat = 0x000 ∨ (0x005 ≤ a.toNat ∧ a.toNat ≤ 0x01F) ∨ (0x040 ≤ a.toNat ∧ a.toNat ≤ 0x0FF) →
      step s = .next { s with port := rest, txn := s.txn + 1 })

/-- 20_memory.md R72: a read after a write of a data element returns the word written, and after a write of another data element it
returns what it would have returned before, for an element that has been written. -/
def Obligations.DataReadAfterWrite : Prop :=
  ∀ (s : State) (a b : Addr) (w : Word) (rest : List Input),
    (0x020 ≤ a.toNat ∧ a.toNat ≤ 0x03F) ∨ 0x100 ≤ a.toNat →
    (0x020 ≤ b.toNat ∧ b.toNat ≤ 0x03F) ∨ 0x100 ≤ b.toNat →
    s.port = .write a w :: .read b :: rest →
    ∃ t u v, step s = .next t ∧ step t = .next u ∧ u.reads = v :: s.reads ∧ u.port = rest ∧
      (b = a → v = w) ∧
      (b ≠ a →
        (∀ (k : VReg) (j : Fin 8), b.toNat = 0x020 + 8 * k.num + j.val → (s.elemV k j).written = true) →
        (∀ (k : MReg) (i j : Fin 8), b.toNat = 0x100 + 64 * k.num + 8 * i.val + j.val → (s.elemM k i j).written = true) →
        v = s.portRead b)

/-- 10_state.md R36: the layout of `STATUS`, field by field, with the reserved bits reading 0. -/
def Obligations.StatusWordFields : Prop :=
  ∀ s : State,
    s.statusWord.getLsbD 0 = s.fault ∧ s.statusWord.getLsbD 1 = s.invValid ∧ s.statusWord.getLsbD 2 = s.invertible ∧
    s.statusWord.getLsbD 3 = false ∧ s.statusWord.extractLsb' 4 4 = s.err ∧ s.statusWord.extractLsb' 8 24 = 0#24

/-- 10_state.md R44, 70_reset_and_hazards.md R230, R231: after reset every control register has the value of the table, no data
element is written, and the block is idle. -/
def Obligations.ResetStateValues : Prop :=
  State.reset.radix = 0#32 ∧ State.reset.n = 0#4 ∧ State.reset.fault = false ∧ State.reset.invValid = false ∧
  State.reset.invertible = false ∧ State.reset.err = 0#4 ∧ State.reset.errcmd = 0#32 ∧ State.reset.errinfo = 0#32 ∧
  State.reset.det = 0#32 ∧ State.reset.gcd = 0#32 ∧ State.reset.pad = 0#32 ∧
  State.reset.portRead 0x000#9 = 0x4D4D4D01#32 ∧ State.reset.portRead 0x004#9 = 0#32 ∧
  (∀ k i j, (State.reset.elemM k i j).written = false) ∧ (∀ k j, (State.reset.elemV k j).written = false)

/-- 70_reset_and_hazards.md R230 to R232: a reset at any time gives the reset state, whatever the state was; the host's remaining
inputs and the words it has read are its own (the model's record, log 6, 21). -/
def Obligations.ResetInputGivesResetState : Prop :=
  ∀ (s : State) (rest : List Input), s.port = .reset :: rest →
    step s = .next { State.reset with port := rest, reads := s.reads, txn := s.txn + 1 }

/-- 20_memory.md R62, R68; 93_implementation_defined.md, end of part 1 ("Nothing in this spec is `stuck`"): every step from every
state answers a next state, and takes one input off the port. -/
def Obligations.EveryStepCompletes : Prop :=
  ∀ s : State, ∃ t, step s = .next t ∧ t.port = s.port.tail ∧
    t.reads.length = s.reads.length + (match s.port with | .read _ :: _ => 1 | _ => 0)

/-! ## Faults -/

/-- 60_exceptions.md R203: while `FAULT = 1` every command is ignored; reads and other writes work as usual; lockout ends only by
`ClearFault` or reset. -/
def Obligations.LockoutIgnoresCommands : Prop :=
  ∀ s : State, s.fault = true →
    (∀ i, exec i s = .next s) ∧
    (∀ (c : Word) (rest : List Input), s.port = .write 0x003#9 c :: rest →
      step s = .next { s with port := rest, txn := s.txn + 1 }) ∧
    (∀ t, step s = .next t → t.fault = false →
      ∃ rest, s.port = .reset :: rest ∨ ∃ w, w.getLsbD 0 = true ∧ s.port = .write 0x004#9 w :: rest)

/-- 60_exceptions.md R196: `Execute` of a word that decodes to a command other than NOP takes `BAD_CONFIG`, with detail 1 when `RADIX` is
illegal and 2 when `RADIX` is legal and `N` is illegal, and changes nothing else; so does such a command's meaning. -/
def Obligations.BadConfigBeforeEveryCommand : Prop :=
  ∀ (c : Word) (i : Instr) (s : State), decode c = .ok i → i ≠ .nop → s.fault = false →
    (uint s.radix < 2 ∨ 2 ^ 31 - 1 < uint s.radix →
      execute c s = .next { s with err := 2#4, errcmd := c, errinfo := 1#32, fault := true } ∧
      exec i s = .next { s with err := 2#4, errcmd := c, errinfo := 1#32, fault := true }) ∧
    (2 ≤ uint s.radix → uint s.radix ≤ 2 ^ 31 - 1 → s.n.toNat < 1 ∨ 8 < s.n.toNat →
      execute c s = .next { s with err := 2#4, errcmd := c, errinfo := 2#32, fault := true } ∧
      exec i s = .next { s with err := 2#4, errcmd := c, errinfo := 2#32, fault := true })

/-- 60_exceptions.md R200, R202: a command that faults writes the fault record, with the command word as written, and nothing else. -/
def Obligations.FaultWritesOnlyTheRecord : Prop :=
  ∀ (c : Word) (s t : State), execute c s = .next t → s.fault = false → t.fault = true →
    t = { s with err := t.err, errcmd := c, errinfo := t.errinfo, fault := true } ∧ 1 ≤ t.err.toNat ∧ t.err.toNat ≤ 6

/-- 60_exceptions.md R191: which command raises which fault code, and the detail recorded with it. -/
def Obligations.FaultCausesAndDetails : Prop :=
  ∀ (c : Word) (s t : State), execute c s = .next t → s.fault = false → t.fault = true →
    (t.err = 1#4 ∧ (∃ e, decode c = .error e) ∧ t.errinfo = 0#32) ∨
    (t.err = 2#4 ∧ (∃ i, decode c = .ok i ∧ i ≠ .nop) ∧
      ((s.radixLegal = false ∧ t.errinfo = 1#32) ∨ (s.radixLegal = true ∧ s.nLegal = false ∧ t.errinfo = 2#32))) ∨
    (t.err = 3#4 ∧ ∃ vd vb r, decode c = .ok (.encpad vd vb r) ∧ s.size ≤ r ∧ uint t.errinfo = r ∧ 1 ≤ r ∧ r ≤ 255) ∨
    (t.err = 4#4 ∧ (∃ vd vb, decode c = .ok (.dec vd vb) ∨ decode c = .ok (.decpad vd vb)) ∧ s.invValid = false ∧
      t.errinfo = 0#32) ∨
    (t.err = 5#4 ∧ ∃ md ma, decode c = .ok (.minv md ma) ∧ ¬ Unimodular s.size (s.actM 0 ma) s.modulus ∧
      uint t.errinfo = gcdOf (residue (detZ s.size (s.actM 0 ma)) s.modulus) s.modulus ∧
      2 ≤ uint t.errinfo ∧ uint t.errinfo ≤ s.modulus) ∨
    (t.err = 6#4 ∧ ∃ vd vb, decode c = .ok (.decpad vd vb) ∧ uint t.errinfo = s.padCount vb ∧
      (uint t.errinfo = 0 ∨ (s.size + 1 ≤ uint t.errinfo ∧ uint t.errinfo ≤ s.modulus - 1)))

/-! ## Results, completion and frame of each command -/

/-- 42_system_and_port_ops.md R171: `NOP` reads and writes nothing and completes in every state, whatever `RADIX`, `N` and `FAULT`
hold; its encoding is 0x01000000 exactly, and a word with its `OP` and another field that is not zero is illegal. -/
def Obligations.NopDoesNothing : Prop :=
  (∀ s : State, exec .nop s = .next s ∧ execute 0x01000000#32 s = .next s) ∧
  encode .nop = 0x01000000#32 ∧
  (∀ c : Word, decode c = .ok .nop ↔ c = 0x01000000#32) ∧
  (∀ c : Word, c.extractLsb' 24 8 = 0x01#8 → c ≠ 0x01000000#32 → ∃ e, decode c = .error e)

/-- 40_matrix_ops.md R122: `MMUL` completes and writes the exact product modulo `RADIX` on the active region, clears `INV_VALID` for
M0 and M1, and changes nothing else; sources are the values before the command. -/
def Obligations.MmulWritesTheProduct : Prop :=
  ∀ (md ma mb : MReg) (s : State), s.ready →
    ∃ t, exec (.mmul md ma mb) s = .next t ∧
      (∀ (k : MReg) (i j : Fin 8), t.elemM k i j =
        if k = md ∧ i.val < s.size ∧ j.val < s.size then
          ⟨true, word ((∑ x ∈ Finset.range s.size, s.actM 0 ma i x * s.actM 1 mb x j) % (s.modulus : Int)).toNat⟩
        else s.elemM k i j) ∧
      t.invValid = (if md = .m0 ∨ md = .m1 then false else s.invValid) ∧
      { t with mats := s.mats, invValid := s.invValid } = s

/-- 40_matrix_ops.md R126: `MVMUL` completes and writes the transform of the block modulo `RADIX`, and changes nothing else. -/
def Obligations.MvmulWritesTheTransform : Prop :=
  ∀ (vd : VReg) (ma : MReg) (vb : VReg) (s : State), s.ready →
    ∃ t, exec (.mvmul vd ma vb) s = .next t ∧
      (∀ (k : VReg) (i : Fin 8), t.elemV k i =
        if k = vd ∧ i.val < s.size then
          ⟨true, word ((∑ x ∈ Finset.range s.size, s.actM 0 ma i x * s.actV 1 vb x) % (s.modulus : Int)).toNat⟩
        else s.elemV k i) ∧
      { t with vecs := s.vecs } = s

/-- 40_matrix_ops.md R130: `MDET` completes and writes the residue of the exact determinant to `DET` and nothing else. -/
def Obligations.MdetWritesTheDeterminant : Prop :=
  ∀ (ma : MReg) (s : State), s.ready →
    exec (.mdet ma) s = .next { s with
      det := word ((Matrix.of fun i j : Fin s.size => s.actM 0 ma i j).det % (s.modulus : Int)).toNat }

/-- 40_matrix_ops.md R133: `INVCHK` completes, writes the determinant's residue, its gcd with `RADIX` and the verdict, never faults on
a singular matrix, and changes nothing else; the gcd is in 1 to `m`. -/
def Obligations.InvchkWritesTheVerdict : Prop :=
  ∀ (ma : MReg) (s : State), s.ready →
    ∃ d g : Nat, (d : Int) = (Matrix.of fun i j : Fin s.size => s.actM 0 ma i j).det % (s.modulus : Int) ∧
      g = Nat.gcd d s.modulus ∧ 1 ≤ g ∧ g ≤ s.modulus ∧ (d = 0 → g = s.modulus) ∧
      exec (.invchk ma) s = .next { s with det := word d, gcd := word g, invertible := decide (g = 1) }

/-- 40_matrix_ops.md R137, 00_scope.md R15: on an invertible matrix `MINV` completes and writes the one matrix of residues that is its
inverse on both sides, sets or clears `INV_VALID`, and changes nothing else. -/
def Obligations.MinvWritesTheInverse : Prop :=
  ∀ (md ma : MReg) (s : State), s.ready →
    Nat.gcd ((Matrix.of fun i j : Fin s.size => s.actM 0 ma i j).det % (s.modulus : Int)).toNat s.modulus = 1 →
    ∃ (t : State) (B : Nat → Nat → Nat), exec (.minv md ma) s = .next t ∧
      (∀ (k : MReg) (i j : Fin 8), t.elemM k i j =
        if k = md ∧ i.val < s.size ∧ j.val < s.size then ⟨true, word (B i j)⟩ else s.elemM k i j) ∧
      (∀ i j, i < s.size → j < s.size → B i j < s.modulus) ∧
      IdentityProduct s.size (s.actM 0 ma) (fun i j => (B i j : Int)) s.modulus ∧
      IdentityProduct s.size (fun i j => (B i j : Int)) (s.actM 0 ma) s.modulus ∧
      (∀ C : Nat → Nat → Nat, (∀ i j, i < s.size → j < s.size → C i j < s.modulus) →
        IdentityProduct s.size (s.actM 0 ma) (fun i j => (C i j : Int)) s.modulus →
        ∀ i j, i < s.size → j < s.size → C i j = B i j) ∧
      t.invValid = (if md = .m1 ∧ ma = .m0 then true else if md = .m0 ∨ md = .m1 then false else s.invValid) ∧
      { t with mats := s.mats, invValid := s.invValid } = s

/-- 60_exceptions.md R193, 40_matrix_ops.md R137: on a singular matrix `MINV` takes `SINGULAR` with the gcd, 2 to `m`, as its detail,
`m` when the determinant is congruent to 0, and writes nothing else. -/
def Obligations.MinvSingularFaults : Prop :=
  ∀ (md ma : MReg) (s : State) (g : Nat), s.ready →
    g = Nat.gcd ((Matrix.of fun i j : Fin s.size => s.actM 0 ma i j).det % (s.modulus : Int)).toNat s.modulus → g ≠ 1 →
    2 ≤ g ∧ g ≤ s.modulus ∧
      ((s.modulus : Int) ∣ (Matrix.of fun i j : Fin s.size => s.actM 0 ma i j).det → g = s.modulus) ∧
      exec (.minv md ma) s = .next { s with err := 5#4, errcmd := encode (.minv md ma), errinfo := word g, fault := true }

/-- 40_matrix_ops.md R137: inverting twice gives the residues of the original on the active region. -/
def Obligations.MinvTwiceGivesTheResidues : Prop :=
  ∀ (ma d1 d2 : MReg) (s : State), s.ready → Unimodular s.size (s.actM 0 ma) s.modulus →
    ∃ t u, exec (.minv d1 ma) s = .next t ∧ exec (.minv d2 d1) t = .next u ∧
      ∀ i j : Fin 8, i.val < s.size → j.val < s.size →
        u.elemM d2 i j = ⟨true, word ((s.actM 0 ma i j) % (s.modulus : Int)).toNat⟩

/-- 40_matrix_ops.md R134: `INVCHK` sets `INVERTIBLE` exactly when `MINV` completes, and its `GCD` is the detail of the fault. -/
def Obligations.InvchkAgreesWithMinv : Prop :=
  ∀ (md ma : MReg) (s : State), s.ready →
    ∃ t u, exec (.invchk ma) s = .next t ∧ exec (.minv md ma) s = .next u ∧
      (t.invertible = true ↔ u.fault = false) ∧ (u.fault = true → u.err = 5#4 ∧ u.errinfo = t.gcd)

/-- 41_cipher_ops.md R151: `ENC` completes and encrypts the block with the key in M0, whatever M0 holds, and changes nothing else. -/
def Obligations.EncEncryptsTheBlock : Prop :=
  ∀ (vd vb : VReg) (s : State), s.ready →
    ∃ t, exec (.enc vd vb) s = .next t ∧
      (∀ (k : VReg) (i : Fin 8), t.elemV k i =
        if k = vd ∧ i.val < s.size then
          ⟨true, word ((∑ x ∈ Finset.range s.size, s.actM 0 .m0 i x * s.actV 1 vb x) % (s.modulus : Int)).toNat⟩
        else s.elemV k i) ∧
      { t with vecs := s.vecs } = s

/-- 41_cipher_ops.md R153: `DEC` completes when `INV_VALID = 1` and decrypts the block with the inverse in M1, and changes nothing else;
when `INV_VALID = 0` it takes `INV_NOT_VALID`. -/
def Obligations.DecDecryptsTheBlock : Prop :=
  ∀ (vd vb : VReg) (s : State), s.ready →
    (s.invValid = true → ∃ t, exec (.dec vd vb) s = .next t ∧
      (∀ (k : VReg) (i : Fin 8), t.elemV k i =
        if k = vd ∧ i.val < s.size then
          ⟨true, word ((∑ x ∈ Finset.range s.size, s.actM 0 .m1 i x * s.actV 1 vb x) % (s.modulus : Int)).toNat⟩
        else s.elemV k i) ∧
      { t with vecs := s.vecs } = s) ∧
    (s.invValid = false →
      exec (.dec vd vb) s = .next { s with err := 4#4, errcmd := encode (.dec vd vb), errinfo := 0#32, fault := true })

/-- 41_cipher_ops.md R156: `ENCPAD` with `r < n` completes and encrypts the data and filler of slots `0 .. n-2` with the marker `n - r` in
slot `n - 1`, and changes nothing else; with `r ≥ n` it takes `BAD_OPERAND` with `r` as its detail. -/
def Obligations.EncpadEncryptsThePaddedBlock : Prop :=
  ∀ (vd vb : VReg) (r : Nat) (s : State), s.ready → (Instr.encpad vd vb r).wellFormed = true →
    (r < s.size → ∃ t, exec (.encpad vd vb r) s = .next t ∧
      (∀ (k : VReg) (i : Fin 8), t.elemV k i =
        if k = vd ∧ i.val < s.size then
          ⟨true, word (((∑ x ∈ Finset.range (s.size - 1), s.actM 0 .m0 i x * s.actV 1 vb x)
            + s.actM 0 .m0 i (s.size - 1) * ((s.size - r : Nat) : Int)) % (s.modulus : Int)).toNat⟩
        else s.elemV k i) ∧
      { t with vecs := s.vecs } = s) ∧
    (s.size ≤ r → exec (.encpad vd vb r) s = .next { s with
      err := 3#4, errcmd := encode (.encpad vd vb r), errinfo := word r, fault := true })

/-- 41_cipher_ops.md R160: `DECPAD` with `INV_VALID = 1` decrypts the block; with a last slot `p` of 1 to `n` it completes, writes all
active slots and `PAD`, and changes nothing else; with another `p` it takes `CORRUPT_PADDING` with `p` as its detail; with
`INV_VALID = 0` it takes `INV_NOT_VALID`. -/
def Obligations.DecpadDecryptsAndChecksPadding : Prop :=
  ∀ (vd vb : VReg) (s : State) (x : Nat → Nat), s.ready →
    (∀ i, x i = ((∑ y ∈ Finset.range s.size, s.actM 0 .m1 i y * s.actV 1 vb y) % (s.modulus : Int)).toNat) →
    (s.invValid = true → 1 ≤ x (s.size - 1) → x (s.size - 1) ≤ s.size →
      ∃ t, exec (.decpad vd vb) s = .next t ∧
        (∀ (k : VReg) (i : Fin 8), t.elemV k i =
          if k = vd ∧ i.val < s.size then ⟨true, word (x i)⟩ else s.elemV k i) ∧
        uint t.pad = x (s.size - 1) ∧
        { t with vecs := s.vecs, pad := s.pad } = s) ∧
    (s.invValid = true → x (s.size - 1) < 1 ∨ s.size < x (s.size - 1) →
      exec (.decpad vd vb) s = .next { s with
        err := 6#4, errcmd := encode (.decpad vd vb), errinfo := word (x (s.size - 1)), fault := true }) ∧
    (s.invValid = false →
      exec (.decpad vd vb) s = .next { s with err := 4#4, errcmd := encode (.decpad vd vb), errinfo := 0#32, fault := true })

/-- 41_cipher_ops.md R151: from a state that is ready, `ENC vd, vb` and `MVMUL vd, M0, vb` give the same state. -/
def Obligations.EncEqualsMvmulByKey : Prop :=
  ∀ (vd vb : VReg) (s : State), s.ready → exec (.enc vd vb) s = exec (.mvmul vd .m0 vb) s

/-- Which commands complete without a fault: a `ready` command completes exactly under the condition of its own rule (R137, R153, R156,
R160), and raises a fault otherwise. -/
def Obligations.CompletionCondition : Prop :=
  ∀ (i : Instr) (s : State), s.ready →
    ∃ t, exec i s = .next t ∧ (t.fault = false ↔ s.completes i)

/-! ## Whole-machine rules -/

/-- 10_state.md R28: every event that sets or clears `INV_VALID`, and no other event changes it. -/
def Obligations.InvValidEvents : Prop :=
  ∀ (s t : State) (x : Input) (rest : List Input), s.port = x :: rest → step s = .next t →
    (s.invValid = false → t.invValid = true → x = .write 0x003#9 0x14100000#32 ∧ s.fault = false ∧ t.fault = false) ∧
    (s.invValid = true → t.invValid = false →
      x = .reset ∨ (∃ a w, x = .write a w ∧ (a = 0x001#9 ∨ a = 0x002#9 ∨ (0x100 ≤ a.toNat ∧ a.toNat ≤ 0x17F))) ∨
      (∃ c i, x = .write 0x003#9 c ∧ decode c = .ok i ∧ s.fault = false ∧ t.fault = false ∧
        ((∃ md ma mb, i = .mmul md ma mb ∧ (md = .m0 ∨ md = .m1)) ∨
         (∃ md ma, i = .minv md ma ∧ (md = .m0 ∨ (md = .m1 ∧ ma ≠ .m0)))))) ∧
    (x = .write 0x003#9 0x14100000#32 → s.fault = false → t.fault = false → t.invValid = true) ∧
    (x = .reset → t.invValid = false) ∧
    (∀ a w, x = .write a w → (a = 0x001#9 ∨ a = 0x002#9 ∨ (0x100 ≤ a.toNat ∧ a.toNat ≤ 0x17F)) → t.invValid = false) ∧
    (∀ c md ma mb, x = .write 0x003#9 c → decode c = .ok (.mmul md ma mb) → md = .m0 ∨ md = .m1 →
      s.fault = false → t.fault = false → t.invValid = false) ∧
    (∀ c md ma, x = .write 0x003#9 c → decode c = .ok (.minv md ma) → md = .m0 ∨ (md = .m1 ∧ ma ≠ .m0) →
      s.fault = false → t.fault = false → t.invValid = false)

/-- 10_state.md R30, R33, R34, R39, R40, R41: `INVERTIBLE` and `GCD` are changed by INVCHK only, `DET` by MDET and INVCHK only, `PAD` by
DECPAD only, and no command changes `RADIX` or `N`. -/
def Obligations.ResultRegisterWriters : Prop :=
  ∀ (i : Instr) (s t : State), exec i s = .next t →
    (t.invertible ≠ s.invertible → ∃ ma, i = .invchk ma) ∧
    (t.gcd ≠ s.gcd → ∃ ma, i = .invchk ma) ∧
    (t.det ≠ s.det → ∃ ma, i = .invchk ma ∨ i = .mdet ma) ∧
    (t.pad ≠ s.pad → ∃ vd vb, i = .decpad vd vb) ∧
    t.radix = s.radix ∧ t.n = s.n

/-- 10_state.md R24, the column of writes: a command that does not fault leaves what every address of the window outside the
locations it writes reads as. -/
def Obligations.CommandWindowFrame : Prop :=
  ∀ (i : Instr) (s t : State) (a : Addr), exec i s = .next t → t.fault = s.fault → ¬ writesLoc s.size i (locate a) →
    t.portRead a = s.portRead a

/-- 00_scope.md R17: the results of a command do not depend on any element outside the active region: two states that agree on all
but those elements agree so after every command. -/
def Obligations.InactiveElementsNotRead : Prop :=
  ∀ (i : Instr) (s s' t : State),
    { s' with mats := s.mats, vecs := s.vecs } = s →
    (∀ k, ∀ r c : Fin 8, r.val < s.size → c.val < s.size → s'.elemM k r c = s.elemM k r c) →
    (∀ k, ∀ c : Fin 8, c.val < s.size → s'.elemV k c = s.elemV k c) →
    exec i s = .next t →
    ∃ t', exec i s' = .next t' ∧ { t' with mats := t.mats, vecs := t.vecs } = t ∧
      (∀ k, ∀ r c : Fin 8, r.val < s.size → c.val < s.size → t'.elemM k r c = t.elemM k r c) ∧
      (∀ k, ∀ c : Fin 8, c.val < s.size → t'.elemV k c = t.elemV k c)

/-- 70_reset_and_hazards.md R242: a command whose source registers are written on the active region (for ENCPAD, slots `0 .. n-2` of
its vector) gives a defined result: it does not depend on the free values, so the transaction it runs in makes no difference. -/
def Obligations.WrittenSourcesGiveDefinedResults : Prop :=
  ∀ (i : Instr) (s t : State) (x : Nat), s.sourcesWritten i →
    exec i s = .next t → exec i { s with txn := x } = .next { t with txn := x }

/-- 41_cipher_ops.md R156, 93_implementation_defined.md U13: `ENCPAD` does not read slot `n - 1` of its source. -/
def Obligations.EncpadIgnoresTheLastSlot : Prop :=
  ∀ (vd vb : VReg) (r : Nat) (s t : State) (j : Fin 8) (w : Word), j.val + 1 = s.size →
    exec (.encpad vd vb r) s = .next t →
    ∃ t', exec (.encpad vd vb r) (s.setElemV vb j w) = .next t' ∧
      (s.ready → r < s.size → ∀ i : Fin 8, i.val < s.size → t'.elemV vd i = t.elemV vd i) ∧
      { t' with vecs := t.vecs } = t

/-- The invariant of the block holds at reset (10_state.md R44); that an unwritten element has one form is the model's own (log 1). -/
def Obligations.InvariantAtReset : Prop := State.reset.Inv

/-- The invariant is kept by every step from every state that meets it: the fault record is coherent (10_state.md R36), `INV_VALID = 1`
means that M1 is the inverse of a written M0 for the present `RADIX` and `N` (R29, with R242's premise: log 9), the result
registers are in range (R39 to R41), and unwritten elements are in canonical form (log 1). -/
def Obligations.InvariantKeptByEveryStep : Prop :=
  ∀ s t : State, s.Inv → step s = .next t → t.Inv

/-! ## The cipher -/

/-- 41_cipher_ops.md R154: with `INV_VALID = 1` and a written key, encrypting a block and decrypting the result gives the residues of
the block, and so does decrypting and then encrypting, for every choice of registers. The written key is the premise of log 9. -/
def Obligations.BlockRoundTrip : Prop :=
  ∀ (s : State) (a b c : VReg), s.Inv → s.ready → s.invValid = true → s.writtenM .m0 s.size →
    (∃ t u, exec (.enc b a) s = .next t ∧ exec (.dec c b) t = .next u ∧
      ∀ j : Fin 8, j.val < s.size → u.elemV c j = ⟨true, word ((s.actV 1 a j) % (s.modulus : Int)).toNat⟩) ∧
    (∃ t u, exec (.dec b a) s = .next t ∧ exec (.enc c b) t = .next u ∧
      ∀ j : Fin 8, j.val < s.size → u.elemV c j = ⟨true, word ((s.actV 1 a j) % (s.modulus : Int)).toNat⟩)

/-- 41_cipher_ops.md R159: `ENCPAD` and then `DECPAD` recovers the pad count `n - r` and the residues of the data and filler exactly
when the marker is below the radix; otherwise it finds `mod(n - r, m)`, a wrong count or, when that is 0, `CORRUPT_PADDING`. That
the key is written is the model's premise (log 9). -/
def Obligations.PaddingRecovered : Prop :=
  ∀ (s : State) (a b c : VReg) (r : Nat), s.Inv → s.ready → s.invValid = true → s.writtenM .m0 s.size → r < s.size →
    ∃ t u, exec (.encpad b a r) s = .next t ∧ exec (.decpad c b) t = .next u ∧
      (s.size - r < s.modulus →
        u.fault = false ∧ uint u.pad = s.size - r ∧
        (∀ j : Fin 8, j.val + 1 < s.size → u.elemV c j = ⟨true, word ((s.actV 1 a j) % (s.modulus : Int)).toNat⟩) ∧
        (∀ j : Fin 8, j.val + 1 = s.size → u.elemV c j = ⟨true, word (s.size - r)⟩)) ∧
      (s.modulus ≤ s.size - r →
        ((s.size - r) % s.modulus ≠ 0 →
          u.fault = false ∧ uint u.pad = (s.size - r) % s.modulus ∧ uint u.pad ≠ s.size - r) ∧
        ((s.size - r) % s.modulus = 0 → u.fault = true ∧ u.err = 6#4 ∧ u.errinfo = 0#32))

/-! ## Arithmetic -/

/-- 40_matrix_ops.md R123: the laws of `matmul` and `matvec`: reduction, association, identity. -/
def Obligations.ProductLaws : Prop :=
  ∀ (n m : Nat), 2 ≤ m →
    (∀ (A A' : IMat) (v v' : IVec),
      (∀ i j, i < n → j < n → (m : Int) ∣ A i j - A' i j) → (∀ j, j < n → (m : Int) ∣ v j - v' j) →
      ∀ i, i < n → matvec n A v m i = matvec n A' v' m i) ∧
    (∀ (A A' B B' : IMat),
      (∀ i j, i < n → j < n → (m : Int) ∣ A i j - A' i j) → (∀ i j, i < n → j < n → (m : Int) ∣ B i j - B' i j) →
      ∀ i j, i < n → j < n → matmul n A B m i j = matmul n A' B' m i j) ∧
    (∀ (A B : IMat) (v : IVec) (i : Nat), i < n →
      matvec n (fun r c => (matmul n A B m r c : Int)) v m i = matvec n A (fun j => (matvec n B v m j : Int)) m i) ∧
    (∀ (v : IVec) (i : Nat), i < n → matvec n (fun r c => if r = c then 1 else 0) v m i = residue (v i) m) ∧
    (∀ (A : IMat) (i j : Nat), i < n → j < n →
      matmul n A (fun r c => if r = c then 1 else 0) m i j = residue (A i j) m)

/-- 40_matrix_ops.md R131: the laws of the determinant: congruent elements give congruent determinants; the determinant of a product;
of the identity; the effect of the three row operations; expansion along any row or column. -/
def Obligations.DeterminantLaws : Prop :=
  ∀ (n m : Nat) (A B : IMat),
    ((∀ i j, i < n → j < n → (m : Int) ∣ A i j - B i j) → (m : Int) ∣ detZ n A - detZ n B) ∧
    detZ n (fun i j => ∑ k ∈ Finset.range n, A i k * B k j) = detZ n A * detZ n B ∧
    detZ n (fun i j => if i = j then 1 else 0) = 1 ∧
    (∀ a b, a < n → b < n → a ≠ b →
      detZ n (fun i j => if i = a then A b j else if i = b then A a j else A i j) = - detZ n A) ∧
    (∀ (a b : Nat) (q : Int), a < n → b < n → a ≠ b →
      detZ n (fun i j => if i = a then A a j + q * A b j else A i j) = detZ n A) ∧
    (∀ (a : Nat) (u : Int), a < n → detZ n (fun i j => if i = a then u * A a j else A i j) = u * detZ n A) ∧
    (∀ a, a ≤ n → detZ (n + 1) A = ∑ j ∈ Finset.range (n + 1), (-1) ^ (a + j) * A a j * detZ n (minor A a j)) ∧
    (∀ b, b ≤ n → detZ (n + 1) A = ∑ i ∈ Finset.range (n + 1), (-1) ^ (i + b) * A i b * detZ n (minor A i b))

/-- 00_scope.md R13: `egcd` has its defining equations and returns the gcd with its coefficients; where `mod(d, m)` is coprime with
`m`, `inv_m(d)` is `mod(x, m)` of them and the unique `x` in 1 to `m - 1` with `mod(d · x, m) = 1`; elsewhere no `x` is. -/
def Obligations.ModularInverseDefined : Prop :=
  (∀ a : Nat, egcd a 0 = (a, 1, 0)) ∧
  (∀ a b : Nat, 0 < b → egcd a b = ((egcd b (a % b)).1, (egcd b (a % b)).2.2,
    (egcd b (a % b)).2.1 - ((a / b : Nat) : Int) * (egcd b (a % b)).2.2)) ∧
  (∀ a b : Nat, (egcd a b).1 = Nat.gcd a b ∧
    (a : Int) * (egcd a b).2.1 + (b : Int) * (egcd a b).2.2 = (Nat.gcd a b : Int)) ∧
  (∀ (m : Nat) (d : Int), 2 ≤ m → Nat.gcd (residue d m) m = 1 →
    invMod m d = residue (egcd (residue d m) m).2.1 m ∧
    1 ≤ invMod m d ∧ invMod m d ≤ m - 1 ∧ residue (d * (invMod m d : Int)) m = 1 ∧
    ∀ x : Nat, 1 ≤ x → x ≤ m - 1 → residue (d * (x : Int)) m = 1 → x = invMod m d) ∧
  (∀ (m : Nat) (d : Int), 2 ≤ m → Nat.gcd (residue d m) m ≠ 1 → ∀ x : Int, residue (d * x) m ≠ 1)

/-- 00_scope.md R15: a matrix is invertible modulo `m` exactly when the gcd of its determinant's residue with `m` is 1; the inverse
with entries in 0 to `m - 1` is unique and is given by the adjugate formula, which for `n = 1` is `inv_m(A[0][0])`. -/
def Obligations.InvertibleIffDeterminantUnit : Prop :=
  ∀ (n m : Nat) (A : IMat), 1 ≤ n → 2 ≤ m →
    ((∃ B : IMat, IdentityProduct n A B m ∧ IdentityProduct n B A m) ↔ Nat.gcd (residue (detZ n A) m) m = 1) ∧
    (∀ B : Nat → Nat → Nat, (∀ i j, i < n → j < n → B i j < m) →
      IdentityProduct n A (fun i j => (B i j : Int)) m → IdentityProduct n (fun i j => (B i j : Int)) A m →
      ∀ i j, i < n → j < n →
        B i j = residue ((invMod m (detZ n A) : Int) * (-1) ^ (i + j) * detZ (n - 1) (minor A j i)) m) ∧
    (n = 1 → ∀ B : Nat → Nat → Nat, B 0 0 < m → IdentityProduct n A (fun i j => (B i j : Int)) m →
      B 0 0 = invMod m (A 0 0))

/-- 40_matrix_ops.md R140: reference algorithm G agrees with the adjugate form (R139) on every verdict and every inverse. -/
def Obligations.GaussJordanAgreesWithAdjugate : Prop :=
  ∀ (n m : Nat) (A : IMat), 2 ≤ m →
    (Unimodular n A m → ∃ B, invGauss n A m = some B ∧ ∀ i j, i < n → j < n → B i j = invMat n A m i j) ∧
    (¬ Unimodular n A m → invGauss n A m = none)

/-! ## The bridge -/

/-- 20_memory.md R69, R70: behind a byte-addressed bus the word at byte offset `4 a` is word `a`, little-endian, and an access that is
not a naturally aligned 32-bit access is not forwarded. -/
def Obligations.BridgeForwardsAlignedWords : Prop :=
  (∀ (a : Addr) (w : Word),
    forwarded ⟨4 * a.toNat, 4, none⟩ = some (.read a) ∧
    forwarded ⟨4 * a.toNat, 4, some (bytesOfWord w)⟩ = some (.write a w)) ∧
  (∀ b : BusAccess, b.offset % 4 ≠ 0 ∨ b.width ≠ 4 → forwarded b = none)
end

