-- ==== Sys2Proof/Laws/Arith.lean ====
section
/-! SUPPORT. The arithmetic of the spec against Mathlib's: sums, residues in `ZMod m`, the determinant, the gcd and the extended
Euclid, and the adjugate inverse (00_scope.md R10 to R15). -/

namespace Sys2Proof.Machine

open Finset

/-- The active region as a Mathlib matrix. -/
def toMat (n : Nat) (A : IMat) : Matrix (Fin n) (Fin n) Int := Matrix.of fun i j => A i j

/-- The active region modulo `m`. -/
def toZ (n m : Nat) (A : IMat) : Matrix (Fin n) (Fin n) (ZMod m) := Matrix.of fun i j => ((A i j : Int) : ZMod m)

theorem sumTo_eq_sum_range (n : Nat) (f : Nat → Int) : sumTo n f = ∑ j ∈ range n, f j := by
  induction n with
  | zero => rfl
  | succ n ih => rw [sumTo, ih, sum_range_succ]

theorem sumTo_eq_sum (n : Nat) (f : Nat → Int) : sumTo n f = ∑ j : Fin n, f j := by
  rw [sumTo_eq_sum_range, sum_range]

theorem sumTo_congr {n : Nat} {f g : Nat → Int} (h : ∀ j, j < n → f j = g j) : sumTo n f = sumTo n g := by
  rw [sumTo_eq_sum_range, sumTo_eq_sum_range]
  exact sum_congr rfl fun j hj => h j (mem_range.mp hj)

theorem altSign_eq_pow (j : Nat) : altSign j = (-1) ^ j := by
  unfold altSign
  split
  · rw [Even.neg_one_pow (Nat.even_iff.mpr ‹_›)]
  · rw [Odd.neg_one_pow (Nat.odd_iff.mpr (by omega))]

/-! Residues -/

theorem coe_residue (a : Int) {m : Nat} (hm : 0 < m) : ((residue a m : Nat) : Int) = a % m := by
  unfold residue
  exact Int.toNat_of_nonneg (Int.emod_nonneg a (by omega))

theorem residue_lt (a : Int) {m : Nat} (hm : 0 < m) : residue a m < m := by
  have h := coe_residue a hm
  have := Int.emod_lt_of_pos a (show (0 : Int) < m by omega)
  omega

/-- `residue` is the projection to `ZMod m`. -/
theorem residue_cast (a : Int) {m : Nat} (hm : 0 < m) : ((residue a m : Nat) : ZMod m) = (a : ZMod m) := by
  have h : (((residue a m : Nat) : Int) : ZMod m) = (a : ZMod m) := by
    rw [coe_residue a hm, ZMod.intCast_mod]
  simpa using h

theorem residue_eq_iff {a b : Int} {m : Nat} (hm : 0 < m) :
    residue a m = residue b m ↔ (a : ZMod m) = (b : ZMod m) := by
  constructor
  · intro h
    rw [← residue_cast a hm, h, residue_cast b hm]
  · intro h
    rw [ZMod.intCast_eq_intCast_iff'] at h
    unfold residue
    rw [h]

theorem residue_of_lt {x m : Nat} (h : x < m) : residue (x : Int) m = x := by
  unfold residue
  rw [Int.emod_eq_of_lt (by omega) (by omega)]
  simp

theorem residue_eq_one_iff {a : Int} {m : Nat} (hm : 2 ≤ m) : residue a m = 1 ↔ (a : ZMod m) = 1 := by
  have h := residue_eq_iff (a := a) (b := ((1 : Nat) : Int)) (show 0 < m by omega)
  rw [residue_of_lt (show 1 < m by omega)] at h
  simpa using h

/-! The determinant -/

theorem toMat_minor (n : Nat) (A : IMat) (i j : Fin (n + 1)) :
    toMat n (minor A i j) = (toMat (n + 1) A).submatrix i.succAbove j.succAbove := by
  ext r c
  simp only [toMat, minor, Matrix.of_apply, Matrix.submatrix_apply]
  congr 1 <;> (simp only [Fin.succAbove, Fin.lt_def, Fin.val_castSucc]; split <;> simp)

/-- The row-0 expansion of R14 is the determinant. -/
theorem detZ_eq_det (n : Nat) (A : IMat) : detZ n A = (toMat n A).det := by
  induction n generalizing A with
  | zero => simp [detZ]
  | succ n ih =>
    rw [detZ, sumTo_eq_sum, Matrix.det_succ_row_zero]
    refine sum_congr rfl fun j _ => ?_
    rw [ih, altSign_eq_pow]
    have h := toMat_minor n A 0 j
    simp only [Fin.succAbove_zero] at h
    rw [← h]
    rfl

theorem toZ_eq_map (n m : Nat) (A : IMat) : toZ n m A = (toMat n A).map (Int.castRingHom (ZMod m)) := by
  ext i j
  simp [toZ, toMat]

theorem detZ_cast (n m : Nat) (A : IMat) : ((detZ n A : Int) : ZMod m) = (toZ n m A).det := by
  rw [detZ_eq_det, toZ_eq_map]
  have h := RingHom.map_det (Int.castRingHom (ZMod m)) (toMat n A)
  simpa [RingHom.mapMatrix_apply] using h

/-! The gcd and the modular inverse -/

/-- Euclid's algorithm as R12 states it. -/
theorem gcdOf_euclid (a b : Nat) : gcdOf a b = if b = 0 then a else gcdOf b (a % b) := by
  unfold gcdOf
  split
  · subst_vars
    exact Nat.gcd_zero_right a
  · rw [Nat.gcd_comm a b, Nat.gcd_rec, Nat.gcd_comm]

/-- `egcd(a, b) = (g, x, y)` with `g = gcd(a, b)` and `a x + b y = g` (R13), when the bound covers the steps. -/
theorem egcdSteps_spec (k a b : Nat) (h : b ≤ k) :
    (egcdSteps k a b).1 = Nat.gcd a b ∧
      (a : Int) * (egcdSteps k a b).2.1 + (b : Int) * (egcdSteps k a b).2.2 = (Nat.gcd a b : Nat) := by
  induction k generalizing a b with
  | zero =>
    have : b = 0 := by omega
    subst this
    simp [egcdSteps]
  | succ k ih =>
    by_cases hb : b = 0
    · subst hb
      simp [egcdSteps]
    · have hlt : a % b < b := Nat.mod_lt _ (Nat.pos_of_ne_zero hb)
      obtain ⟨h1, h2⟩ := ih b (a % b) (by omega)
      have hg : Nat.gcd b (a % b) = Nat.gcd a b := by
        rw [Nat.gcd_comm a b, Nat.gcd_rec b a, Nat.gcd_comm]
      rw [hg] at h1 h2
      have hdm : (a : Int) = b * ((a / b : Nat) : Int) + ((a % b : Nat) : Int) := by
        exact_mod_cast (Nat.div_add_mod a b).symm
      simp only [egcdSteps, if_neg hb]
      refine ⟨h1, ?_⟩
      rw [← h2]
      generalize (egcdSteps k b (a % b)).2.1 = x
      generalize (egcdSteps k b (a % b)).2.2 = y
      rw [show (a : Int) * y = (b * ((a / b : Nat) : Int) + ((a % b : Nat) : Int)) * y by rw [← hdm]]
      ring

theorem egcd_spec (a b : Nat) :
    (egcd a b).1 = Nat.gcd a b ∧ (a : Int) * (egcd a b).2.1 + (b : Int) * (egcd a b).2.2 = (Nat.gcd a b : Nat) :=
  egcdSteps_spec b a b le_rfl

theorem invMod_lt {m : Nat} (hm : 0 < m) (d : Int) : invMod m d < m := residue_lt _ hm

/-- `inv_m(d)` depends on the residue of `d` alone. -/
theorem invMod_residue {m : Nat} (hm : 0 < m) (d : Int) : invMod m ((residue d m : Nat) : Int) = invMod m d := by
  unfold invMod
  rw [residue_of_lt (residue_lt d hm)]

/-- `inv_m(d)` is the inverse of `d` in `ZMod m` when `d` is a unit (R13). -/
theorem invMod_mul {m : Nat} (hm : 0 < m) {d : Int} (h : gcdOf (residue d m) m = 1) :
    ((invMod m d : Nat) : ZMod m) * (d : ZMod m) = 1 := by
  have hb := (egcd_spec (residue d m) m).2
  rw [show Nat.gcd (residue d m) m = 1 from h] at hb
  have hz := congrArg (fun z : Int => (z : ZMod m)) hb
  simp only [Int.cast_add, Int.cast_mul, Int.cast_natCast, CharP.cast_eq_zero, zero_mul, add_zero, Nat.cast_one] at hz
  rw [residue_cast d hm] at hz
  unfold invMod
  rw [residue_cast _ hm, mul_comm]
  simpa using hz

/-- `mod(d · inv_m(d), m) = 1` (R13). -/
theorem invMod_spec {m : Nat} (hm : 2 ≤ m) {d : Int} (h : gcdOf (residue d m) m = 1) :
    residue (d * (invMod m d : Nat)) m = 1 := by
  rw [residue_eq_one_iff hm]
  push_cast
  rw [mul_comm]
  exact invMod_mul (by omega) h

/-- A residue is coprime with `m` exactly when it is a unit of `ZMod m`. -/
theorem isUnit_iff_gcdOf {m : Nat} (hm : 0 < m) (d : Int) : IsUnit (d : ZMod m) ↔ gcdOf (residue d m) m = 1 := by
  rw [← residue_cast d hm, ZMod.isUnit_iff_coprime]
  rfl

/-! Products -/

theorem matvec_lt (n : Nat) (A : IMat) (v : IVec) {m : Nat} (hm : 0 < m) (i : Nat) : matvec n A v m i < m := residue_lt _ hm

theorem matmul_lt (n : Nat) (A B : IMat) {m : Nat} (hm : 0 < m) (i j : Nat) : matmul n A B m i j < m := residue_lt _ hm

/-- `matvec` is the product of a matrix and a vector over `ZMod m` (40_matrix_ops.md R121). -/
theorem matvec_cast (n : Nat) (A : IMat) (v : IVec) {m : Nat} (hm : 0 < m) (i : Fin n) :
    ((matvec n A v m i : Nat) : ZMod m) = (toZ n m A).mulVec (fun j => ((v j : Int) : ZMod m)) i := by
  rw [matvec, residue_cast _ hm, sumTo_eq_sum]
  simp [Matrix.mulVec, dotProduct, toZ]

/-- `matmul` is the matrix product over `ZMod m` (R121). -/
theorem matmul_cast (n : Nat) (A B : IMat) {m : Nat} (hm : 0 < m) (i j : Fin n) :
    ((matmul n A B m i j : Nat) : ZMod m) = (toZ n m A * toZ n m B) i j := by
  rw [matmul, residue_cast _ hm, sumTo_eq_sum]
  simp [Matrix.mul_apply, toZ]

/-- Two residues with one image in `ZMod m` are equal. -/
theorem eq_of_cast_eq {x y m : Nat} (hx : x < m) (hy : y < m) (h : (x : ZMod m) = (y : ZMod m)) : x = y := by
  have := (ZMod.natCast_eq_natCast_iff' x y m).mp h
  rwa [Nat.mod_eq_of_lt hx, Nat.mod_eq_of_lt hy] at this

theorem matvec_congr {n : Nat} {A A' : IMat} {v v' : IVec} {m i : Nat}
    (hA : ∀ j, j < n → A i j = A' i j) (hv : ∀ j, j < n → v j = v' j) :
    matvec n A v m i = matvec n A' v' m i := by
  unfold matvec
  rw [sumTo_congr fun j hj => by rw [hA j hj, hv j hj]]

theorem matmul_congr {n : Nat} {A A' B B' : IMat} {m i j : Nat}
    (hA : ∀ k, k < n → A i k = A' i k) (hB : ∀ k, k < n → B k j = B' k j) :
    matmul n A B m i j = matmul n A' B' m i j := by
  unfold matmul
  rw [sumTo_congr fun k hk => by rw [hA k hk, hB k hk]]

/-! The adjugate inverse -/

/-- The adjugate formula of R15 is `det⁻¹ • adjugate` over `ZMod m`. -/
theorem invMat_cast (n : Nat) (A : IMat) {m : Nat} (hm : 0 < m) (i j : Fin n) :
    ((invMat n A m i j : Nat) : ZMod m) = ((invMod m (detZ n A) : Nat) : ZMod m) * (toZ n m A).adjugate i j := by
  obtain ⟨k, rfl⟩ : ∃ k, n = k + 1 := ⟨n - 1, by have := i.isLt; omega⟩
  rw [invMat, adjugateBy, residue_cast _ hm, Matrix.adjugate_fin_succ_eq_det_submatrix]
  have hminor : toZ k m (minor A j i) = (toZ (k + 1) m A).submatrix j.succAbove i.succAbove := by
    rw [toZ_eq_map, toMat_minor, toZ_eq_map]
    rfl
  push_cast
  rw [detZ_cast, hminor, altSign_eq_pow, add_comm (i : Nat)]
  push_cast
  ring

theorem invMat_lt (n : Nat) (A : IMat) {m : Nat} (hm : 0 < m) (i j : Nat) : invMat n A m i j < m := residue_lt _ hm

/-- The table of `inv(A, m)` as integers. -/
theorem toZ_invMat (n : Nat) (A : IMat) {m : Nat} (hm : 0 < m) :
    toZ n m (fun i j => (invMat n A m i j : Int)) = ((invMod m (detZ n A) : Nat) : ZMod m) • (toZ n m A).adjugate := by
  ext i j
  rw [Matrix.smul_apply, smul_eq_mul, ← invMat_cast n A hm]
  simp [toZ]

/-- `inv(A, m)` is the two-sided inverse over `ZMod m` when the determinant is a unit (R15). -/
theorem toZ_mul_invMat {n m : Nat} {A : IMat} (hm : 0 < m) (h : gcdOf (residue (detZ n A) m) m = 1) :
    toZ n m A * toZ n m (fun i j => (invMat n A m i j : Int)) = 1 ∧
      toZ n m (fun i j => (invMat n A m i j : Int)) * toZ n m A = 1 := by
  have hd : ((invMod m (detZ n A) : Nat) : ZMod m) * (toZ n m A).det = 1 := by
    rw [← detZ_cast]
    exact invMod_mul hm h
  rw [toZ_invMat n A hm]
  constructor
  · rw [Matrix.mul_smul, Matrix.mul_adjugate, smul_smul, hd, one_smul]
  · rw [Matrix.smul_mul, Matrix.adjugate_mul, smul_smul, hd, one_smul]

end Sys2Proof.Machine
end

