-- ==== Sys2Proof/Laws/Decode.lean ====
section
/-! SUPPORT. A command word as its six fields (30_encoding.md R91), and what a mask and a match say about them (R95). -/

namespace Sys2Proof

theorem append_eq_append {a b : Nat} {x x' : BitVec a} {y y' : BitVec b} : x ++ y = x' ++ y' ↔ x = x' ∧ y = y' := by
  constructor
  · intro h
    have h1 := congrArg (fun z => BitVec.extractLsb' b a z) h
    have h2 := congrArg (fun z => BitVec.extractLsb' 0 b z) h
    simpa [BitVec.extractLsb'_append_eq_left, BitVec.extractLsb'_append_eq_right] using And.intro h1 h2
  · rintro ⟨rfl, rfl⟩
    rfl

/-- The field layout of R91 with a given `Z`. -/
abbrev layFields (op : BitVec 8) (rd ra rb z : BitVec 4) (imm : BitVec 8) : Word := op ++ rd ++ ra ++ rb ++ z ++ imm

/-- Every word is its fields. -/
theorem word_eq_fields (c : Word) : c = layFields (c.extractLsb' 24 8) (c.extractLsb' 20 4) (c.extractLsb' 16 4)
    (c.extractLsb' 12 4) (c.extractLsb' 8 4) (c.extractLsb' 0 8) := by
  apply BitVec.eq_of_getLsbD_eq
  intro i hi
  simp only [layFields, BitVec.getLsbD_append, BitVec.getLsbD_extractLsb']
  interval_cases i <;> rfl

theorem layFields_inj {op op' : BitVec 8} {rd ra rb z rd' ra' rb' z' : BitVec 4} {imm imm' : BitVec 8} :
    layFields op rd ra rb z imm = layFields op' rd' ra' rb' z' imm' ↔
      op = op' ∧ rd = rd' ∧ ra = ra' ∧ rb = rb' ∧ z = z' ∧ imm = imm' := by
  have h : (op ++ rd ++ ra ++ rb ++ z ++ imm : BitVec (8 + 4 + 4 + 4 + 4 + 8)) = op' ++ rd' ++ ra' ++ rb' ++ z' ++ imm' ↔
      op = op' ∧ rd = rd' ∧ ra = ra' ∧ rb = rb' ∧ z = z' ∧ imm = imm' := by
    simp only [append_eq_append, and_assoc]
  exact h

theorem layFields_and (op op' : BitVec 8) (rd ra rb z rd' ra' rb' z' : BitVec 4) (imm imm' : BitVec 8) :
    layFields op rd ra rb z imm &&& layFields op' rd' ra' rb' z' imm' =
      layFields (op &&& op') (rd &&& rd') (ra &&& ra') (rb &&& rb') (z &&& z') (imm &&& imm') := by
  have h : (op ++ rd ++ ra ++ rb ++ z ++ imm : BitVec (8 + 4 + 4 + 4 + 4 + 8)) &&& (op' ++ rd' ++ ra' ++ rb' ++ z' ++ imm') =
      (op &&& op') ++ (rd &&& rd') ++ (ra &&& ra') ++ (rb &&& rb') ++ (z &&& z') ++ (imm &&& imm') := by
    simp only [BitVec.and_append]
  exact h

/-- The fields of a word laid out from fields. -/
theorem extract_layFields (op : BitVec 8) (rd ra rb z : BitVec 4) (imm : BitVec 8) :
    (layFields op rd ra rb z imm).extractLsb' 24 8 = op ∧ (layFields op rd ra rb z imm).extractLsb' 20 4 = rd ∧
    (layFields op rd ra rb z imm).extractLsb' 16 4 = ra ∧ (layFields op rd ra rb z imm).extractLsb' 12 4 = rb ∧
    (layFields op rd ra rb z imm).extractLsb' 8 4 = z ∧ (layFields op rd ra rb z imm).extractLsb' 0 8 = imm := by
  have h := (layFields_inj.mp (word_eq_fields (layFields op rd ra rb z imm)))
  exact ⟨h.1.symm, h.2.1.symm, h.2.2.1.symm, h.2.2.2.1.symm, h.2.2.2.2.1.symm, h.2.2.2.2.2.symm⟩

/-- A mask and a match, field by field. -/
theorem masked_iff {mask val : Word} {mop vop : BitVec 8} {mrd mra mrb mz vrd vra vrb vz : BitVec 4} {mimm vimm : BitVec 8}
    (hm : mask = layFields mop mrd mra mrb mz mimm) (hv : val = layFields vop vrd vra vrb vz vimm) (c : Word) :
    c &&& mask = val ↔
      c.extractLsb' 24 8 &&& mop = vop ∧ c.extractLsb' 20 4 &&& mrd = vrd ∧ c.extractLsb' 16 4 &&& mra = vra ∧
      c.extractLsb' 12 4 &&& mrb = vrb ∧ c.extractLsb' 8 4 &&& mz = vz ∧ c.extractLsb' 0 8 &&& mimm = vimm := by
  conv_lhs => rw [word_eq_fields c, hm, hv, layFields_and]
  exact layFields_inj

/-- The upper two bits of a register field are 0 exactly when it holds 0 to 3 (R92). -/
theorem regField_iff : ∀ x : BitVec 4, x &&& 0xC#4 = 0#4 ↔ x.toNat < 4 := by decide

theorem MReg.num_lt (k : MReg) : k.num < 4 := by cases k <;> decide

theorem VReg.num_lt (k : VReg) : k.num < 4 := by cases k <;> decide

theorem MReg.num_inj {k k' : MReg} : k.num = k'.num ↔ k = k' := by cases k <;> cases k' <;> decide

theorem VReg.num_inj {k k' : VReg} : k.num = k'.num ↔ k = k' := by cases k <;> cases k' <;> decide

theorem MReg.num_ofBits : ∀ b : BitVec 2, (MReg.ofBits b).num = b.toNat := by decide

theorem VReg.num_ofBits : ∀ b : BitVec 2, (VReg.ofBits b).num = b.toNat := by decide

theorem MReg.ofBits_num (k : MReg) : MReg.ofBits (BitVec.ofNat 2 k.num) = k := by cases k <;> decide

theorem VReg.ofBits_num (k : VReg) : VReg.ofBits (BitVec.ofNat 2 k.num) = k := by cases k <;> decide

/-- The low two bits of a register field that holds 0 to 3 are its number. -/
theorem lowBits_toNat : ∀ x : BitVec 4, x.toNat < 4 → (x.extractLsb' 0 2).toNat = x.toNat := by decide

theorem fieldRd_eq (c : Word) : fieldRd c = (c.extractLsb' 20 4).extractLsb' 0 2 := by
  apply BitVec.eq_of_getLsbD_eq
  intro i hi
  simp only [fieldRd, BitVec.getLsbD_extractLsb']
  interval_cases i <;> rfl

theorem fieldRa_eq (c : Word) : fieldRa c = (c.extractLsb' 16 4).extractLsb' 0 2 := by
  apply BitVec.eq_of_getLsbD_eq
  intro i hi
  simp only [fieldRa, BitVec.getLsbD_extractLsb']
  interval_cases i <;> rfl

theorem fieldRb_eq (c : Word) : fieldRb c = (c.extractLsb' 12 4).extractLsb' 0 2 := by
  apply BitVec.eq_of_getLsbD_eq
  intro i hi
  simp only [fieldRb, BitVec.getLsbD_extractLsb']
  interval_cases i <;> rfl

/-! The rows -/

theorem and_ones8 : ∀ x : BitVec 8, x &&& 0xFF#8 = x := by decide

theorem and_ones4 : ∀ x : BitVec 4, x &&& 0xF#4 = x := by decide

/-- A register field of a command word: used, it holds 0 to 3; unused, it is 0 (R92). -/
def fieldOk (used : Bool) (x : BitVec 4) : Prop := if used then x.toNat < 4 else x = 0#4

/-- The condition of a row of R95 on the fields of a word. -/
def RowHolds (op : BitVec 8) (useRd useRa useRb useImm : Bool) (c : Word) : Prop :=
  c.extractLsb' 24 8 = op ∧ fieldOk useRd (c.extractLsb' 20 4) ∧ fieldOk useRa (c.extractLsb' 16 4) ∧
    fieldOk useRb (c.extractLsb' 12 4) ∧ c.extractLsb' 8 4 = 0#4 ∧ (useImm = false → c.extractLsb' 0 8 = 0#8)

theorem row_nop (c : Word) : c &&& 0xFFFFFFFF#32 = 0x01000000#32 ↔ RowHolds 0x01#8 false false false false c := by
  rw [masked_iff (mop := 0xFF#8) (mrd := 0xF#4) (mra := 0xF#4) (mrb := 0xF#4) (mz := 0xF#4) (mimm := 0xFF#8)
    (vop := 0x01#8) (vrd := 0#4) (vra := 0#4) (vrb := 0#4) (vz := 0#4) (vimm := 0#8) (by decide) (by decide)]
  simp [and_ones8, and_ones4, RowHolds, fieldOk]

theorem row_dab {op : BitVec 8} {v : Word} (hv : v = layFields op 0#4 0#4 0#4 0#4 0#8) (c : Word) :
    c &&& 0xFFCCCFFF#32 = v ↔ RowHolds op true true true false c := by
  rw [masked_iff (mop := 0xFF#8) (mrd := 0xC#4) (mra := 0xC#4) (mrb := 0xC#4) (mz := 0xF#4) (mimm := 0xFF#8) (by decide) hv]
  simp [and_ones8, and_ones4, RowHolds, fieldOk, regField_iff]

theorem row_a {op : BitVec 8} {v : Word} (hv : v = layFields op 0#4 0#4 0#4 0#4 0#8) (c : Word) :
    c &&& 0xFFFCFFFF#32 = v ↔ RowHolds op false true false false c := by
  rw [masked_iff (mop := 0xFF#8) (mrd := 0xF#4) (mra := 0xC#4) (mrb := 0xF#4) (mz := 0xF#4) (mimm := 0xFF#8) (by decide) hv]
  simp [and_ones8, and_ones4, RowHolds, fieldOk, regField_iff]

theorem row_da {op : BitVec 8} {v : Word} (hv : v = layFields op 0#4 0#4 0#4 0#4 0#8) (c : Word) :
    c &&& 0xFFCCFFFF#32 = v ↔ RowHolds op true true false false c := by
  rw [masked_iff (mop := 0xFF#8) (mrd := 0xC#4) (mra := 0xC#4) (mrb := 0xF#4) (mz := 0xF#4) (mimm := 0xFF#8) (by decide) hv]
  simp [and_ones8, and_ones4, RowHolds, fieldOk, regField_iff]

theorem row_db {op : BitVec 8} {v : Word} (hv : v = layFields op 0#4 0#4 0#4 0#4 0#8) (c : Word) :
    c &&& 0xFFCFCFFF#32 = v ↔ RowHolds op true false true false c := by
  rw [masked_iff (mop := 0xFF#8) (mrd := 0xC#4) (mra := 0xF#4) (mrb := 0xC#4) (mz := 0xF#4) (mimm := 0xFF#8) (by decide) hv]
  simp [and_ones8, and_ones4, RowHolds, fieldOk, regField_iff]

theorem row_dbi {op : BitVec 8} {v : Word} (hv : v = layFields op 0#4 0#4 0#4 0#4 0#8) (c : Word) :
    c &&& 0xFFCFCF00#32 = v ↔ RowHolds op true false true true c := by
  rw [masked_iff (mop := 0xFF#8) (mrd := 0xC#4) (mra := 0xF#4) (mrb := 0xC#4) (mz := 0xF#4) (mimm := 0x00#8) (by decide) hv]
  simp [and_ones8, and_ones4, RowHolds, fieldOk, regField_iff]

/-- Everything the decoder can do, by row (R96). -/
theorem decode_cases (c : Word) :
    (RowHolds 0x01#8 false false false false c ∧ decode c = .ok .nop) ∨
    (RowHolds 0x10#8 true true true false c ∧
      decode c = .ok (.mmul (MReg.ofBits (fieldRd c)) (MReg.ofBits (fieldRa c)) (MReg.ofBits (fieldRb c)))) ∨
    (RowHolds 0x11#8 true true true false c ∧
      decode c = .ok (.mvmul (VReg.ofBits (fieldRd c)) (MReg.ofBits (fieldRa c)) (VReg.ofBits (fieldRb c)))) ∨
    (RowHolds 0x12#8 false true false false c ∧ decode c = .ok (.mdet (MReg.ofBits (fieldRa c)))) ∨
    (RowHolds 0x13#8 false true false false c ∧ decode c = .ok (.invchk (MReg.ofBits (fieldRa c)))) ∨
    (RowHolds 0x14#8 true true false false c ∧
      decode c = .ok (.minv (MReg.ofBits (fieldRd c)) (MReg.ofBits (fieldRa c)))) ∨
    (RowHolds 0x20#8 true false true false c ∧ decode c = .ok (.enc (VReg.ofBits (fieldRd c)) (VReg.ofBits (fieldRb c)))) ∨
    (RowHolds 0x21#8 true false true false c ∧ decode c = .ok (.dec (VReg.ofBits (fieldRd c)) (VReg.ofBits (fieldRb c)))) ∨
    (RowHolds 0x22#8 true false true true c ∧
      decode c = .ok (.encpad (VReg.ofBits (fieldRd c)) (VReg.ofBits (fieldRb c)) (fieldImm c))) ∨
    (RowHolds 0x23#8 true false true false c ∧
      decode c = .ok (.decpad (VReg.ofBits (fieldRd c)) (VReg.ofBits (fieldRb c)))) ∨
    (decode c = .error (whyIllegal c) ∧
      ¬ RowHolds 0x01#8 false false false false c ∧ ¬ RowHolds 0x10#8 true true true false c ∧
      ¬ RowHolds 0x11#8 true true true false c ∧ ¬ RowHolds 0x12#8 false true false false c ∧
      ¬ RowHolds 0x13#8 false true false false c ∧ ¬ RowHolds 0x14#8 true true false false c ∧
      ¬ RowHolds 0x20#8 true false true false c ∧ ¬ RowHolds 0x21#8 true false true false c ∧
      ¬ RowHolds 0x22#8 true false true true c ∧ ¬ RowHolds 0x23#8 true false true false c) := by
  rw [← row_nop, ← row_dab (v := 0x10000000#32) (by decide), ← row_dab (v := 0x11000000#32) (by decide),
    ← row_a (v := 0x12000000#32) (by decide), ← row_a (v := 0x13000000#32) (by decide),
    ← row_da (v := 0x14000000#32) (by decide), ← row_db (v := 0x20000000#32) (by decide),
    ← row_db (v := 0x21000000#32) (by decide), ← row_dbi (v := 0x22000000#32) (by decide),
    ← row_db (v := 0x23000000#32) (by decide)]
  unfold decode
  split_ifs with h1 h2 h3 h4 h5 h6 h7 h8 h9 h10
  · exact .inl ⟨h1, rfl⟩
  · exact .inr (.inl ⟨h2, rfl⟩)
  · exact .inr (.inr (.inl ⟨h3, rfl⟩))
  · exact .inr (.inr (.inr (.inl ⟨h4, rfl⟩)))
  · exact .inr (.inr (.inr (.inr (.inl ⟨h5, rfl⟩))))
  · exact .inr (.inr (.inr (.inr (.inr (.inl ⟨h6, rfl⟩)))))
  · exact .inr (.inr (.inr (.inr (.inr (.inr (.inl ⟨h7, rfl⟩))))))
  · exact .inr (.inr (.inr (.inr (.inr (.inr (.inr (.inl ⟨h8, rfl⟩)))))))
  · exact .inr (.inr (.inr (.inr (.inr (.inr (.inr (.inr (.inl ⟨h9, rfl⟩))))))))
  · exact .inr (.inr (.inr (.inr (.inr (.inr (.inr (.inr (.inr (.inl ⟨h10, rfl⟩)))))))))
  · exact .inr (.inr (.inr (.inr (.inr (.inr (.inr (.inr (.inr (.inr
      ⟨rfl, h1, h2, h3, h4, h5, h6, h7, h8, h9, h10⟩)))))))))

/-- A used register field is the number of the matrix register its low bits name. -/
theorem mreg_num {x : BitVec 4} {y : BitVec 2} (hy : y = x.extractLsb' 0 2) (h : fieldOk true x) :
    x.toNat = (MReg.ofBits y).num := by
  subst hy
  rw [MReg.num_ofBits, lowBits_toNat _ (by simpa [fieldOk] using h)]

theorem vreg_num {x : BitVec 4} {y : BitVec 2} (hy : y = x.extractLsb' 0 2) (h : fieldOk true x) :
    x.toNat = (VReg.ofBits y).num := by
  subst hy
  rw [VReg.num_ofBits, lowBits_toNat _ (by simpa [fieldOk] using h)]

/-- The encoding is the field layout with `Z = 0` (R91). -/
theorem packFields_eq (op rd ra rb imm : Nat) : packFields op rd ra rb imm =
    layFields (BitVec.ofNat 8 op) (BitVec.ofNat 4 rd) (BitVec.ofNat 4 ra) (BitVec.ofNat 4 rb) 0#4 (BitVec.ofNat 8 imm) := rfl

end Sys2Proof
end

