-- ==== Sys2Proof/Laws/State.lean ====
section
/-! SUPPORT. One lemma for each field of State under each update, true by `rfl`, so that no later proof unfolds an update; then
what the element accessors read after each update of a register. -/

namespace Sys2Proof.Machine

variable (s : State)

/-! `State.raise` -/

@[simp] theorem State.raise_mats (f : FaultCode) (info : Nat) (c : Word) : (s.raise f info c).mats = s.mats := rfl
@[simp] theorem State.raise_vecs (f : FaultCode) (info : Nat) (c : Word) : (s.raise f info c).vecs = s.vecs := rfl
@[simp] theorem State.raise_radix (f : FaultCode) (info : Nat) (c : Word) : (s.raise f info c).radix = s.radix := rfl
@[simp] theorem State.raise_n (f : FaultCode) (info : Nat) (c : Word) : (s.raise f info c).n = s.n := rfl
@[simp] theorem State.raise_fault (f : FaultCode) (info : Nat) (c : Word) : (s.raise f info c).fault = true := rfl
@[simp] theorem State.raise_invValid (f : FaultCode) (info : Nat) (c : Word) : (s.raise f info c).invValid = s.invValid := rfl
@[simp] theorem State.raise_invertible (f : FaultCode) (info : Nat) (c : Word) : (s.raise f info c).invertible = s.invertible := rfl
@[simp] theorem State.raise_err (f : FaultCode) (info : Nat) (c : Word) : (s.raise f info c).err = f.code := rfl
@[simp] theorem State.raise_errcmd (f : FaultCode) (info : Nat) (c : Word) : (s.raise f info c).errcmd = c := rfl
@[simp] theorem State.raise_errinfo (f : FaultCode) (info : Nat) (c : Word) : (s.raise f info c).errinfo = word info := rfl
@[simp] theorem State.raise_det (f : FaultCode) (info : Nat) (c : Word) : (s.raise f info c).det = s.det := rfl
@[simp] theorem State.raise_gcd (f : FaultCode) (info : Nat) (c : Word) : (s.raise f info c).gcd = s.gcd := rfl
@[simp] theorem State.raise_pad (f : FaultCode) (info : Nat) (c : Word) : (s.raise f info c).pad = s.pad := rfl
@[simp] theorem State.raise_port (f : FaultCode) (info : Nat) (c : Word) : (s.raise f info c).port = s.port := rfl
@[simp] theorem State.raise_reads (f : FaultCode) (info : Nat) (c : Word) : (s.raise f info c).reads = s.reads := rfl
@[simp] theorem State.raise_txn (f : FaultCode) (info : Nat) (c : Word) : (s.raise f info c).txn = s.txn := rfl

/-! `State.clearFault` -/

@[simp] theorem State.clearFault_mats : (s.clearFault).mats = s.mats := rfl
@[simp] theorem State.clearFault_vecs : (s.clearFault).vecs = s.vecs := rfl
@[simp] theorem State.clearFault_radix : (s.clearFault).radix = s.radix := rfl
@[simp] theorem State.clearFault_n : (s.clearFault).n = s.n := rfl
@[simp] theorem State.clearFault_fault : (s.clearFault).fault = false := rfl
@[simp] theorem State.clearFault_invValid : (s.clearFault).invValid = s.invValid := rfl
@[simp] theorem State.clearFault_invertible : (s.clearFault).invertible = s.invertible := rfl
@[simp] theorem State.clearFault_err : (s.clearFault).err = 0#4 := rfl
@[simp] theorem State.clearFault_errcmd : (s.clearFault).errcmd = 0#32 := rfl
@[simp] theorem State.clearFault_errinfo : (s.clearFault).errinfo = 0#32 := rfl
@[simp] theorem State.clearFault_det : (s.clearFault).det = s.det := rfl
@[simp] theorem State.clearFault_gcd : (s.clearFault).gcd = s.gcd := rfl
@[simp] theorem State.clearFault_pad : (s.clearFault).pad = s.pad := rfl
@[simp] theorem State.clearFault_port : (s.clearFault).port = s.port := rfl
@[simp] theorem State.clearFault_reads : (s.clearFault).reads = s.reads := rfl
@[simp] theorem State.clearFault_txn : (s.clearFault).txn = s.txn := rfl

/-! `State.writeActM` -/

@[simp] theorem State.writeActM_vecs (k : MReg) (b : Nat) (C : Nat → Nat → Nat) : (s.writeActM k b C).vecs = s.vecs := rfl
@[simp] theorem State.writeActM_radix (k : MReg) (b : Nat) (C : Nat → Nat → Nat) : (s.writeActM k b C).radix = s.radix := rfl
@[simp] theorem State.writeActM_n (k : MReg) (b : Nat) (C : Nat → Nat → Nat) : (s.writeActM k b C).n = s.n := rfl
@[simp] theorem State.writeActM_fault (k : MReg) (b : Nat) (C : Nat → Nat → Nat) : (s.writeActM k b C).fault = s.fault := rfl
@[simp] theorem State.writeActM_invValid (k : MReg) (b : Nat) (C : Nat → Nat → Nat) : (s.writeActM k b C).invValid = s.invValid := rfl
@[simp] theorem State.writeActM_invertible (k : MReg) (b : Nat) (C : Nat → Nat → Nat) : (s.writeActM k b C).invertible = s.invertible := rfl
@[simp] theorem State.writeActM_err (k : MReg) (b : Nat) (C : Nat → Nat → Nat) : (s.writeActM k b C).err = s.err := rfl
@[simp] theorem State.writeActM_errcmd (k : MReg) (b : Nat) (C : Nat → Nat → Nat) : (s.writeActM k b C).errcmd = s.errcmd := rfl
@[simp] theorem State.writeActM_errinfo (k : MReg) (b : Nat) (C : Nat → Nat → Nat) : (s.writeActM k b C).errinfo = s.errinfo := rfl
@[simp] theorem State.writeActM_det (k : MReg) (b : Nat) (C : Nat → Nat → Nat) : (s.writeActM k b C).det = s.det := rfl
@[simp] theorem State.writeActM_gcd (k : MReg) (b : Nat) (C : Nat → Nat → Nat) : (s.writeActM k b C).gcd = s.gcd := rfl
@[simp] theorem State.writeActM_pad (k : MReg) (b : Nat) (C : Nat → Nat → Nat) : (s.writeActM k b C).pad = s.pad := rfl
@[simp] theorem State.writeActM_port (k : MReg) (b : Nat) (C : Nat → Nat → Nat) : (s.writeActM k b C).port = s.port := rfl
@[simp] theorem State.writeActM_reads (k : MReg) (b : Nat) (C : Nat → Nat → Nat) : (s.writeActM k b C).reads = s.reads := rfl
@[simp] theorem State.writeActM_txn (k : MReg) (b : Nat) (C : Nat → Nat → Nat) : (s.writeActM k b C).txn = s.txn := rfl

/-! `State.writeActV` -/

@[simp] theorem State.writeActV_mats (k : VReg) (b : Nat) (y : Nat → Nat) : (s.writeActV k b y).mats = s.mats := rfl
@[simp] theorem State.writeActV_radix (k : VReg) (b : Nat) (y : Nat → Nat) : (s.writeActV k b y).radix = s.radix := rfl
@[simp] theorem State.writeActV_n (k : VReg) (b : Nat) (y : Nat → Nat) : (s.writeActV k b y).n = s.n := rfl
@[simp] theorem State.writeActV_fault (k : VReg) (b : Nat) (y : Nat → Nat) : (s.writeActV k b y).fault = s.fault := rfl
@[simp] theorem State.writeActV_invValid (k : VReg) (b : Nat) (y : Nat → Nat) : (s.writeActV k b y).invValid = s.invValid := rfl
@[simp] theorem State.writeActV_invertible (k : VReg) (b : Nat) (y : Nat → Nat) : (s.writeActV k b y).invertible = s.invertible := rfl
@[simp] theorem State.writeActV_err (k : VReg) (b : Nat) (y : Nat → Nat) : (s.writeActV k b y).err = s.err := rfl
@[simp] theorem State.writeActV_errcmd (k : VReg) (b : Nat) (y : Nat → Nat) : (s.writeActV k b y).errcmd = s.errcmd := rfl
@[simp] theorem State.writeActV_errinfo (k : VReg) (b : Nat) (y : Nat → Nat) : (s.writeActV k b y).errinfo = s.errinfo := rfl
@[simp] theorem State.writeActV_det (k : VReg) (b : Nat) (y : Nat → Nat) : (s.writeActV k b y).det = s.det := rfl
@[simp] theorem State.writeActV_gcd (k : VReg) (b : Nat) (y : Nat → Nat) : (s.writeActV k b y).gcd = s.gcd := rfl
@[simp] theorem State.writeActV_pad (k : VReg) (b : Nat) (y : Nat → Nat) : (s.writeActV k b y).pad = s.pad := rfl
@[simp] theorem State.writeActV_port (k : VReg) (b : Nat) (y : Nat → Nat) : (s.writeActV k b y).port = s.port := rfl
@[simp] theorem State.writeActV_reads (k : VReg) (b : Nat) (y : Nat → Nat) : (s.writeActV k b y).reads = s.reads := rfl
@[simp] theorem State.writeActV_txn (k : VReg) (b : Nat) (y : Nat → Nat) : (s.writeActV k b y).txn = s.txn := rfl

/-! `State.transform` -/

@[simp] theorem State.transform_mats (k : VReg) (m b : Nat) (A : IMat) (v : IVec) : (s.transform k m b A v).mats = s.mats := rfl
@[simp] theorem State.transform_radix (k : VReg) (m b : Nat) (A : IMat) (v : IVec) : (s.transform k m b A v).radix = s.radix := rfl
@[simp] theorem State.transform_n (k : VReg) (m b : Nat) (A : IMat) (v : IVec) : (s.transform k m b A v).n = s.n := rfl
@[simp] theorem State.transform_fault (k : VReg) (m b : Nat) (A : IMat) (v : IVec) : (s.transform k m b A v).fault = s.fault := rfl
@[simp] theorem State.transform_invValid (k : VReg) (m b : Nat) (A : IMat) (v : IVec) : (s.transform k m b A v).invValid = s.invValid := rfl
@[simp] theorem State.transform_invertible (k : VReg) (m b : Nat) (A : IMat) (v : IVec) : (s.transform k m b A v).invertible = s.invertible := rfl
@[simp] theorem State.transform_err (k : VReg) (m b : Nat) (A : IMat) (v : IVec) : (s.transform k m b A v).err = s.err := rfl
@[simp] theorem State.transform_errcmd (k : VReg) (m b : Nat) (A : IMat) (v : IVec) : (s.transform k m b A v).errcmd = s.errcmd := rfl
@[simp] theorem State.transform_errinfo (k : VReg) (m b : Nat) (A : IMat) (v : IVec) : (s.transform k m b A v).errinfo = s.errinfo := rfl
@[simp] theorem State.transform_det (k : VReg) (m b : Nat) (A : IMat) (v : IVec) : (s.transform k m b A v).det = s.det := rfl
@[simp] theorem State.transform_gcd (k : VReg) (m b : Nat) (A : IMat) (v : IVec) : (s.transform k m b A v).gcd = s.gcd := rfl
@[simp] theorem State.transform_pad (k : VReg) (m b : Nat) (A : IMat) (v : IVec) : (s.transform k m b A v).pad = s.pad := rfl
@[simp] theorem State.transform_port (k : VReg) (m b : Nat) (A : IMat) (v : IVec) : (s.transform k m b A v).port = s.port := rfl
@[simp] theorem State.transform_reads (k : VReg) (m b : Nat) (A : IMat) (v : IVec) : (s.transform k m b A v).reads = s.reads := rfl
@[simp] theorem State.transform_txn (k : VReg) (m b : Nat) (A : IMat) (v : IVec) : (s.transform k m b A v).txn = s.txn := rfl

/-! `State.setElemM` -/

@[simp] theorem State.setElemM_vecs (k : MReg) (i j : Fin 8) (w : Word) : (s.setElemM k i j w).vecs = s.vecs := rfl
@[simp] theorem State.setElemM_radix (k : MReg) (i j : Fin 8) (w : Word) : (s.setElemM k i j w).radix = s.radix := rfl
@[simp] theorem State.setElemM_n (k : MReg) (i j : Fin 8) (w : Word) : (s.setElemM k i j w).n = s.n := rfl
@[simp] theorem State.setElemM_fault (k : MReg) (i j : Fin 8) (w : Word) : (s.setElemM k i j w).fault = s.fault := rfl
@[simp] theorem State.setElemM_invValid (k : MReg) (i j : Fin 8) (w : Word) : (s.setElemM k i j w).invValid = s.invValid := rfl
@[simp] theorem State.setElemM_invertible (k : MReg) (i j : Fin 8) (w : Word) : (s.setElemM k i j w).invertible = s.invertible := rfl
@[simp] theorem State.setElemM_err (k : MReg) (i j : Fin 8) (w : Word) : (s.setElemM k i j w).err = s.err := rfl
@[simp] theorem State.setElemM_errcmd (k : MReg) (i j : Fin 8) (w : Word) : (s.setElemM k i j w).errcmd = s.errcmd := rfl
@[simp] theorem State.setElemM_errinfo (k : MReg) (i j : Fin 8) (w : Word) : (s.setElemM k i j w).errinfo = s.errinfo := rfl
@[simp] theorem State.setElemM_det (k : MReg) (i j : Fin 8) (w : Word) : (s.setElemM k i j w).det = s.det := rfl
@[simp] theorem State.setElemM_gcd (k : MReg) (i j : Fin 8) (w : Word) : (s.setElemM k i j w).gcd = s.gcd := rfl
@[simp] theorem State.setElemM_pad (k : MReg) (i j : Fin 8) (w : Word) : (s.setElemM k i j w).pad = s.pad := rfl
@[simp] theorem State.setElemM_port (k : MReg) (i j : Fin 8) (w : Word) : (s.setElemM k i j w).port = s.port := rfl
@[simp] theorem State.setElemM_reads (k : MReg) (i j : Fin 8) (w : Word) : (s.setElemM k i j w).reads = s.reads := rfl
@[simp] theorem State.setElemM_txn (k : MReg) (i j : Fin 8) (w : Word) : (s.setElemM k i j w).txn = s.txn := rfl

/-! `State.setElemV` -/

@[simp] theorem State.setElemV_mats (k : VReg) (j : Fin 8) (w : Word) : (s.setElemV k j w).mats = s.mats := rfl
@[simp] theorem State.setElemV_radix (k : VReg) (j : Fin 8) (w : Word) : (s.setElemV k j w).radix = s.radix := rfl
@[simp] theorem State.setElemV_n (k : VReg) (j : Fin 8) (w : Word) : (s.setElemV k j w).n = s.n := rfl
@[simp] theorem State.setElemV_fault (k : VReg) (j : Fin 8) (w : Word) : (s.setElemV k j w).fault = s.fault := rfl
@[simp] theorem State.setElemV_invValid (k : VReg) (j : Fin 8) (w : Word) : (s.setElemV k j w).invValid = s.invValid := rfl
@[simp] theorem State.setElemV_invertible (k : VReg) (j : Fin 8) (w : Word) : (s.setElemV k j w).invertible = s.invertible := rfl
@[simp] theorem State.setElemV_err (k : VReg) (j : Fin 8) (w : Word) : (s.setElemV k j w).err = s.err := rfl
@[simp] theorem State.setElemV_errcmd (k : VReg) (j : Fin 8) (w : Word) : (s.setElemV k j w).errcmd = s.errcmd := rfl
@[simp] theorem State.setElemV_errinfo (k : VReg) (j : Fin 8) (w : Word) : (s.setElemV k j w).errinfo = s.errinfo := rfl
@[simp] theorem State.setElemV_det (k : VReg) (j : Fin 8) (w : Word) : (s.setElemV k j w).det = s.det := rfl
@[simp] theorem State.setElemV_gcd (k : VReg) (j : Fin 8) (w : Word) : (s.setElemV k j w).gcd = s.gcd := rfl
@[simp] theorem State.setElemV_pad (k : VReg) (j : Fin 8) (w : Word) : (s.setElemV k j w).pad = s.pad := rfl
@[simp] theorem State.setElemV_port (k : VReg) (j : Fin 8) (w : Word) : (s.setElemV k j w).port = s.port := rfl
@[simp] theorem State.setElemV_reads (k : VReg) (j : Fin 8) (w : Word) : (s.setElemV k j w).reads = s.reads := rfl
@[simp] theorem State.setElemV_txn (k : VReg) (j : Fin 8) (w : Word) : (s.setElemV k j w).txn = s.txn := rfl

/-! `State.accept` -/

@[simp] theorem State.accept_mats (rest : List Input) : (s.accept rest).mats = s.mats := rfl
@[simp] theorem State.accept_vecs (rest : List Input) : (s.accept rest).vecs = s.vecs := rfl
@[simp] theorem State.accept_radix (rest : List Input) : (s.accept rest).radix = s.radix := rfl
@[simp] theorem State.accept_n (rest : List Input) : (s.accept rest).n = s.n := rfl
@[simp] theorem State.accept_fault (rest : List Input) : (s.accept rest).fault = s.fault := rfl
@[simp] theorem State.accept_invValid (rest : List Input) : (s.accept rest).invValid = s.invValid := rfl
@[simp] theorem State.accept_invertible (rest : List Input) : (s.accept rest).invertible = s.invertible := rfl
@[simp] theorem State.accept_err (rest : List Input) : (s.accept rest).err = s.err := rfl
@[simp] theorem State.accept_errcmd (rest : List Input) : (s.accept rest).errcmd = s.errcmd := rfl
@[simp] theorem State.accept_errinfo (rest : List Input) : (s.accept rest).errinfo = s.errinfo := rfl
@[simp] theorem State.accept_det (rest : List Input) : (s.accept rest).det = s.det := rfl
@[simp] theorem State.accept_gcd (rest : List Input) : (s.accept rest).gcd = s.gcd := rfl
@[simp] theorem State.accept_pad (rest : List Input) : (s.accept rest).pad = s.pad := rfl
@[simp] theorem State.accept_port (rest : List Input) : (s.accept rest).port = rest := rfl
@[simp] theorem State.accept_reads (rest : List Input) : (s.accept rest).reads = s.reads := rfl
@[simp] theorem State.accept_txn (rest : List Input) : (s.accept rest).txn = s.txn + 1 := rfl

/-! `State.afterReset` -/

@[simp] theorem State.afterReset_mats : (s.afterReset).mats = State.reset.mats := rfl
@[simp] theorem State.afterReset_vecs : (s.afterReset).vecs = State.reset.vecs := rfl
@[simp] theorem State.afterReset_radix : (s.afterReset).radix = State.reset.radix := rfl
@[simp] theorem State.afterReset_n : (s.afterReset).n = State.reset.n := rfl
@[simp] theorem State.afterReset_fault : (s.afterReset).fault = State.reset.fault := rfl
@[simp] theorem State.afterReset_invValid : (s.afterReset).invValid = State.reset.invValid := rfl
@[simp] theorem State.afterReset_invertible : (s.afterReset).invertible = State.reset.invertible := rfl
@[simp] theorem State.afterReset_err : (s.afterReset).err = State.reset.err := rfl
@[simp] theorem State.afterReset_errcmd : (s.afterReset).errcmd = State.reset.errcmd := rfl
@[simp] theorem State.afterReset_errinfo : (s.afterReset).errinfo = State.reset.errinfo := rfl
@[simp] theorem State.afterReset_det : (s.afterReset).det = State.reset.det := rfl
@[simp] theorem State.afterReset_gcd : (s.afterReset).gcd = State.reset.gcd := rfl
@[simp] theorem State.afterReset_pad : (s.afterReset).pad = State.reset.pad := rfl
@[simp] theorem State.afterReset_port : (s.afterReset).port = s.port := rfl
@[simp] theorem State.afterReset_reads : (s.afterReset).reads = s.reads := rfl
@[simp] theorem State.afterReset_txn : (s.afterReset).txn = s.txn := rfl

end Sys2Proof.Machine
end

