-- ==== Sys2Proof/Laws/Operands.lean ====
section
/-! SUPPORT. What each element reads after each operation on registers: the spec lemmas of Operands.lean, cited instead of unfolding
it. -/

namespace Sys2Proof.Machine

theorem matIdx_inj {k k' : MReg} : matIdx k = matIdx k' ↔ k = k' := by
  cases k <;> cases k' <;> decide

theorem vecIdx_inj {k k' : VReg} : vecIdx k = vecIdx k' ↔ k = k' := by
  cases k <;> cases k' <;> decide

theorem matIdx_val_inj {k k' : MReg} : (matIdx k).val = (matIdx k').val ↔ k = k' := by
  rw [← Fin.ext_iff, matIdx_inj]

theorem vecIdx_val_inj {k k' : VReg} : (vecIdx k).val = (vecIdx k').val ↔ k = k' := by
  rw [← Fin.ext_iff, vecIdx_inj]

/-- After a write of an active region: the new residue inside it, what was there everywhere else (00_scope.md R17). -/
theorem elemM_writeActM (s : State) (k : MReg) (n : Nat) (C : Nat → Nat → Nat) (k' : MReg) (i j : Fin 8) :
    (s.writeActM k n C).elemM k' i j
      = if k' = k ∧ i.val < n ∧ j.val < n then Elem.holds (C i j) else s.elemM k' i j := by
  unfold State.writeActM State.elemM
  by_cases h : k' = k
  · subst h
    simp
  · have h' : (matIdx k).val ≠ (matIdx k').val := fun e => h (matIdx_val_inj.mp e).symm
    simp [h, h']

theorem elemV_writeActV (s : State) (k : VReg) (n : Nat) (y : Nat → Nat) (k' : VReg) (j : Fin 8) :
    (s.writeActV k n y).elemV k' j = if k' = k ∧ j.val < n then Elem.holds (y j) else s.elemV k' j := by
  unfold State.writeActV State.elemV
  by_cases h : k' = k
  · subst h
    simp
  · have h' : (vecIdx k).val ≠ (vecIdx k').val := fun e => h (vecIdx_val_inj.mp e).symm
    simp [h, h']

theorem elemM_setElemM (s : State) (k : MReg) (i j : Fin 8) (w : Word) (k' : MReg) (i' j' : Fin 8) :
    (s.setElemM k i j w).elemM k' i' j' = if k' = k ∧ i' = i ∧ j' = j then ⟨true, w⟩ else s.elemM k' i' j' := by
  unfold State.setElemM State.elemM
  by_cases h : k' = k
  · subst h
    by_cases hi : i' = i
    · subst hi
      by_cases hj : j' = j
      · subst hj
        simp
      · have : j.val ≠ j'.val := fun e => hj (Fin.ext e.symm)
        simp [hj, this]
    · have : i.val ≠ i'.val := fun e => hi (Fin.ext e.symm)
      simp [hi, this]
  · have h' : (matIdx k).val ≠ (matIdx k').val := fun e => h (matIdx_val_inj.mp e).symm
    simp [h, h']

theorem elemV_setElemV (s : State) (k : VReg) (j : Fin 8) (w : Word) (k' : VReg) (j' : Fin 8) :
    (s.setElemV k j w).elemV k' j' = if k' = k ∧ j' = j then ⟨true, w⟩ else s.elemV k' j' := by
  unfold State.setElemV State.elemV
  by_cases h : k' = k
  · subst h
    by_cases hj : j' = j
    · subst hj
      simp
    · have : j.val ≠ j'.val := fun e => hj (Fin.ext e.symm)
      simp [hj, this]
  · have h' : (vecIdx k).val ≠ (vecIdx k').val := fun e => h (vecIdx_val_inj.mp e).symm
    simp [h, h']

/-- Elements are read from the register files alone. -/
theorem elemM_congr {s t : State} (h : t.mats = s.mats) (k : MReg) (i j : Fin 8) : t.elemM k i j = s.elemM k i j := by
  unfold State.elemM
  rw [h]

theorem elemV_congr {s t : State} (h : t.vecs = s.vecs) (k : VReg) (j : Fin 8) : t.elemV k j = s.elemV k j := by
  unfold State.elemV
  rw [h]

@[simp] theorem elemM_writeActV (s : State) (k : VReg) (n : Nat) (y : Nat → Nat) (k' : MReg) (i j : Fin 8) :
    (s.writeActV k n y).elemM k' i j = s.elemM k' i j := rfl

@[simp] theorem elemV_writeActM (s : State) (k : MReg) (n : Nat) (C : Nat → Nat → Nat) (k' : VReg) (j : Fin 8) :
    (s.writeActM k n C).elemV k' j = s.elemV k' j := rfl

@[simp] theorem elemM_setElemV (s : State) (k : VReg) (j : Fin 8) (w : Word) (k' : MReg) (i' j' : Fin 8) :
    (s.setElemV k j w).elemM k' i' j' = s.elemM k' i' j' := rfl

@[simp] theorem elemV_setElemM (s : State) (k : MReg) (i j : Fin 8) (w : Word) (k' : VReg) (j' : Fin 8) :
    (s.setElemM k i j w).elemV k' j' = s.elemV k' j' := rfl

@[simp] theorem elemM_raise (s : State) (f : FaultCode) (info : Nat) (c : Word) (k : MReg) (i j : Fin 8) :
    (s.raise f info c).elemM k i j = s.elemM k i j := rfl

@[simp] theorem elemV_raise (s : State) (f : FaultCode) (info : Nat) (c : Word) (k : VReg) (j : Fin 8) :
    (s.raise f info c).elemV k j = s.elemV k j := rfl

@[simp] theorem elemM_clearFault (s : State) (k : MReg) (i j : Fin 8) : s.clearFault.elemM k i j = s.elemM k i j := rfl

@[simp] theorem elemV_clearFault (s : State) (k : VReg) (j : Fin 8) : s.clearFault.elemV k j = s.elemV k j := rfl

@[simp] theorem elemM_accept (s : State) (rest : List Input) (k : MReg) (i j : Fin 8) :
    (s.accept rest).elemM k i j = s.elemM k i j := rfl

@[simp] theorem elemV_accept (s : State) (rest : List Input) (k : VReg) (j : Fin 8) :
    (s.accept rest).elemV k j = s.elemV k j := rfl

@[simp] theorem elemM_transform (s : State) (vd : VReg) (m n : Nat) (A : IMat) (v : IVec) (k : MReg) (i j : Fin 8) :
    (s.transform vd m n A v).elemM k i j = s.elemM k i j := rfl

/-- The destination of a transform holds `matvec` on its active region (40_matrix_ops.md R121). -/
theorem elemV_transform (s : State) (vd : VReg) (m n : Nat) (A : IMat) (v : IVec) (k : VReg) (j : Fin 8) :
    (s.transform vd m n A v).elemV k j = if k = vd ∧ j.val < n then Elem.holds (matvec n A v m j) else s.elemV k j :=
  elemV_writeActV s vd n (matvec n A v m) k j

/-- After reset no element is written (70_reset_and_hazards.md R231). -/
@[simp] theorem elemM_reset (k : MReg) (i j : Fin 8) : State.reset.elemM k i j = Elem.unwritten := by
  simp [State.elemM, State.reset]

@[simp] theorem elemV_reset (k : VReg) (j : Fin 8) : State.reset.elemV k j = Elem.unwritten := by
  simp [State.elemV, State.reset]

@[simp] theorem elemM_afterReset (s : State) (k : MReg) (i j : Fin 8) : s.afterReset.elemM k i j = Elem.unwritten :=
  elemM_reset k i j

@[simp] theorem elemV_afterReset (s : State) (k : VReg) (j : Fin 8) : s.afterReset.elemV k j = Elem.unwritten :=
  elemV_reset k j

@[simp] theorem Elem.read_holds (x : Nat) (free : Word) : (Elem.holds x).read free = Sys2Proof.word x := rfl

/-- A written element reads as its word, whatever the free value (93_implementation_defined.md U1). -/
theorem Elem.read_written {e : Elem} (h : e.written = true) (free : Word) : e.read free = e.word := by
  simp [Elem.read, h]

theorem wordM_written {s : State} {k : MReg} {i j : Fin 8} (h : (s.elemM k i j).written = true) (pos : Nat) :
    s.wordM pos k i j = (s.elemM k i j).word := Elem.read_written h _

theorem wordV_written {s : State} {k : VReg} {j : Fin 8} (h : (s.elemV k j).written = true) (pos : Nat) :
    s.wordV pos k j = (s.elemV k j).word := Elem.read_written h _

/-- An index below the block size names itself. -/
theorem ofNat_val (i : Fin 8) : Fin.ofNat 8 i.val = i := by
  apply Fin.ext
  simp

theorem ofNat_of_lt {i : Nat} (h : i < 8) : Fin.ofNat 8 i = ⟨i, h⟩ := by
  apply Fin.ext
  simp [Nat.mod_eq_of_lt h]

theorem actM_eq (s : State) (pos : Nat) (k : MReg) {i j : Nat} (hi : i < 8) (hj : j < 8) :
    s.actM pos k i j = sint (s.wordM pos k ⟨i, hi⟩ ⟨j, hj⟩) := by
  rw [State.actM, ofNat_of_lt hi, ofNat_of_lt hj]

theorem actV_eq (s : State) (pos : Nat) (k : VReg) {j : Nat} (hj : j < 8) :
    s.actV pos k j = sint (s.wordV pos k ⟨j, hj⟩) := by
  rw [State.actV, ofNat_of_lt hj]

/-- The operands read from a matrix register depend on the register file and the transaction alone. -/
theorem actM_congr {s t : State} (hm : t.mats = s.mats) (ht : t.txn = s.txn) (pos : Nat) (k : MReg) :
    t.actM pos k = s.actM pos k := by
  funext i j
  unfold State.actM State.wordM
  rw [ht, elemM_congr hm]

theorem actV_congr {s t : State} (hv : t.vecs = s.vecs) (ht : t.txn = s.txn) (pos : Nat) (k : VReg) :
    t.actV pos k = s.actV pos k := by
  funext j
  unfold State.actV State.wordV
  rw [ht, elemV_congr hv]

end Sys2Proof.Machine
end

