-- ==== Sys2Proof/Laws/Ops.lean ====
section
/-! SUPPORT. What the shared operations can do, said once: the steps of `Execute` before a command's own pseudocode, each
command from a state that is ready for it, and the inputs at the port. -/

namespace Sys2Proof.Machine

theorem nLegal_iff (s : State) : s.nLegal = true ↔ 1 ≤ s.size ∧ s.size ≤ 8 := by
  exact decide_eq_true_iff

theorem radixLegal_iff (s : State) : s.radixLegal = true ↔ 2 ≤ s.modulus ∧ s.modulus ≤ 2147483647 := by
  exact decide_eq_true_iff

theorem State.ready.size_pos {s : State} (h : s.ready) : 1 ≤ s.size := ((nLegal_iff s).mp h.2.2).1

theorem State.ready.size_le {s : State} (h : s.ready) : s.size ≤ 8 := ((nLegal_iff s).mp h.2.2).2

theorem State.ready.modulus_ge {s : State} (h : s.ready) : 2 ≤ s.modulus := ((radixLegal_iff s).mp h.2.1).1

theorem State.ready.modulus_le {s : State} (h : s.ready) : s.modulus ≤ 2147483647 := ((radixLegal_iff s).mp h.2.1).2

/-- A residue of a legal radix is the unsigned value of its word (00_scope.md R9). -/
theorem uint_word {v : Nat} (h : v < 2 ^ 32) : uint (Sys2Proof.word v) = v := by
  unfold uint Sys2Proof.word
  rw [BitVec.toNat_ofNat, Nat.mod_eq_of_lt h]

/-- A residue below 2^31 reads back as itself when it is a source (92_eei_decisions.md D5). -/
theorem sint_word {v : Nat} (h : v < 2 ^ 31) : sint (Sys2Proof.word v) = v := by
  unfold sint Sys2Proof.word
  rw [BitVec.toInt_eq_toNat_of_lt]
  · simp; omega
  · simp; omega

/-! `State.command` -/

theorem command_locked {s : State} (h : s.fault = true) (c : Word) (body : Nat → Nat → State) : s.command c body = s := by
  simp [State.command, h]

theorem command_badRadix {s : State} (h : s.fault = false) (hr : s.radixLegal = false) (c : Word) (body : Nat → Nat → State) :
    s.command c body = s.raise .badConfig 1 c := by
  simp [State.command, h, hr]

theorem command_badN {s : State} (h : s.fault = false) (hr : s.radixLegal = true) (hn : s.nLegal = false) (c : Word)
    (body : Nat → Nat → State) : s.command c body = s.raise .badConfig 2 c := by
  simp [State.command, h, hr, hn]

theorem command_ready {s : State} (h : s.ready) (c : Word) (body : Nat → Nat → State) :
    s.command c body = body s.modulus s.size := by
  obtain ⟨h1, h2, h3⟩ := h
  simp [State.command, h1, h2, h3]

/-- Everything the steps before a command's own pseudocode can do (42_system_and_port_ops.md R175). -/
theorem command_cases (s : State) (c : Word) (body : Nat → Nat → State) :
    (s.fault = true ∧ s.command c body = s) ∨
    (s.fault = false ∧ s.radixLegal = false ∧ s.command c body = s.raise .badConfig 1 c) ∨
    (s.fault = false ∧ s.radixLegal = true ∧ s.nLegal = false ∧ s.command c body = s.raise .badConfig 2 c) ∨
    (s.ready ∧ s.command c body = body s.modulus s.size) := by
  cases hf : s.fault with
  | true => exact .inl ⟨rfl, command_locked hf c body⟩
  | false =>
    cases hr : s.radixLegal with
    | false => exact .inr (.inl ⟨rfl, rfl, command_badRadix hf hr c body⟩)
    | true =>
      cases hn : s.nLegal with
      | false => exact .inr (.inr (.inl ⟨rfl, rfl, rfl, command_badN hf hr hn c body⟩))
      | true => exact .inr (.inr (.inr ⟨⟨hf, hr, hn⟩, command_ready ⟨hf, hr, hn⟩ c body⟩))

/-! Each command from a ready state -/

theorem execMmul_ready {s : State} (h : s.ready) (md ma mb : MReg) :
    exec (.mmul md ma mb) s = .next { s.writeActM md s.size (matmul s.size (s.actM 0 ma) (s.actM 1 mb) s.modulus) with
      invValid := invValidAfterMmul md s.invValid } := by
  simp only [exec, execMmul, command_ready h]

theorem execMvmul_ready {s : State} (h : s.ready) (vd : VReg) (ma : MReg) (vb : VReg) :
    exec (.mvmul vd ma vb) s = .next (s.transform vd s.modulus s.size (s.actM 0 ma) (s.actV 1 vb)) := by
  simp only [exec, execMvmul, command_ready h]

theorem execMdet_ready {s : State} (h : s.ready) (ma : MReg) :
    exec (.mdet ma) s = .next { s with det := Sys2Proof.word (residue (detZ s.size (s.actM 0 ma)) s.modulus) } := by
  simp only [exec, execMdet, command_ready h]

theorem execInvchk_ready {s : State} (h : s.ready) (ma : MReg) :
    exec (.invchk ma) s = .next { s with
      det := Sys2Proof.word (residue (detZ s.size (s.actM 0 ma)) s.modulus)
      gcd := Sys2Proof.word (gcdOf (residue (detZ s.size (s.actM 0 ma)) s.modulus) s.modulus)
      invertible := decide (Unimodular s.size (s.actM 0 ma) s.modulus) } := by
  simp only [exec, execInvchk, command_ready h, Unimodular]

theorem execMinv_ready {s : State} (h : s.ready) {md ma : MReg} (hu : Unimodular s.size (s.actM 0 ma) s.modulus) :
    exec (.minv md ma) s = .next { s.writeActM md s.size (invMat s.size (s.actM 0 ma) s.modulus) with
      invValid := invValidAfterMinv md ma s.invValid } := by
  have hm : 0 < s.modulus := by have := h.modulus_ge; omega
  unfold Unimodular at hu
  simp only [exec, execMinv, command_ready h, hu, ne_eq, not_true_eq_false, if_false, invMod, invMat]
  rw [show residue ((residue (detZ s.size (s.actM 0 ma)) s.modulus : Nat) : Int) s.modulus
    = residue (detZ s.size (s.actM 0 ma)) s.modulus from by
      unfold residue
      rw [Int.toNat_of_nonneg (Int.emod_nonneg _ (by omega)), Int.emod_emod_of_dvd _ (dvd_refl _)]]

theorem execMinv_singular {s : State} (h : s.ready) {md ma : MReg} (hu : ¬ Unimodular s.size (s.actM 0 ma) s.modulus) :
    exec (.minv md ma) s
      = .next (s.raise .singular (gcdOf (residue (detZ s.size (s.actM 0 ma)) s.modulus) s.modulus) (encode (.minv md ma))) := by
  unfold Unimodular at hu
  simp only [exec, execMinv, command_ready h, ne_eq, hu, not_false_eq_true, if_true]

theorem execEnc_ready {s : State} (h : s.ready) (vd vb : VReg) :
    exec (.enc vd vb) s = .next (s.transform vd s.modulus s.size (s.actM 0 .m0) (s.actV 1 vb)) := by
  simp only [exec, execEnc, command_ready h]

theorem execDec_ready {s : State} (h : s.ready) (hv : s.invValid = true) (vd vb : VReg) :
    exec (.dec vd vb) s = .next (s.transform vd s.modulus s.size (s.actM 0 .m1) (s.actV 1 vb)) := by
  simp only [exec, execDec, command_ready h, hv, Bool.not_true, Bool.false_eq_true, if_false]

theorem execDec_notValid {s : State} (h : s.ready) (hv : s.invValid = false) (vd vb : VReg) :
    exec (.dec vd vb) s = .next (s.raise .invNotValid 0 (encode (.dec vd vb))) := by
  simp only [exec, execDec, command_ready h, hv, Bool.not_false, if_true]

theorem execEncpad_ready {s : State} (h : s.ready) {r : Nat} (hr : r < s.size) (vd vb : VReg) :
    exec (.encpad vd vb r) s
      = .next (s.transform vd s.modulus s.size (s.actM 0 .m0) (padBlock s.size r (s.actV 1 vb))) := by
  simp only [exec, execEncpad, command_ready h, if_neg (Nat.not_le.mpr hr)]

theorem execEncpad_badOperand {s : State} (h : s.ready) {r : Nat} (hr : s.size ≤ r) (vd vb : VReg) :
    exec (.encpad vd vb r) s = .next (s.raise .badOperand r (encode (.encpad vd vb r))) := by
  simp only [exec, execEncpad, command_ready h, if_pos hr]

theorem execDecpad_ready {s : State} (h : s.ready) (hv : s.invValid = true) {vb : VReg}
    (h1 : 1 ≤ s.padCount vb) (h2 : s.padCount vb ≤ s.size) (vd : VReg) :
    exec (.decpad vd vb) s = .next { s.transform vd s.modulus s.size (s.actM 0 .m1) (s.actV 1 vb) with
      pad := Sys2Proof.word (s.padCount vb) } := by
  unfold State.padCount at h1 h2
  simp only [exec, execDecpad, command_ready h, hv, Bool.not_true, Bool.false_eq_true, if_false, State.padCount]
  exact congrArg Host.Outcome.next
    (if_neg fun hp => hp.elim (fun hp => absurd h1 (Nat.not_le.mpr hp)) fun hp => absurd h2 (Nat.not_le.mpr hp))

theorem execDecpad_corrupt {s : State} (h : s.ready) (hv : s.invValid = true) {vb : VReg}
    (hp : s.padCount vb < 1 ∨ s.size < s.padCount vb) (vd : VReg) :
    exec (.decpad vd vb) s = .next (s.raise .corruptPadding (s.padCount vb) (encode (.decpad vd vb))) := by
  unfold State.padCount at hp
  simp only [exec, execDecpad, command_ready h, hv, Bool.not_true, Bool.false_eq_true, if_false, State.padCount]
  exact congrArg Host.Outcome.next (if_pos hp)

theorem execDecpad_notValid {s : State} (h : s.ready) (hv : s.invValid = false) (vd vb : VReg) :
    exec (.decpad vd vb) s = .next (s.raise .invNotValid 0 (encode (.decpad vd vb))) := by
  simp only [exec, execDecpad, command_ready h, hv, Bool.not_false, if_true]

/-- Under lockout a command changes nothing (60_exceptions.md R203). -/
theorem exec_locked {s : State} (h : s.fault = true) (i : Instr) : exec i s = .next s := by
  cases i with
  | nop => rfl
  | mmul md ma mb => simp only [exec, execMmul, command_locked h]
  | mvmul vd ma vb => simp only [exec, execMvmul, command_locked h]
  | mdet ma => simp only [exec, execMdet, command_locked h]
  | invchk ma => simp only [exec, execInvchk, command_locked h]
  | minv md ma => simp only [exec, execMinv, command_locked h]
  | enc vd vb => simp only [exec, execEnc, command_locked h]
  | dec vd vb => simp only [exec, execDec, command_locked h]
  | encpad vd vb r => simp only [exec, execEncpad, command_locked h]
  | decpad vd vb => simp only [exec, execDecpad, command_locked h]

/-- With an illegal configuration every command but NOP takes `BAD_CONFIG` (60_exceptions.md R196). -/
theorem exec_badRadix {s : State} (h : s.fault = false) (hr : s.radixLegal = false) {i : Instr} (hi : i ≠ .nop) :
    exec i s = .next (s.raise .badConfig 1 (encode i)) := by
  cases i with
  | nop => exact absurd rfl hi
  | mmul md ma mb => simp only [exec, execMmul, command_badRadix h hr]
  | mvmul vd ma vb => simp only [exec, execMvmul, command_badRadix h hr]
  | mdet ma => simp only [exec, execMdet, command_badRadix h hr]
  | invchk ma => simp only [exec, execInvchk, command_badRadix h hr]
  | minv md ma => simp only [exec, execMinv, command_badRadix h hr]
  | enc vd vb => simp only [exec, execEnc, command_badRadix h hr]
  | dec vd vb => simp only [exec, execDec, command_badRadix h hr]
  | encpad vd vb r => simp only [exec, execEncpad, command_badRadix h hr]
  | decpad vd vb => simp only [exec, execDecpad, command_badRadix h hr]

theorem exec_badN {s : State} (h : s.fault = false) (hr : s.radixLegal = true) (hn : s.nLegal = false) {i : Instr}
    (hi : i ≠ .nop) : exec i s = .next (s.raise .badConfig 2 (encode i)) := by
  cases i with
  | nop => exact absurd rfl hi
  | mmul md ma mb => simp only [exec, execMmul, command_badN h hr hn]
  | mvmul vd ma vb => simp only [exec, execMvmul, command_badN h hr hn]
  | mdet ma => simp only [exec, execMdet, command_badN h hr hn]
  | invchk ma => simp only [exec, execInvchk, command_badN h hr hn]
  | minv md ma => simp only [exec, execMinv, command_badN h hr hn]
  | enc vd vb => simp only [exec, execEnc, command_badN h hr hn]
  | dec vd vb => simp only [exec, execDec, command_badN h hr hn]
  | encpad vd vb r => simp only [exec, execEncpad, command_badN h hr hn]
  | decpad vd vb => simp only [exec, execDecpad, command_badN h hr hn]

/-- A command always answers a next state. -/
theorem exec_answers (i : Instr) (s : State) : ∃ t, exec i s = .next t := by
  cases i with
  | nop => exact ⟨_, rfl⟩
  | mmul md ma mb => exact ⟨_, rfl⟩
  | mvmul vd ma vb => exact ⟨_, rfl⟩
  | mdet ma => exact ⟨_, rfl⟩
  | invchk ma => exact ⟨_, rfl⟩
  | minv md ma => exact ⟨_, rfl⟩
  | enc vd vb => exact ⟨_, rfl⟩
  | dec vd vb => exact ⟨_, rfl⟩
  | encpad vd vb r => exact ⟨_, rfl⟩
  | decpad vd vb => exact ⟨_, rfl⟩

/-- One step, by the input at the port. -/
theorem step_idle {s : State} (h : s.port = []) : step s = .next s := by
  simp [step, h]

theorem step_input {s : State} {x : Input} {rest : List Input} (h : s.port = x :: rest) :
    step s = perform x (s.accept rest) := by
  simp [step, h]

end Sys2Proof.Machine
end

