-- ==== Sys2Proof/Laws/Port.lean ====
section
/-! SUPPORT. The address map both ways (20_memory.md R63), and what each input does to the state (R64, R65). -/

namespace Sys2Proof.Machine

theorem matOf_num (k : MReg) : matOf k.num = k := MReg.ofBits_num k

theorem vecOf_num (k : VReg) : vecOf k.num = k := VReg.ofBits_num k

/-- The address of `V[k][j]` (10_state.md R23). -/
theorem locate_v {a : Addr} {k : VReg} {j : Fin 8} (h : a.toNat = 0x020 + 8 * k.num + j.val) : locate a = .v k j := by
  have hk := k.num_lt
  have hj := j.isLt
  have h1 : (a.toNat - 0x020) / 8 = k.num := by omega
  have h2 : Fin.ofNat 8 (a.toNat - 0x020) = j := by
    apply Fin.ext
    simp
    omega
  have n : ∀ x : Nat, x < 32 → a.toNat ≠ x := by omega
  simp only [locate, h1, h2, vecOf_num]
  rw [if_neg (n 0 (by decide)), if_neg (n 1 (by decide)), if_neg (n 2 (by decide)), if_neg (n 3 (by decide)),
    if_neg (n 4 (by decide)), if_neg (n 5 (by decide)), if_neg (n 6 (by decide)), if_neg (n 7 (by decide)),
    if_neg (n 8 (by decide)), if_neg (n 9 (by decide)), if_neg (by omega), if_pos (by omega)]

/-- The address of `M[k][i][j]` (10_state.md R21). -/
theorem locate_m {a : Addr} {k : MReg} {i j : Fin 8} (h : a.toNat = 0x100 + 64 * k.num + 8 * i.val + j.val) :
    locate a = .m k i j := by
  have hk := k.num_lt
  have hi := i.isLt
  have hj := j.isLt
  have h1 : (a.toNat - 0x100) / 64 = k.num := by omega
  have h2 : Fin.ofNat 8 ((a.toNat - 0x100) / 8) = i := by
    apply Fin.ext
    show (a.toNat - 0x100) / 8 % 8 = i.val
    omega
  have h3 : Fin.ofNat 8 (a.toNat - 0x100) = j := by
    apply Fin.ext
    show (a.toNat - 0x100) % 8 = j.val
    omega
  have n : ∀ x : Nat, x < 32 → a.toNat ≠ x := by omega
  simp only [locate, h1, h2, h3, matOf_num]
  rw [if_neg (n 0 (by decide)), if_neg (n 1 (by decide)), if_neg (n 2 (by decide)), if_neg (n 3 (by decide)),
    if_neg (n 4 (by decide)), if_neg (n 5 (by decide)), if_neg (n 6 (by decide)), if_neg (n 7 (by decide)),
    if_neg (n 8 (by decide)), if_neg (n 9 (by decide)), if_neg (by omega), if_neg (by omega), if_neg (by omega)]

/-- The addresses that name nothing (R63). -/
theorem locate_reserved {a : Addr} (h : (0x00A ≤ a.toNat ∧ a.toNat ≤ 0x01F) ∨ (0x040 ≤ a.toNat ∧ a.toNat ≤ 0x0FF)) :
    locate a = .reserved a := by
  have n : ∀ x : Nat, x < 10 → a.toNat ≠ x := by omega
  simp only [locate]
  rw [if_neg (n 0 (by decide)), if_neg (n 1 (by decide)), if_neg (n 2 (by decide)), if_neg (n 3 (by decide)),
    if_neg (n 4 (by decide)), if_neg (n 5 (by decide)), if_neg (n 6 (by decide)), if_neg (n 7 (by decide)),
    if_neg (n 8 (by decide)), if_neg (n 9 (by decide))]
  rcases h with h | h
  · rw [if_pos (by omega)]
  · rw [if_neg (by omega), if_neg (by omega), if_pos (by omega)]

/-- Every address is a control register, an element of a vector or of a matrix register, or reserved. -/
theorem addr_cases (a : Addr) :
    a.toNat < 10 ∨ (∃ (k : VReg) (j : Fin 8), a.toNat = 0x020 + 8 * k.num + j.val) ∨
    (∃ (k : MReg) (i j : Fin 8), a.toNat = 0x100 + 64 * k.num + 8 * i.val + j.val) ∨
    ((0x00A ≤ a.toNat ∧ a.toNat ≤ 0x01F) ∨ (0x040 ≤ a.toNat ∧ a.toNat ≤ 0x0FF)) := by
  have ha : a.toNat < 512 := a.isLt
  have toM : ∀ q : Nat, q < 4 → ∃ k : MReg, k.num = q := fun q hq => by
    interval_cases q
    · exact ⟨.m0, rfl⟩
    · exact ⟨.m1, rfl⟩
    · exact ⟨.m2, rfl⟩
    · exact ⟨.m3, rfl⟩
  have toV : ∀ q : Nat, q < 4 → ∃ k : VReg, k.num = q := fun q hq => by
    interval_cases q
    · exact ⟨.v0, rfl⟩
    · exact ⟨.v1, rfl⟩
    · exact ⟨.v2, rfl⟩
    · exact ⟨.v3, rfl⟩
  by_cases h1 : a.toNat < 10
  · exact .inl h1
  by_cases h2 : a.toNat < 32
  · exact .inr (.inr (.inr (.inl (by omega))))
  by_cases h3 : a.toNat < 64
  · obtain ⟨k, hk⟩ := toV ((a.toNat - 32) / 8) (by omega)
    exact .inr (.inl ⟨k, ⟨(a.toNat - 32) % 8, by omega⟩, by simp only [hk]; omega⟩)
  by_cases h4 : a.toNat < 256
  · exact .inr (.inr (.inr (.inr (by omega))))
  · obtain ⟨k, hk⟩ := toM ((a.toNat - 256) / 64) (by omega)
    exact .inr (.inr (.inl ⟨k, ⟨((a.toNat - 256) / 8) % 8, by omega⟩, ⟨(a.toNat - 256) % 8, by omega⟩, by
      simp only [hk]; omega⟩))

theorem addrOf_v (k : VReg) (j : Fin 8) : (addrOf (.v k j)).toNat = 0x020 + 8 * k.num + j.val := by
  have hk := k.num_lt
  have hj := j.isLt
  simp only [addrOf, addrV, BitVec.toNat_ofNat]
  omega

theorem addrOf_m (k : MReg) (i j : Fin 8) : (addrOf (.m k i j)).toNat = 0x100 + 64 * k.num + 8 * i.val + j.val := by
  have hk := k.num_lt
  have hi := i.isLt
  have hj := j.isLt
  simp only [addrOf, addrM, BitVec.toNat_ofNat]
  omega

/-- A location that the map has is at its address (R63, R100). -/
theorem locate_addrOf {l : Loc} (h : l.wellFormed = true) : locate (addrOf l) = l := by
  cases l with
  | id => rfl
  | radix => rfl
  | n => rfl
  | cmd => rfl
  | status => rfl
  | errcmd => rfl
  | errinfo => rfl
  | det => rfl
  | gcd => rfl
  | pad => rfl
  | v k j => exact locate_v (addrOf_v k j)
  | m k i j => exact locate_m (addrOf_m k i j)
  | reserved a => exact locate_reserved (by simpa [Loc.wellFormed, addrOf] using h)

/-- Two addresses never name one location: the map is injective (R63). -/
theorem addrOf_locate (a : Addr) : addrOf (locate a) = a ∧ (locate a).wellFormed = true := by
  have he : ∀ b : Addr, b.toNat = a.toNat → b = a := fun b h => BitVec.eq_of_toNat_eq h
  rcases addr_cases a with h | ⟨k, j, h⟩ | ⟨k, i, j, h⟩ | h
  · have small : ∀ x : Nat, x < 10 → addrOf (locate (BitVec.ofNat 9 x)) = BitVec.ofNat 9 x ∧
        (locate (BitVec.ofNat 9 x)).wellFormed = true := by decide
    have hx : BitVec.ofNat 9 a.toNat = a := by simp
    have := small a.toNat h
    rwa [hx] at this
  · rw [locate_v h]
    exact ⟨he _ ((addrOf_v k j).trans h.symm), rfl⟩
  · rw [locate_m h]
    exact ⟨he _ ((addrOf_m k i j).trans h.symm), rfl⟩
  · rw [locate_reserved h]
    exact ⟨rfl, by simpa [Loc.wellFormed] using h⟩

theorem locate_inj {a b : Addr} : locate a = locate b ↔ a = b :=
  ⟨fun h => by rw [← (addrOf_locate a).1, h, (addrOf_locate b).1], fun h => h ▸ rfl⟩

/-! What a read of each location returns (R64) -/

theorem portRead_v {a : Addr} {k : VReg} {j : Fin 8} (h : locate a = .v k j) (s : State) : s.portRead a = s.wordV 0 k j := by
  simp only [State.portRead, h]

theorem portRead_m {a : Addr} {k : MReg} {i j : Fin 8} (h : locate a = .m k i j) (s : State) :
    s.portRead a = s.wordM 0 k i j := by
  simp only [State.portRead, h]

theorem portRead_reserved {a b : Addr} (h : locate a = .reserved b) (s : State) : s.portRead a = 0#32 := by
  simp only [State.portRead, h]

/-! What a write to each location does (R65) -/

theorem portWrite_radix (w : Word) (s : State) : portWrite 0x001#9 w s = .next { s with radix := w, invValid := false } := rfl

theorem portWrite_n (w : Word) (s : State) :
    portWrite 0x002#9 w s = .next { s with n := w.extractLsb' 0 4, invValid := false } := rfl

theorem portWrite_cmd (w : Word) (s : State) : portWrite 0x003#9 w s = execute w s := rfl

theorem portWrite_status (w : Word) (s : State) :
    portWrite 0x004#9 w s = .next (if w.getLsbD 0 then s.clearFault else s) := rfl

theorem portWrite_v {a : Addr} {k : VReg} {j : Fin 8} (h : locate a = .v k j) (w : Word) (s : State) :
    portWrite a w s = .next (s.setElemV k j w) := by
  simp only [portWrite, h]

theorem portWrite_m {a : Addr} {k : MReg} {i j : Fin 8} (h : locate a = .m k i j) (w : Word) (s : State) :
    portWrite a w s = .next { s.setElemM k i j w with invValid := if watched k then false else s.invValid } := by
  simp only [portWrite, h]

theorem portWrite_ignored {a : Addr}
    (h : a.toNat = 0x000 ∨ (0x005 ≤ a.toNat ∧ a.toNat ≤ 0x01F) ∨ (0x040 ≤ a.toNat ∧ a.toNat ≤ 0x0FF))
    (w : Word) (s : State) : portWrite a w s = .next s := by
  rcases addr_cases a with h' | ⟨k, j, h'⟩ | ⟨k, i, j, h'⟩ | h'
  · have hx : BitVec.ofNat 9 a.toNat = a := by simp
    rw [← hx]
    have : a.toNat = 0 ∨ a.toNat = 5 ∨ a.toNat = 6 ∨ a.toNat = 7 ∨ a.toNat = 8 ∨ a.toNat = 9 := by omega
    rcases this with h | h | h | h | h | h <;> rw [h] <;> rfl
  · have := k.num_lt
    have := j.isLt
    omega
  · have := k.num_lt
    omega
  · simp only [portWrite, locate_reserved h']

/-- Everything a write can do: the one list the lemmas about writes go through (R65). -/
theorem portWrite_cases (a : Addr) (w : Word) (s : State) :
    (a = 0x001#9 ∧ portWrite a w s = .next { s with radix := w, invValid := false }) ∨
    (a = 0x002#9 ∧ portWrite a w s = .next { s with n := w.extractLsb' 0 4, invValid := false }) ∨
    (a = 0x003#9 ∧ portWrite a w s = execute w s) ∨
    (a = 0x004#9 ∧ portWrite a w s = .next (if w.getLsbD 0 then s.clearFault else s)) ∨
    (∃ k j, locate a = .v k j ∧ portWrite a w s = .next (s.setElemV k j w)) ∨
    (∃ k i j, locate a = .m k i j ∧
      portWrite a w s = .next { s.setElemM k i j w with invValid := if watched k then false else s.invValid }) ∨
    ((a.toNat = 0x000 ∨ (0x005 ≤ a.toNat ∧ a.toNat ≤ 0x01F) ∨ (0x040 ≤ a.toNat ∧ a.toNat ≤ 0x0FF)) ∧
      portWrite a w s = .next s) := by
  have he : ∀ x : Nat, x < 512 → a.toNat = x → a = BitVec.ofNat 9 x := fun x hx h => by
    apply BitVec.eq_of_toNat_eq
    simp only [BitVec.toNat_ofNat]
    omega
  rcases addr_cases a with h | ⟨k, j, h⟩ | ⟨k, i, j, h⟩ | h
  · by_cases h1 : a.toNat = 1
    · have := he 1 (by decide) h1
      subst this
      exact .inl ⟨rfl, rfl⟩
    by_cases h2 : a.toNat = 2
    · have := he 2 (by decide) h2
      subst this
      exact .inr (.inl ⟨rfl, rfl⟩)
    by_cases h3 : a.toNat = 3
    · have := he 3 (by decide) h3
      subst this
      exact .inr (.inr (.inl ⟨rfl, rfl⟩))
    by_cases h4 : a.toNat = 4
    · have := he 4 (by decide) h4
      subst this
      exact .inr (.inr (.inr (.inl ⟨rfl, rfl⟩)))
    have hi : a.toNat = 0x000 ∨ (0x005 ≤ a.toNat ∧ a.toNat ≤ 0x01F) ∨ (0x040 ≤ a.toNat ∧ a.toNat ≤ 0x0FF) := by omega
    exact .inr (.inr (.inr (.inr (.inr (.inr ⟨hi, portWrite_ignored hi w s⟩)))))
  · exact .inr (.inr (.inr (.inr (.inl ⟨k, j, locate_v h, portWrite_v (locate_v h) w s⟩))))
  · exact .inr (.inr (.inr (.inr (.inr (.inl ⟨k, i, j, locate_m h, portWrite_m (locate_m h) w s⟩)))))
  · have hi : a.toNat = 0x000 ∨ (0x005 ≤ a.toNat ∧ a.toNat ≤ 0x01F) ∨ (0x040 ≤ a.toNat ∧ a.toNat ≤ 0x0FF) := by omega
    exact .inr (.inr (.inr (.inr (.inr (.inr ⟨hi, portWrite_ignored hi w s⟩)))))

/-- `Execute` (42_system_and_port_ops.md R175): a decoded word runs its command, an illegal word is recorded. -/
theorem execute_ok {c : Word} {i : Instr} (h : decode c = .ok i) (s : State) : execute c s = exec i s := by
  simp only [execute, h]

theorem execute_error {c : Word} {e : Illegal} (h : decode c = .error e) (s : State) : execute c s = .next (s.illegal c) := by
  simp only [execute, h]

theorem execute_answers (c : Word) (s : State) : ∃ t, execute c s = .next t := by
  cases h : decode c with
  | ok i => rw [execute_ok h]; exact exec_answers i s
  | error e => exact ⟨_, execute_error h s⟩

/-- Every input is answered by a next state. -/
theorem perform_answers (x : Input) (s : State) : ∃ t, perform x s = .next t := by
  cases x with
  | read a => exact ⟨_, rfl⟩
  | reset => exact ⟨_, rfl⟩
  | write a w =>
    rcases portWrite_cases a w s with ⟨_, h⟩ | ⟨_, h⟩ | ⟨_, h⟩ | ⟨_, h⟩ | ⟨_, _, _, h⟩ | ⟨_, _, _, _, h⟩ | ⟨_, h⟩
    · exact ⟨_, h⟩
    · exact ⟨_, h⟩
    · obtain ⟨t, ht⟩ := execute_answers w s
      exact ⟨t, h.trans ht⟩
    · exact ⟨_, h⟩
    · exact ⟨_, h⟩
    · exact ⟨_, h⟩
    · exact ⟨_, h⟩

end Sys2Proof.Machine
end

