-- ==== Sys2Proof/Laws/Exec.lean ====
section
/-! SUPPORT. The one inversion lemma of `exec`: a command is ignored, or raises one fault, or has its effect. The invariants and the
whole-machine rules are case analyses of it. -/

namespace Sys2Proof.Machine

/-- What a command does when it completes, as the `_ready` lemmas of Laws/Ops.lean give it. -/
def State.effect (s : State) : Instr → State
  | .nop => s
  | .mmul md ma mb => { s.writeActM md s.size (matmul s.size (s.actM 0 ma) (s.actM 1 mb) s.modulus) with
      invValid := invValidAfterMmul md s.invValid }
  | .mvmul vd ma vb => s.transform vd s.modulus s.size (s.actM 0 ma) (s.actV 1 vb)
  | .mdet ma => { s with det := Sys2Proof.word (residue (detZ s.size (s.actM 0 ma)) s.modulus) }
  | .invchk ma => { s with
      det := Sys2Proof.word (residue (detZ s.size (s.actM 0 ma)) s.modulus)
      gcd := Sys2Proof.word (gcdOf (residue (detZ s.size (s.actM 0 ma)) s.modulus) s.modulus)
      invertible := decide (Unimodular s.size (s.actM 0 ma) s.modulus) }
  | .minv md ma => { s.writeActM md s.size (invMat s.size (s.actM 0 ma) s.modulus) with
      invValid := invValidAfterMinv md ma s.invValid }
  | .enc vd vb => s.transform vd s.modulus s.size (s.actM 0 .m0) (s.actV 1 vb)
  | .dec vd vb => s.transform vd s.modulus s.size (s.actM 0 .m1) (s.actV 1 vb)
  | .encpad vd vb r => s.transform vd s.modulus s.size (s.actM 0 .m0) (padBlock s.size r (s.actV 1 vb))
  | .decpad vd vb => { s.transform vd s.modulus s.size (s.actM 0 .m1) (s.actV 1 vb) with
      pad := Sys2Proof.word (s.padCount vb) }

/-- A fault that a command raises: its cause, its detail, and what the cause says of the state (60_exceptions.md R191). -/
inductive Raises (s : State) : Instr → FaultCode → Nat → Prop where
  | badRadix {i} : i ≠ .nop → s.radixLegal = false → Raises s i .badConfig 1
  | badN {i} : i ≠ .nop → s.radixLegal = true → s.nLegal = false → Raises s i .badConfig 2
  | badOperand {vd vb r} : s.ready → s.size ≤ r → Raises s (.encpad vd vb r) .badOperand r
  | decNotValid {vd vb} : s.ready → s.invValid = false → Raises s (.dec vd vb) .invNotValid 0
  | decpadNotValid {vd vb} : s.ready → s.invValid = false → Raises s (.decpad vd vb) .invNotValid 0
  | singular {md ma} : s.ready → ¬ Unimodular s.size (s.actM 0 ma) s.modulus →
      Raises s (.minv md ma) .singular (gcdOf (residue (detZ s.size (s.actM 0 ma)) s.modulus) s.modulus)
  | corrupt {vd vb} : s.ready → s.invValid = true → s.padCount vb < 1 ∨ s.size < s.padCount vb →
      Raises s (.decpad vd vb) .corruptPadding (s.padCount vb)

/-- A ready command has its effect, or raises the fault of its own rule. -/
theorem exec_ready_cases {s : State} (h : s.ready) (i : Instr) :
    (s.completes i ∧ exec i s = .next (s.effect i)) ∨
    (¬ s.completes i ∧ ∃ f info, Raises s i f info ∧ exec i s = .next (s.raise f info (encode i))) := by
  cases i with
  | nop => exact .inl ⟨trivial, rfl⟩
  | mmul md ma mb => exact .inl ⟨trivial, execMmul_ready h md ma mb⟩
  | mvmul vd ma vb => exact .inl ⟨trivial, execMvmul_ready h vd ma vb⟩
  | mdet ma => exact .inl ⟨trivial, execMdet_ready h ma⟩
  | invchk ma => exact .inl ⟨trivial, execInvchk_ready h ma⟩
  | enc vd vb => exact .inl ⟨trivial, execEnc_ready h vd vb⟩
  | minv md ma =>
    by_cases hu : Unimodular s.size (s.actM 0 ma) s.modulus
    · exact .inl ⟨hu, execMinv_ready h hu⟩
    · exact .inr ⟨hu, _, _, .singular h hu, execMinv_singular h hu⟩
  | dec vd vb =>
    cases hv : s.invValid with
    | true => exact .inl ⟨hv, execDec_ready h hv vd vb⟩
    | false =>
      exact .inr ⟨fun hc => Bool.noConfusion (hv.symm.trans hc), _, _, .decNotValid h hv, execDec_notValid h hv vd vb⟩
  | encpad vd vb r =>
    by_cases hr : r < s.size
    · exact .inl ⟨hr, execEncpad_ready h hr vd vb⟩
    · exact .inr ⟨hr, _, _, .badOperand h (Nat.le_of_not_lt hr), execEncpad_badOperand h (Nat.le_of_not_lt hr) vd vb⟩
  | decpad vd vb =>
    cases hv : s.invValid with
    | false =>
      exact .inr ⟨fun hc => Bool.noConfusion (hv.symm.trans hc.1), _, _, .decpadNotValid h hv, execDecpad_notValid h hv vd vb⟩
    | true =>
      by_cases hp : s.padCount vb < 1 ∨ s.size < s.padCount vb
      · refine .inr ⟨fun hc => ?_, _, _, .corrupt h hv hp, execDecpad_corrupt h hv hp vd⟩
        have h1 := hc.2.1
        have h2 := hc.2.2
        omega
      · have h1 : 1 ≤ s.padCount vb := by omega
        have h2 : s.padCount vb ≤ s.size := by omega
        exact .inl ⟨⟨hv, h1, h2⟩, execDecpad_ready h hv h1 h2 vd⟩

/-- Everything a command can do. -/
theorem exec_cases {i : Instr} {s t : State} (h : exec i s = .next t) :
    ((s.fault = true ∨ i = .nop) ∧ t = s) ∨
    (s.fault = false ∧ ∃ f info, Raises s i f info ∧ t = s.raise f info (encode i)) ∨
    (s.ready ∧ s.completes i ∧ t = s.effect i) := by
  have key : ∀ {u : State}, exec i s = .next u → t = u := fun hu => by
    rw [h] at hu
    exact Host.Outcome.next.inj hu
  cases hf : s.fault with
  | true => exact .inl ⟨.inl rfl, key (exec_locked hf i)⟩
  | false =>
    by_cases hi : i = .nop
    · subst hi
      exact .inl ⟨.inr rfl, key rfl⟩
    cases hr : s.radixLegal with
    | false => exact .inr (.inl ⟨rfl, _, _, .badRadix hi hr, key (exec_badRadix hf hr hi)⟩)
    | true =>
      cases hn : s.nLegal with
      | false => exact .inr (.inl ⟨rfl, _, _, .badN hi hr hn, key (exec_badN hf hr hn hi)⟩)
      | true =>
        rcases exec_ready_cases ⟨hf, hr, hn⟩ i with ⟨hc, he⟩ | ⟨_, f, info, hc, he⟩
        · exact .inr (.inr ⟨⟨hf, hr, hn⟩, hc, key he⟩)
        · exact .inr (.inl ⟨rfl, f, info, hc, key he⟩)

/-- What `Execute` can do with any word (42_system_and_port_ops.md R175). -/
theorem execute_cases {c : Word} {s t : State} (h : execute c s = .next t) :
    (s.fault = true ∧ t = s) ∨
    (s.fault = false ∧ (∃ e, decode c = .error e) ∧ t = s.raise .illegalCmd 0 c) ∨
    (∃ i, decode c = .ok i ∧ exec i s = .next t) := by
  cases hd : decode c with
  | ok i =>
    rw [execute_ok hd] at h
    exact .inr (.inr ⟨i, rfl, h⟩)
  | error e =>
    rw [execute_error hd] at h
    have ht := Host.Outcome.next.inj h
    cases hf : s.fault with
    | true =>
      refine .inl ⟨rfl, ?_⟩
      simpa [State.illegal, hf] using ht.symm
    | false =>
      refine .inr (.inl ⟨rfl, ⟨e, rfl⟩, ?_⟩)
      simpa [State.illegal, hf] using ht.symm

/-! What no command touches -/

@[simp] theorem effect_radix (s : State) (i : Instr) : (s.effect i).radix = s.radix := by cases i <;> rfl
@[simp] theorem effect_n (s : State) (i : Instr) : (s.effect i).n = s.n := by cases i <;> rfl
@[simp] theorem effect_fault (s : State) (i : Instr) : (s.effect i).fault = s.fault := by cases i <;> rfl
@[simp] theorem effect_err (s : State) (i : Instr) : (s.effect i).err = s.err := by cases i <;> rfl
@[simp] theorem effect_errcmd (s : State) (i : Instr) : (s.effect i).errcmd = s.errcmd := by cases i <;> rfl
@[simp] theorem effect_errinfo (s : State) (i : Instr) : (s.effect i).errinfo = s.errinfo := by cases i <;> rfl
@[simp] theorem effect_port (s : State) (i : Instr) : (s.effect i).port = s.port := by cases i <;> rfl
@[simp] theorem effect_reads (s : State) (i : Instr) : (s.effect i).reads = s.reads := by cases i <;> rfl
@[simp] theorem effect_txn (s : State) (i : Instr) : (s.effect i).txn = s.txn := by cases i <;> rfl

/-- No command changes the configuration or the model's record of the port. -/
theorem exec_keeps {i : Instr} {s t : State} (h : exec i s = .next t) :
    t.radix = s.radix ∧ t.n = s.n ∧ t.port = s.port ∧ t.reads = s.reads ∧ t.txn = s.txn := by
  rcases exec_cases h with ⟨_, rfl⟩ | ⟨_, f, info, _, rfl⟩ | ⟨_, _, rfl⟩ <;> simp

theorem execute_keeps {c : Word} {s t : State} (h : execute c s = .next t) :
    t.radix = s.radix ∧ t.n = s.n ∧ t.port = s.port ∧ t.reads = s.reads ∧ t.txn = s.txn := by
  rcases execute_cases h with ⟨_, rfl⟩ | ⟨_, _, rfl⟩ | ⟨i, _, hi⟩
  · simp
  · simp
  · exact exec_keeps hi

/-- A fault that a command raises has a code of 1 to 6. -/
theorem FaultCode.code_range (f : FaultCode) : 1 ≤ f.code.toNat ∧ f.code.toNat ≤ 6 := by cases f <;> decide

end Sys2Proof.Machine
end

