-- ==== Sys2Proof/Laws/Inverse.lean ====
section
/-! SUPPORT. Inverses modulo `m` as the statements say them (00_scope.md R15), and the active regions that the next command reads
after a command wrote them. -/

namespace Sys2Proof.Machine

/-- `A · B` is the identity on the active region exactly when it is over `ZMod m`. -/
theorem identityProduct_iff {n m : Nat} (hm : 2 ≤ m) (A B : IMat) :
    IdentityProduct n A B m ↔ toZ n m A * toZ n m B = 1 := by
  have h0 : 0 < m := by omega
  have cast : ∀ i j : Fin n, ((matmul n A B m i j = if i.val = j.val then 1 else 0)
      ↔ (toZ n m A * toZ n m B) i j = (1 : Matrix (Fin n) (Fin n) (ZMod m)) i j) := by
    intro i j
    rw [← matmul_cast n A B h0, Matrix.one_apply]
    simp only [Fin.ext_iff]
    constructor
    · intro h
      rw [h]
      split <;> simp
    · intro h
      refine eq_of_cast_eq (matmul_lt n A B h0 _ _) ?_ ?_
      · split <;> omega
      · rw [h]
        split <;> simp
  constructor
  · intro h
    ext i j
    exact (cast i j).mp (h i j i.isLt j.isLt)
  · intro h i j hi hj
    exact (cast ⟨i, hi⟩ ⟨j, hj⟩).mpr (by rw [h])

/-- `IdentityProduct` reads the active region only. -/
theorem identityProduct_congr {n m : Nat} {A A' B B' : IMat} (hA : ∀ i j, i < n → j < n → A i j = A' i j)
    (hB : ∀ i j, i < n → j < n → B i j = B' i j) (h : IdentityProduct n A B m) : IdentityProduct n A' B' m := by
  intro i j hi hj
  rw [← h i j hi hj]
  exact matmul_congr (fun k hk => (hA i k hi hk).symm) fun k hk => (hB k j hk hj).symm

/-- `inv(A, m)` is the inverse on both sides. -/
theorem invMat_identity {n m : Nat} {A : IMat} (hm : 2 ≤ m) (h : Unimodular n A m) :
    IdentityProduct n A (fun i j => (invMat n A m i j : Int)) m ∧
    IdentityProduct n (fun i j => (invMat n A m i j : Int)) A m := by
  rw [identityProduct_iff hm, identityProduct_iff hm]
  exact toZ_mul_invMat (by omega) h

/-- A left inverse over `ZMod m` is a right inverse. -/
theorem identityProduct_comm {n m : Nat} (hm : 2 ≤ m) {A B : IMat} (h : IdentityProduct n A B m) : IdentityProduct n B A m := by
  rw [identityProduct_iff hm] at h ⊢
  exact mul_eq_one_comm.mp h

/-- A matrix with an inverse has a unit as its determinant (R15). -/
theorem unimodular_of_identity {n m : Nat} (hm : 2 ≤ m) {A B : IMat} (h : IdentityProduct n A B m) : Unimodular n A m := by
  rw [identityProduct_iff hm] at h
  have hd := congrArg Matrix.det h
  rw [Matrix.det_mul, Matrix.det_one, ← detZ_cast] at hd
  exact (isUnit_iff_gcdOf (by omega) _).mp (IsUnit.of_mul_eq_one _ hd)

/-- The inverse is unique among the matrices of residues (R15). -/
theorem inverse_unique {n m : Nat} (hm : 2 ≤ m) {A : IMat} {B C : Nat → Nat → Nat}
    (hB : ∀ i j, i < n → j < n → B i j < m) (hC : ∀ i j, i < n → j < n → C i j < m)
    (h : IdentityProduct n (fun i j => (B i j : Int)) A m) (h' : IdentityProduct n A (fun i j => (C i j : Int)) m)
    {i j : Nat} (hi : i < n) (hj : j < n) : C i j = B i j := by
  rw [identityProduct_iff hm] at h h'
  have e : toZ n m (fun i j => (C i j : Int)) = toZ n m (fun i j => (B i j : Int)) := by
    calc toZ n m (fun i j => (C i j : Int))
        = (toZ n m (fun i j => (B i j : Int)) * toZ n m A) * toZ n m (fun i j => (C i j : Int)) := by rw [h, one_mul]
      _ = toZ n m (fun i j => (B i j : Int)) * (toZ n m A * toZ n m (fun i j => (C i j : Int))) := mul_assoc _ _ _
      _ = toZ n m (fun i j => (B i j : Int)) := by rw [h', mul_one]
  have := congrFun (congrFun e ⟨i, hi⟩) ⟨j, hj⟩
  simp only [toZ, Matrix.of_apply] at this
  push_cast at this
  exact eq_of_cast_eq (hC i j hi hj) (hB i j hi hj) this

/-- A block encrypted by `A` and decrypted by an inverse of `A` is its own residues (41_cipher_ops.md R154). -/
theorem matvec_matvec {n m : Nat} (hm : 2 ≤ m) {A B : IMat} (h : IdentityProduct n A B m) (v : IVec) {i : Nat} (hi : i < n) :
    matvec n A (fun j => (matvec n B v m j : Int)) m i = residue (v i) m := by
  rw [identityProduct_iff hm] at h
  have h0 : 0 < m := by omega
  refine eq_of_cast_eq (matvec_lt n A _ h0 i) (residue_lt _ h0) ?_
  rw [matvec_cast n A _ h0 ⟨i, hi⟩, residue_cast _ h0]
  have hv : (fun j : Fin n => (((matvec n B v m j : Nat) : Int) : ZMod m)) = (toZ n m B).mulVec fun j => ((v j : Int) : ZMod m) := by
    funext j
    rw [← matvec_cast n B v h0 j]
    push_cast
    rfl
  rw [hv, Matrix.mulVec_mulVec, h, Matrix.one_mulVec]

/-! What the next command reads of a written active region (R9; 92_eei_decisions.md D5) -/

theorem actM_of_written {s : State} {k : MReg} {i j : Fin 8} (h : (s.elemM k i j).written = true) (pos : Nat) :
    s.actM pos k i j = sint (s.elemM k i j).word := by
  rw [actM_eq s pos k i.isLt j.isLt, wordM_written h]

theorem actV_of_written {s : State} {k : VReg} {j : Fin 8} (h : (s.elemV k j).written = true) (pos : Nat) :
    s.actV pos k j = sint (s.elemV k j).word := by
  rw [actV_eq s pos k j.isLt, wordV_written h]

theorem actM_of_holds {s : State} {k : MReg} {i j : Fin 8} {x : Nat} (h : s.elemM k i j = Elem.holds x) (hx : x < 2 ^ 31)
    (pos : Nat) : s.actM pos k i j = (x : Int) := by
  rw [actM_of_written (by rw [h]; rfl), h]
  exact sint_word hx

theorem actV_of_holds {s : State} {k : VReg} {j : Fin 8} {x : Nat} (h : s.elemV k j = Elem.holds x) (hx : x < 2 ^ 31)
    (pos : Nat) : s.actV pos k j = (x : Int) := by
  rw [actV_of_written (by rw [h]; rfl), h]
  exact sint_word hx

end Sys2Proof.Machine
end

