-- ==== Sys2Proof/Laws/Gauss.lean ====
section
/-! SUPPORT. What each step of algorithm G (40_matrix_ops.md R140) does to the table, as row operations over `ZMod m`. -/

namespace Sys2Proof.Machine

open Finset

/-- A table of `n` rows of `2 n` residues. -/
def TableOk (n m : Nat) (T : List GRow) : Prop :=
  T.length = n ∧ ∀ r, r < n → (T.getD r []).length = 2 * n ∧ ∀ k, entryAt T r k < m

/-- The left half of a table over `ZMod m`. -/
def leftHalf (n m : Nat) (T : List GRow) : Matrix (Fin n) (Fin n) (ZMod m) := Matrix.of fun i j => (entryAt T i j : ZMod m)

/-- The right half of a table over `ZMod m`. -/
def rightHalf (n m : Nat) (T : List GRow) : Matrix (Fin n) (Fin n) (ZMod m) := Matrix.of fun i j => (entryAt T i (n + j) : ZMod m)

/-- The table is the matrix `A` and the identity, both multiplied by one invertible matrix. -/
def TableOf (n m : Nat) (A : IMat) (T : List GRow) : Prop :=
  TableOk n m T ∧ leftHalf n m T = rightHalf n m T * toZ n m A ∧ IsUnit (rightHalf n m T).det

/-- The first `c` columns of the table are those of the identity. -/
def ColumnsDone (n c : Nat) (T : List GRow) : Prop :=
  ∀ i j, i < n → j < c → entryAt T i j = if i = j then 1 else 0

/-! Rows and entries -/

theorem getD_mapIdx {α : Type} (f : Nat → α → α) (l : List α) (d : α) {r : Nat} (h : r < l.length) :
    (l.mapIdx f).getD r d = f r (l.getD r d) := by
  simp [List.getD_eq_getElem?_getD, h]

theorem getD_rowSub {m q k w : Nat} {src row : GRow} (hs : src.length = w) (hr : row.length = w) (hk : k < w) :
    (rowSub m q src row).getD k 0 = residue ((row.getD k 0 : Nat) - (q : Int) * (src.getD k 0 : Nat)) m := by
  unfold rowSub
  simp [List.getD_eq_getElem?_getD, hr ▸ hk, hs ▸ hk]

theorem length_rowSub {m q w : Nat} {src row : GRow} (hs : src.length = w) (hr : row.length = w) :
    (rowSub m q src row).length = w := by
  simp [rowSub, hs, hr]

theorem getD_rowScale {m u k w : Nat} {row : GRow} (hr : row.length = w) (hk : k < w) :
    (rowScale m u row).getD k 0 = residue ((u : Int) * (row.getD k 0 : Nat)) m := by
  unfold rowScale
  simp [List.getD_eq_getElem?_getD, hr ▸ hk]

theorem getD_lt_of_short {row : GRow} {w m k : Nat} (hr : row.length = w) (hm : 0 < m)
    (h : ∀ k, k < w → row.getD k 0 < m) : row.getD k 0 < m := by
  by_cases hk : k < w
  · exact h k hk
  · rw [List.getD_eq_default _ _ (by omega)]
    exact hm

theorem rowSub_lt {m q w : Nat} (hm : 0 < m) {src row : GRow} (hs : src.length = w) (hr : row.length = w) (k : Nat) :
    (rowSub m q src row).getD k 0 < m :=
  getD_lt_of_short (length_rowSub hs hr) hm fun k hk => by
    rw [getD_rowSub hs hr hk]
    exact residue_lt _ hm

theorem rowScale_lt {m u w : Nat} (hm : 0 < m) {row : GRow} (hr : row.length = w) (k : Nat) : (rowScale m u row).getD k 0 < m :=
  getD_lt_of_short (w := w) (by simp [rowScale, hr]) hm fun k hk => by
    rw [getD_rowScale hr hk]
    exact residue_lt _ hm

/-- A step that rewrites each row in place keeps the shape of the table. -/
theorem tableOk_mapIdx {n m : Nat} {T : List GRow} (h : TableOk n m T) {f : Nat → GRow → GRow}
    (hf : ∀ r, r < n → (f r (T.getD r [])).length = 2 * n ∧ ∀ k, (f r (T.getD r [])).getD k 0 < m) : TableOk n m (T.mapIdx f) := by
  refine ⟨by simp [h.1], fun r hr => ?_⟩
  unfold entryAt
  rw [getD_mapIdx f T [] (by rw [h.1]; exact hr)]
  exact hf r hr

theorem entryAt_mapIdx {n m : Nat} {T : List GRow} (h : TableOk n m T) (f : Nat → GRow → GRow) {r : Nat} (hr : r < n) (k : Nat) :
    entryAt (T.mapIdx f) r k = (f r (T.getD r [])).getD k 0 := by
  unfold entryAt
  rw [getD_mapIdx f T [] (by rw [h.1]; exact hr)]

/-! Row operations -/

/-- An invertible row operation keeps what the table is. -/
theorem tableOf_rowOp {n m : Nat} {A : IMat} {T T' : List GRow} (h : TableOf n m A T) (h' : TableOk n m T')
    (E : Matrix (Fin n) (Fin n) (ZMod m)) (hE : IsUnit E.det)
    (hrow : ∀ (i : Fin n) (k : Nat), k < 2 * n → (entryAt T' i k : ZMod m) = ∑ j : Fin n, E i j * (entryAt T j k : ZMod m)) :
    TableOf n m A T' := by
  have hl : leftHalf n m T' = E * leftHalf n m T := by
    ext i j
    rw [Matrix.mul_apply]
    exact hrow i j (by omega)
  have hr : rightHalf n m T' = E * rightHalf n m T := by
    ext i j
    rw [Matrix.mul_apply]
    exact hrow i (n + j) (by omega)
  refine ⟨h', ?_, ?_⟩
  · rw [hl, hr, h.2.1, Matrix.mul_assoc]
  · rw [hr, Matrix.det_mul]
    exact hE.mul h.2.2

/-- Adding multiples of one row to the others is invertible. -/
theorem isUnit_det_addRows {n m : Nat} (p : Fin n) (v : Fin n → ZMod m) (hv : v p = 0) :
    IsUnit (Matrix.of fun i j : Fin n => (if i = j then 1 else 0) + (if j = p then v i else 0)).det := by
  have he : (Matrix.of fun i j : Fin n => (if i = j then (1 : ZMod m) else 0) + (if j = p then v i else 0)) =
      1 + Matrix.replicateCol Unit v * Matrix.replicateRow Unit (fun j => if j = p then (1 : ZMod m) else 0) := by
    ext i j
    simp [Matrix.mul_apply, Matrix.one_apply]
  rw [he, Matrix.det_one_add_replicateCol_mul_replicateRow]
  simp [dotProduct, hv]

/-- The pass of step 1 and the clearing of step 3: rows lose a multiple of row `p`. -/
theorem tableOf_subRows {n m : Nat} {A : IMat} {T : List GRow} (hm : 0 < m) (h : TableOf n m A T) {p : Nat} (hp : p < n)
    (q : Nat → Nat) (on : Nat → Bool) (hon : on p = false) :
    TableOf n m A (T.mapIdx fun r row => if on r then rowSub m (q r) (T.getD p []) row else row) := by
  have hok : TableOk n m (T.mapIdx fun r row => if on r then rowSub m (q r) (T.getD p []) row else row) := by
    refine tableOk_mapIdx h.1 fun r hr => ?_
    have h1 := h.1.2 r hr
    have h2 := h.1.2 p hp
    split
    · exact ⟨length_rowSub h2.1 h1.1, fun k => rowSub_lt hm h2.1 h1.1 k⟩
    · exact h1
  refine tableOf_rowOp h hok _
    (isUnit_det_addRows ⟨p, hp⟩ (fun i => if on i then - (q i : ZMod m) else 0) (by simp [hon])) fun i k hk => ?_
  rw [entryAt_mapIdx h.1 _ i.isLt]
  simp only [Matrix.of_apply, add_mul, ite_mul, one_mul, zero_mul, sum_add_distrib, sum_ite_eq, sum_ite_eq', mem_univ, if_true]
  have h1 := h.1.2 i i.isLt
  have h2 := h.1.2 p hp
  cases hc : on i with
  | true =>
    simp only [if_true]
    rw [getD_rowSub h2.1 h1.1 hk, residue_cast _ hm]
    push_cast
    rw [entryAt, entryAt]
    ring
  | false => simp [entryAt]

/-- The exchange of step 2. -/
theorem tableOf_swap {n m : Nat} {A : IMat} {T : List GRow} (h : TableOf n m A T) {a b : Nat} (ha : a < n) (hb : b < n) :
    TableOf n m A (swapRows T a b) ∧ ∀ r k, r < n → entryAt (swapRows T a b) r k =
      if r = a then entryAt T b k else if r = b then entryAt T a k else entryAt T r k := by
  have hent : ∀ r k, r < n → entryAt (swapRows T a b) r k =
      if r = a then entryAt T b k else if r = b then entryAt T a k else entryAt T r k := by
    intro r k hr
    rw [swapRows, entryAt_mapIdx h.1 _ hr]
    unfold entryAt
    split
    · rfl
    · split <;> rfl
  refine ⟨?_, hent⟩
  have hok : TableOk n m (swapRows T a b) := by
    refine tableOk_mapIdx h.1 fun r hr => ?_
    split
    · exact h.1.2 b hb
    · split
      · exact h.1.2 a ha
      · exact h.1.2 r hr
  have hsq : ((Equiv.swap (⟨a, ha⟩ : Fin n) ⟨b, hb⟩).permMatrix (ZMod m)).det =
      ((Equiv.Perm.sign (Equiv.swap (⟨a, ha⟩ : Fin n) ⟨b, hb⟩) : ℤ) : ZMod m) := Matrix.det_permutation _
  refine tableOf_rowOp h hok ((Equiv.swap (⟨a, ha⟩ : Fin n) ⟨b, hb⟩).permMatrix (ZMod m)) ?_ fun i k hk => ?_
  · rw [hsq]
    rcases Int.units_eq_one_or (Equiv.Perm.sign (Equiv.swap (⟨a, ha⟩ : Fin n) ⟨b, hb⟩)) with e | e <;> rw [e] <;> simp
  · rw [hent i k i.isLt]
    simp only [Equiv.Perm.permMatrix, PEquiv.toMatrix_apply, Equiv.toPEquiv_apply, Option.mem_some_iff, ite_mul, one_mul, zero_mul,
      sum_ite_eq, mem_univ, if_true, Equiv.swap_apply_def, Fin.ext_iff (a := i)]
    split
    · rfl
    · split <;> rfl

/-- The scaling of step 2 by a unit. -/
theorem tableOf_scale {n m : Nat} {A : IMat} {T : List GRow} (hm : 0 < m) (h : TableOf n m A T) {c u : Nat}
    (hu : IsUnit (u : ZMod m)) : TableOf n m A (T.mapIdx fun r row => if r = c then rowScale m u row else row) := by
  have hok : TableOk n m (T.mapIdx fun r row => if r = c then rowScale m u row else row) := by
    refine tableOk_mapIdx h.1 fun r hr => ?_
    have h1 := h.1.2 r hr
    split
    · exact ⟨by simp only [rowScale, List.length_map, h1.1], fun k => rowScale_lt hm h1.1 k⟩
    · exact h1
  refine tableOf_rowOp h hok (Matrix.diagonal fun i => if i.val = c then (u : ZMod m) else 1) ?_ fun i k hk => ?_
  · rw [Matrix.det_diagonal]
    refine IsUnit.prod_univ_iff.mpr fun i => ?_
    split
    · exact hu
    · exact isUnit_one
  · rw [entryAt_mapIdx h.1 _ i.isLt]
    simp only [Matrix.diagonal_apply, ite_mul, zero_mul, sum_ite_eq, mem_univ, if_true]
    have h1 := h.1.2 i i.isLt
    split
    · rw [getD_rowScale h1.1 hk, residue_cast _ hm]
      push_cast
      rfl
    · rw [one_mul]
      rfl

/-! The steps of the algorithm -/

/-- The set `S` of step 1. -/
theorem mem_liveRows {T : List GRow} {n lo c r : Nat} : r ∈ liveRows T n lo c ↔ r < n ∧ lo ≤ r ∧ entryAt T r c ≠ 0 := by
  simp [liveRows]

/-- `S` has at most one row when all its rows are one row. -/
theorem liveRows_short {T : List GRow} {n lo c p : Nat} (h : ∀ r ∈ liveRows T n lo c, r = p) : (liveRows T n lo c).length ≤ 1 := by
  have hn : (liveRows T n lo c).Nodup := List.Nodup.filter _ List.nodup_range
  match hl : liveRows T n lo c, hn, h with
  | [], _, _ => simp
  | [_], _, _ => simp
  | a :: b :: l, hn, h =>
    have h1 := h a (by simp)
    have h2 := h b (by simp)
    simp [h1, h2] at hn

/-- The row chosen in step 1 is one of `S` with the smallest entry. -/
theorem smallestRow_spec (T : List GRow) (c : Nat) : ∀ (rs : List Nat) (best : Nat),
    smallestRow T c best rs ∈ best :: rs ∧ ∀ r ∈ best :: rs, entryAt T (smallestRow T c best rs) c ≤ entryAt T r c := by
  intro rs
  induction rs with
  | nil => intro best; simp [smallestRow]
  | cons a rs ih =>
    intro best
    rw [smallestRow]
    obtain ⟨h1, h2⟩ := ih (if entryAt T a c < entryAt T best c then a else best)
    have h3 := h2 _ (List.mem_cons_self ..)
    split at h1
    · rw [if_pos ‹_›] at h2 h3 ⊢
      refine ⟨by simp at h1 ⊢; tauto, fun r hr => ?_⟩
      simp at hr
      rcases hr with rfl | rfl | hr
      · omega
      · omega
      · exact h2 r (by simp [hr])
    · rw [if_neg ‹_›] at h2 h3 ⊢
      refine ⟨by simp at h1 ⊢; tauto, fun r hr => ?_⟩
      simp at hr
      rcases hr with rfl | rfl | hr
      · omega
      · omega
      · exact h2 r (by simp [hr])

/-- Every entry of a table is a residue. -/
theorem entryAt_lt {n m : Nat} {T : List GRow} (hm : 0 < m) (h : TableOk n m T) (r k : Nat) : entryAt T r k < m := by
  by_cases hr : r < n
  · exact (h.2 r hr).2 k
  · unfold entryAt
    rw [List.getD_eq_default T [] (by rw [h.1]; omega)]
    simpa using hm

/-- An entry after rows lost a multiple of row `p`. -/
theorem entryAt_subRows {n m : Nat} {T : List GRow} (h : TableOk n m T) {p : Nat} (hp : p < n)
    (q : Nat → Nat) (on : Nat → Bool) {r k : Nat} (hr : r < n) (hk : k < 2 * n) :
    entryAt (T.mapIdx fun r row => if on r then rowSub m (q r) (T.getD p []) row else row) r k =
      if on r then residue ((entryAt T r k : Nat) - (q r : Int) * (entryAt T p k : Nat)) m else entryAt T r k := by
  rw [entryAt_mapIdx h _ hr]
  split
  · rw [getD_rowSub (h.2 p hp).1 (h.2 r hr).1 hk]
    rfl
  · rfl

/-- Subtracting the quotient's multiple leaves the remainder (R140, step 1). -/
theorem residue_sub_div {x y m : Nat} (hx : x < m) : residue ((x : Nat) - ((x / y : Nat) : Int) * (y : Nat)) m = x % y := by
  have h : ((x : Nat) : Int) - ((x / y : Nat) : Int) * (y : Nat) = ((x % y : Nat) : Int) := by
    have := Nat.div_add_mod x y
    have e : ((y * (x / y) + x % y : Nat) : Int) = (x : Int) := by rw [this]
    push_cast at e ⊢
    linarith [mul_comm ((y:Int)) ((x:Int)/(y:Int))]
  rw [h]
  exact residue_of_lt (lt_of_le_of_lt (Nat.mod_le _ _) hx)

/-- One pass of step 1 keeps row `p` and takes every other live entry of the column below row `p`'s. -/
theorem reducePass_spec {n m c : Nat} {A : IMat} {T : List GRow} (hm : 0 < m) (hT : TableOf n m A T) (hC : ColumnsDone n c T) (hc : c < n)
    {p : Nat} (hp : p ∈ liveRows T n c c) :
    TableOf n m A (reducePass m T c p (liveRows T n c c)) ∧ ColumnsDone n c (reducePass m T c p (liveRows T n c c)) ∧
    entryAt (reducePass m T c p (liveRows T n c c)) p c = entryAt T p c ∧
    ∀ r, r < n → c ≤ r → r ≠ p → entryAt (reducePass m T c p (liveRows T n c c)) r c < entryAt T p c := by
  have hp' := mem_liveRows.mp hp
  have e : reducePass m T c p (liveRows T n c c) = (T.mapIdx fun r row => if (decide (r ≠ p) && (liveRows T n c c).contains r) then rowSub m (entryAt T r c / entryAt T p c) (T.getD p []) row else row) := rfl
  rw [e]
  have hent := fun {r k} (hr : r < n) (hk : k < 2 * n) => entryAt_subRows hT.1 hp'.1 (fun r => entryAt T r c / entryAt T p c) (fun r => decide (r ≠ p) && (liveRows T n c c).contains r) (r := r) (k := k) hr hk
  refine ⟨tableOf_subRows hm hT hp'.1 (fun r => entryAt T r c / entryAt T p c) (fun r => decide (r ≠ p) && (liveRows T n c c).contains r) (by simp), ?_, ?_, ?_⟩
  · intro i j hi hj
    rw [hent hi (by omega)]
    have h0 : entryAt T p j = 0 := by rw [hC p j hp'.1 hj, if_neg (by omega)]
    rw [h0]
    split
    · simp
      rw [residue_of_lt (entryAt_lt hm hT.1 _ _)]
      exact hC i j hi hj
    · exact hC i j hi hj
  · rw [hent hp'.1 (by omega)]
    simp
  · intro r hr hcr hne
    rw [hent hr (by omega)]
    by_cases hl : r ∈ liveRows T n c c
    · rw [if_pos (by simp [hne, hl])]
      rw [residue_sub_div (entryAt_lt hm hT.1 _ _)]
      exact Nat.mod_lt _ (Nat.pos_of_ne_zero hp'.2.2)
    · rw [if_neg (by simp [hl])]
      have : entryAt T r c = 0 := by by_contra h; exact hl (mem_liveRows.mpr ⟨hr, hcr, h⟩)
      rw [this]
      exact Nat.pos_of_ne_zero hp'.2.2

/-- Step 1 stops when `S` has at most one row. -/
theorem reduceColumn_short {m n c : Nat} : ∀ (k : Nat) {T : List GRow}, (liveRows T n c c).length ≤ 1 → reduceColumn m n c k T = T := by
  intro k T h
  cases k with
  | zero => rfl
  | succ k =>
    rw [reduceColumn]
    match hl : liveRows T n c c, h with
    | [], _ => simp
    | [_], _ => simp
    | a :: b :: l, h => simp at h

/-- Step 1 ends with at most one row in `S`, on any bound not below some entry of the column. -/
theorem reduceColumn_spec {n m c : Nat} {A : IMat} (hm : 0 < m) (hc : c < n) : ∀ (k : Nat) (T : List GRow), TableOf n m A T → ColumnsDone n c T →
    (liveRows T n c c = [] ∨ ∃ r ∈ liveRows T n c c, entryAt T r c ≤ k) →
    TableOf n m A (reduceColumn m n c k T) ∧ ColumnsDone n c (reduceColumn m n c k T) ∧ (liveRows (reduceColumn m n c k T) n c c).length ≤ 1 := by
  intro k
  induction k with
  | zero =>
    intro T hT hC h
    refine ⟨hT, hC, ?_⟩
    rcases h with h | ⟨r, hr, h⟩
    · rw [reduceColumn, h]
      simp
    · exact absurd (Nat.le_zero.mp h) (mem_liveRows.mp hr).2.2
  | succ k ih =>
    intro T hT hC h
    match hl : liveRows T n c c with
    | [] => rw [reduceColumn_short _ (by simp [hl])]; exact ⟨hT, hC, by simp [hl]⟩
    | [_] => rw [reduceColumn_short _ (by simp [hl])]; exact ⟨hT, hC, by simp [hl]⟩
    | a :: b :: l =>
      obtain ⟨s1, s2⟩ := smallestRow_spec T c (b :: l) a
      rw [← hl] at s1 s2
      set p := smallestRow T c a (b :: l) with hpd
      have e : reduceColumn m n c (k+1) T = reduceColumn m n c k (reducePass m T c p (liveRows T n c c)) := by
        rw [reduceColumn, hl]
      rw [e]
      obtain ⟨t1, t2, t3, t4⟩ := reducePass_spec hm hT hC hc s1
      rcases h with h | ⟨r, hr, h⟩
      · rw [h] at hl
        cases hl
      have hpk : entryAt T p c ≤ k + 1 := le_trans (s2 r hr) h
      by_cases hx : ∃ r ∈ liveRows (reducePass m T c p (liveRows T n c c)) n c c, r ≠ p
      · obtain ⟨r, hr, hne⟩ := hx
        have hr' := mem_liveRows.mp hr
        have := t4 r hr'.1 hr'.2.1 hne
        exact ih _ t1 t2 (.inr ⟨r, hr, by omega⟩)
      · push Not at hx
        have := liveRows_short hx
        rw [reduceColumn_short k this]
        exact ⟨t1, t2, this⟩

/-- A column with no entry, or one entry that is no unit, below the finished part: the matrix is singular (R140). -/
theorem notUnit_of_column {n m c : Nat} {A : IMat} {T : List GRow} (hm : 2 ≤ m) (hT : TableOf n m A T) (hC : ColumnsDone n c T) (hc : c < n)
    (h : ∀ r, r < n → c ≤ r → entryAt T r c = 0 ∨ (∃ p : Nat, (∀ r', r' < n → c ≤ r' → r' ≠ r → entryAt T r' c = 0) ∧ entryAt T r c = p ∧ gcdOf p m ≠ 1)) :
    ¬ Unimodular n A m := by
  intro hu
  have h0 : 0 < m := by omega
  have hA : IsUnit (toZ n m A).det := by rw [← detZ_cast]; exact (isUnit_iff_gcdOf h0 _).mpr hu
  have hL : IsUnit (leftHalf n m T).det := by rw [hT.2.1, Matrix.det_mul]; exact hT.2.2.mul hA
  have hN : (leftHalf n m T)⁻¹ * leftHalf n m T = 1 := Matrix.nonsing_inv_mul _ hL
  set N := (leftHalf n m T)⁻¹
  have row : ∀ j : Fin n, ∑ i : Fin n, N ⟨c, hc⟩ i * (entryAt T i j : ZMod m) = if (⟨c, hc⟩ : Fin n) = j then 1 else 0 := by
    intro j
    have := congrFun (congrFun hN ⟨c, hc⟩) j
    rw [Matrix.mul_apply, Matrix.one_apply] at this
    exact this
  have hlow : ∀ j : Fin n, j.val < c → N ⟨c, hc⟩ j = 0 := by
    intro j hj
    have := row j
    rw [if_neg (by simp [Fin.ext_iff]; omega)] at this
    rw [← this]
    symm
    rw [Finset.sum_eq_single j]
    · rw [hC j j j.isLt hj, if_pos rfl]
      simp
    · intro i _ hne
      rw [hC i j i.isLt hj, if_neg (by simpa [Fin.ext_iff] using hne)]
      simp
    · simp
  have hrow := row ⟨c, hc⟩
  rw [if_pos rfl] at hrow
  have : Fact (1 < m) := ⟨by omega⟩
  by_cases hz : ∃ r, r < n ∧ c ≤ r ∧ entryAt T r c ≠ 0
  · obtain ⟨r, hr, hcr, hne⟩ := hz
    rcases h r hr hcr with e | ⟨p, ho, hp, hg⟩
    · exact hne e
    · rw [Finset.sum_eq_single ⟨r, hr⟩] at hrow
      · have : IsUnit ((p : Nat) : ZMod m) := by
          simp only [hp] at hrow
          exact IsUnit.of_mul_eq_one _ (by rw [mul_comm]; exact hrow)
        exact hg ((ZMod.isUnit_iff_coprime p m).mp this)
      · intro i _ hne
        by_cases hi : i.val < c
        · rw [hlow i hi]
          simp
        · rw [ho i i.isLt (by omega) (by intro e; exact hne (Fin.ext e))]
          simp
      · simp
  · push Not at hz
    rw [Finset.sum_eq_zero] at hrow
    · exact zero_ne_one hrow
    · intro i _
      by_cases hi : i.val < c
      · rw [hlow i hi]
        simp
      · simp only
        rw [hz i i.isLt (by omega)]
        simp

/-- Steps 2 and 3: SINGULAR only for a singular matrix, else one more column of the identity. -/
theorem pivotColumn_spec {n m c : Nat} {A : IMat} {T : List GRow} (hm : 2 ≤ m) (hT : TableOf n m A T) (hC : ColumnsDone n c T) (hc : c < n)
    (hl : (liveRows T n c c).length ≤ 1) :
    (pivotColumn m n c T = none → ¬ Unimodular n A m) ∧
    (∀ T', pivotColumn m n c T = some T' → TableOf n m A T' ∧ ColumnsDone n (c + 1) T') := by
  have h0 : 0 < m := by omega
  unfold pivotColumn
  match hL : liveRows T n c c with
  | [] =>
    refine ⟨fun _ => notUnit_of_column hm hT hC hc fun r hr hcr => .inl ?_, fun T' h => by cases h⟩
    by_contra h
    have : r ∈ liveRows T n c c := mem_liveRows.mpr ⟨hr, hcr, h⟩
    rw [hL] at this
    cases this
  | a :: b :: l => rw [hL] at hl; simp at hl
  | [p] =>
    have hp : p ∈ liveRows T n c c := by rw [hL]; simp
    have hp' := mem_liveRows.mp hp
    obtain ⟨hs, hse⟩ := tableOf_swap hT hc hp'.1
    simp only
    have hd : entryAt (swapRows T c p) c c = entryAt T p c := by rw [hse c c hc, if_pos rfl]
    rw [hd]
    by_cases hg : gcdOf (entryAt T p c) m ≠ 1
    · rw [if_pos hg]
      refine ⟨fun _ => notUnit_of_column hm hT hC hc fun r hr hcr => ?_, fun T' h => by cases h⟩
      by_cases hz : entryAt T r c = 0
      · exact .inl hz
      · have hrl : r ∈ liveRows T n c c := mem_liveRows.mpr ⟨hr, hcr, hz⟩
        rw [hL] at hrl
        simp at hrl
        subst hrl
        refine .inr ⟨_, fun r' hr' hcr' hne => ?_, rfl, hg⟩
        by_contra hz'
        have hrl : r' ∈ liveRows T n c c := mem_liveRows.mpr ⟨hr', hcr', hz'⟩
        rw [hL] at hrl
        simp at hrl
        exact hne hrl
    · rw [if_neg hg]
      push Not at hg
      refine ⟨fun h => (by cases h), fun T' h => ?_⟩
      cases Option.some.inj h
      set d := entryAt T p c
      set u := invMod m d
      have hres : residue (d : Int) m = d := residue_of_lt (entryAt_lt h0 hT.1 _ _)
      have hmul := invMod_mul h0 (d := (d : Int)) (by rw [hres]; exact hg)
      have hud : (u : ZMod m) * (d : ZMod m) = 1 := by simpa using hmul
      have hu : IsUnit (u : ZMod m) := IsUnit.of_mul_eq_one _ hud
      have hsc := tableOf_scale h0 hs (c := c) hu
      set T1 := swapRows T c p
      set T2 := T1.mapIdx fun r row => if r = c then rowScale m u row else row with hT2
      have e2 : ∀ r k, r < n → k < 2 * n → entryAt T2 r k = if r = c then residue ((u : Int) * (entryAt T1 c k : Nat)) m else entryAt T1 r k := by
        intro r k hr hk
        rw [hT2, entryAt_mapIdx hs.1 _ hr]
        split
        · subst r
          rw [getD_rowScale (hs.1.2 c hc).1 hk]
          rfl
        · rfl
      have one : entryAt T2 c c = 1 := by
        rw [e2 c c hc (by omega), if_pos rfl, hd]
        rw [residue_eq_one_iff hm]
        push_cast
        exact hud
      have hC1 : ColumnsDone n c T1 := by
        intro i j hi hj
        rw [hse i j hi]
        split
        · subst i
          rw [hC p j hp'.1 hj, if_neg (by omega), if_neg (by omega)]
        · split
          · subst i
            rw [hC c j hc hj, if_neg (by omega), if_neg (by omega)]
          · exact hC i j hi hj
      have hC2 : ColumnsDone n c T2 := by
        intro i j hi hj
        rw [e2 i j hi (by omega)]
        split
        · subst i
          rw [hC1 c j hc hj, if_neg (by omega)]
          simp [residue]
        · exact hC1 i j hi hj
      have ec : clearColumn m c T2 = T2.mapIdx fun r row => if (decide (r ≠ c) && decide (entryAt T2 r c ≠ 0)) then rowSub m (entryAt T2 r c) (T2.getD c []) row else row := rfl
      have hent := fun {r k} (hr : r < n) (hk : k < 2 * n) => entryAt_subRows hsc.1 hc (fun r => entryAt T2 r c) (fun r => decide (r ≠ c) && decide (entryAt T2 r c ≠ 0)) (r := r) (k := k) hr hk
      rw [ec]
      refine ⟨tableOf_subRows h0 hsc hc (fun r => entryAt T2 r c) (fun r => decide (r ≠ c) && decide (entryAt T2 r c ≠ 0)) (by simp), ?_⟩
      intro i j hi hj
      rw [hent hi (by omega)]
      by_cases hjc : j = c
      · subst hjc
        rw [one]
        split
        · rename_i hh
          simp at hh
          rw [if_neg hh.1]
          simp [residue]
        · rename_i hh
          simp at hh
          by_cases hij : i = j
          · subst hij
            rw [one, if_pos rfl]
          · rw [if_neg hij, hh hij]
      · have h0' : entryAt T2 c j = 0 := by rw [hC2 c j hc (by omega), if_neg (by omega)]
        rw [h0']
        split
        · simp
          rw [residue_of_lt (entryAt_lt h0 hsc.1 _ _)]
          exact hC2 i j hi (by omega)
        · exact hC2 i j hi (by omega)

/-- All columns. -/
theorem gaussColumns_spec {n m : Nat} {A : IMat} (hm : 2 ≤ m) : ∀ (k : Nat) (T : List GRow), k ≤ n → TableOf n m A T → ColumnsDone n (n - k) T →
    (gaussColumns m n k T = none → ¬ Unimodular n A m) ∧ (∀ T', gaussColumns m n k T = some T' → TableOf n m A T' ∧ ColumnsDone n n T') := by
  intro k
  induction k with
  | zero => intro T _ hT hC; refine ⟨fun h => (by cases h), fun T' h => ?_⟩; cases Option.some.inj h; exact ⟨hT, hC⟩
  | succ k ih =>
    intro T hk hT hC
    have hc : n - (k + 1) < n := by omega
    have hlive : liveRows T n (n-(k+1)) (n-(k+1)) = [] ∨ ∃ r ∈ liveRows T n (n-(k+1)) (n-(k+1)), entryAt T r (n-(k+1)) ≤ m := by
      match hl : liveRows T n (n-(k+1)) (n-(k+1)) with
      | [] => exact .inl rfl
      | a :: l => exact .inr ⟨a, by simp, Nat.le_of_lt (entryAt_lt (by omega) hT.1 _ _)⟩
    obtain ⟨t1, t2, t3⟩ := reduceColumn_spec (by omega) hc m T hT hC hlive
    obtain ⟨p1, p2⟩ := pivotColumn_spec hm t1 t2 hc t3
    rw [gaussColumns]
    match hp : pivotColumn m n (n-(k+1)) (reduceColumn m n (n-(k+1)) m T) with
    | none => exact ⟨fun _ => p1 hp, fun T' h => by cases h⟩
    | some T1 =>
      obtain ⟨q1, q2⟩ := p2 T1 hp
      simp only
      have := ih T1 (by omega) q1 (by rw [show n - k = n - (k+1) + 1 by omega]; exact q2)
      exact this

/-- The table the algorithm starts with. -/
theorem gaussTable_spec (n m : Nat) (A : IMat) (hm : 2 ≤ m) : TableOf n m A (gaussTable n A m) := by
  have hrow : ∀ r, r < n → (gaussTable n A m).getD r [] = ((List.range n).map fun j => residue (A r j) m) ++ ((List.range n).map fun j => if r = j then 1 else 0) := by
    intro r hr
    simp [gaussTable, List.getD_eq_getElem?_getD, hr]
  have hl : ∀ r j, r < n → j < n → entryAt (gaussTable n A m) r j = residue (A r j) m := by
    intro r j hr hj
    unfold entryAt
    rw [hrow r hr]
    simp [List.getD_eq_getElem?_getD, hj, List.getElem?_append]
  have hr : ∀ r j, r < n → j < n → entryAt (gaussTable n A m) r (n + j) = if r = j then 1 else 0 := by
    intro r j hr hj
    unfold entryAt
    rw [hrow r hr]
    simp [List.getD_eq_getElem?_getD, hj]
  have h1 : rightHalf n m (gaussTable n A m) = 1 := by
    ext i j
    simp [rightHalf, hr i j i.isLt j.isLt, Matrix.one_apply, Fin.ext_iff]
  have h2 : leftHalf n m (gaussTable n A m) = toZ n m A := by
    ext i j
    simp only [leftHalf, toZ, Matrix.of_apply]
    rw [hl i j i.isLt j.isLt, residue_cast _ (by omega)]
  refine ⟨⟨by simp [gaussTable], fun r hr' => ?_⟩, by rw [h1, h2, Matrix.one_mul], by rw [h1]; simp⟩
  have hlen : ((gaussTable n A m).getD r []).length = 2 * n := by rw [hrow r hr']; simp; omega
  refine ⟨hlen, fun k => getD_lt_of_short hlen (by omega) fun k hk => ?_⟩
  by_cases hk' : k < n
  · have := hl r k hr' hk'
    unfold entryAt at this
    rw [this]
    exact residue_lt _ (by omega)
  · obtain ⟨j, rfl⟩ : ∃ j, k = n + j := ⟨k - n, by omega⟩
    have := hr r j hr' (by omega); unfold entryAt at this; rw [this]; split <;> omega

end Sys2Proof.Machine
end

