-- ==== Sys2Proof/Laws/Invariant.lean ====
section
/-! SUPPORT. What a later command reads of an active region, and what the parts of the invariant depend on. -/

namespace Sys2Proof.Machine

/-- A region that holds residues of a legal radix reads as those residues, at every operand position. -/
theorem actM_of_region {t : State} {k : MReg} {C : Nat → Nat → Nat} {n m : Nat} (hm : m ≤ 2147483647) (hn : n ≤ 8)
    (hC : ∀ i j, C i j < m) (he : ∀ i j : Fin 8, i.val < n → j.val < n → t.elemM k i j = Elem.holds (C i j))
    (pos : Nat) {i j : Nat} (hi : i < n) (hj : j < n) : t.actM pos k i j = (C i j : Int) :=
  actM_of_holds (he ⟨i, by omega⟩ ⟨j, by omega⟩ hi hj) (by
    have h := hC i j
    simp only
    omega) pos

theorem actV_of_region {t : State} {k : VReg} {y : Nat → Nat} {n m : Nat} (hm : m ≤ 2147483647) (hn : n ≤ 8)
    (hy : ∀ i, y i < m) (he : ∀ i : Fin 8, i.val < n → t.elemV k i = Elem.holds (y i))
    (pos : Nat) {i : Nat} (hi : i < n) : t.actV pos k i = (y i : Int) :=
  actV_of_holds (he ⟨i, by omega⟩ hi) (by
    have h := hy i
    simp only
    omega) pos

/-- A written region reads the same in every state that holds the same elements, at every position (93_implementation_defined.md U1). -/
theorem actM_eq_of_elem {s t : State} {k : MReg} {n : Nat} (h : s.writtenM k n) (hn : n ≤ 8)
    (he : ∀ i j, t.elemM k i j = s.elemM k i j) (p q : Nat) {i j : Nat} (hi : i < n) (hj : j < n) :
    t.actM p k i j = s.actM q k i j := by
  have h1 := actM_of_written (h ⟨i, by omega⟩ ⟨j, by omega⟩ hi hj) q
  have h2 : t.actM p k i j = sint (t.elemM k ⟨i, by omega⟩ ⟨j, by omega⟩).word :=
    actM_of_written (i := ⟨i, by omega⟩) (j := ⟨j, by omega⟩) (by rw [he]; exact h ⟨i, by omega⟩ ⟨j, by omega⟩ hi hj) p
  rw [h2, he]
  exact h1.symm

theorem actV_eq_of_elem {s t : State} {k : VReg} {n : Nat} (h : s.writtenV k n) (hn : n ≤ 8)
    (he : ∀ i, t.elemV k i = s.elemV k i) (p q : Nat) {i : Nat} (hi : i < n) : t.actV p k i = s.actV q k i := by
  have h1 := actV_of_written (h ⟨i, by omega⟩ hi) q
  have h2 : t.actV p k i = sint (t.elemV k ⟨i, by omega⟩).word :=
    actV_of_written (j := ⟨i, by omega⟩) (by rw [he]; exact h ⟨i, by omega⟩ hi) p
  rw [h2, he]
  exact h1.symm

/-- With `INV_VALID = 0` nothing is claimed of M1. -/
theorem inverseOk_of_clear {t : State} (h : t.invValid = false) : t.InverseOk :=
  fun h' => Bool.noConfusion (h.symm.trans h')

/-- What `INV_VALID` says depends on M0, M1, `RADIX` and `N` alone (10_state.md R29). -/
theorem inverseOk_congr {s t : State} (h : s.InverseOk) (h0 : ∀ i j, t.elemM .m0 i j = s.elemM .m0 i j)
    (h1 : ∀ i j, t.elemM .m1 i j = s.elemM .m1 i j) (hr : t.radix = s.radix) (hn : t.n = s.n)
    (hv : t.invValid = true → s.invValid = true) : t.InverseOk := by
  intro ht
  have hs : t.size = s.size := by simp only [State.size, hn]
  have hm : t.modulus = s.modulus := by simp only [State.modulus, hr]
  obtain ⟨a, b, c, d, e⟩ := h (hv ht)
  have h8 : s.size ≤ 8 := ((nLegal_iff s).mp b).2
  refine ⟨by simpa only [State.radixLegal, hr] using a, by simpa only [State.nLegal, hn] using b, ?_, ?_, ?_⟩
  · intro i j hi hj
    rw [h1]
    exact c i j (hs ▸ hi) (hs ▸ hj)
  · intro i j hi hj
    rw [h1, hm]
    exact d i j (hs ▸ hi) (hs ▸ hj)
  · intro w
    have w0 : s.writtenM .m0 s.size := fun i j hi hj => h0 i j ▸ w i j (hs.symm ▸ hi) (hs.symm ▸ hj)
    obtain ⟨e1, e2⟩ := e w0
    rw [hs, hm]
    exact ⟨identityProduct_congr (fun i j hi hj => (actM_eq_of_elem w0 h8 h0 0 0 hi hj).symm)
        (fun i j hi hj => (actM_eq_of_elem c h8 h1 1 1 hi hj).symm) e1,
      identityProduct_congr (fun i j hi hj => (actM_eq_of_elem c h8 h1 0 0 hi hj).symm)
        (fun i j hi hj => (actM_eq_of_elem w0 h8 h0 1 1 hi hj).symm) e2⟩

end Sys2Proof.Machine
end

