-- ==== Sys2Proof/Laws/PerInstr.lean ====
section
/-! SUPPORT. Statements made per instruction: every command's word has an `OP` of the opcode map (30_encoding.md R94) and `Z = 0`
(R91). -/

namespace Sys2Proof.Laws.EncodedOp

open Sys2Proof

/-- The word of a command has an `OP` of the map and `Z = 0`. -/
def Statement (i : Instr) : Prop :=
  (fieldUse ((encode i).extractLsb' 24 8).toNat).isSome = true ∧ (encode i).extractLsb' 8 4 = 0#4

/-- The fields of a packed word. -/
theorem packed {op rd ra rb imm : Nat} (h : (fieldUse (BitVec.ofNat 8 op).toNat).isSome = true) :
    (fieldUse ((packFields op rd ra rb imm).extractLsb' 24 8).toNat).isSome = true ∧
      (packFields op rd ra rb imm).extractLsb' 8 4 = 0#4 := by
  rw [packFields_eq]
  have e := extract_layFields (BitVec.ofNat 8 op) (BitVec.ofNat 4 rd) (BitVec.ofNat 4 ra) (BitVec.ofNat 4 rb) 0#4
    (BitVec.ofNat 8 imm)
  exact ⟨by rw [e.1]; exact h, e.2.2.2.2.1⟩

theorem nop : Statement .nop := packed rfl

theorem mmul (md ma mb : MReg) : Statement (.mmul md ma mb) := packed rfl

theorem mvmul (vd : VReg) (ma : MReg) (vb : VReg) : Statement (.mvmul vd ma vb) := packed rfl

theorem mdet (ma : MReg) : Statement (.mdet ma) := packed rfl

theorem invchk (ma : MReg) : Statement (.invchk ma) := packed rfl

theorem minv (md ma : MReg) : Statement (.minv md ma) := packed rfl

theorem enc (vd vb : VReg) : Statement (.enc vd vb) := packed rfl

theorem dec (vd vb : VReg) : Statement (.dec vd vb) := packed rfl

theorem encpad (vd vb : VReg) (r : Nat) : Statement (.encpad vd vb r) := packed rfl

theorem decpad (vd vb : VReg) : Statement (.decpad vd vb) := packed rfl

end Sys2Proof.Laws.EncodedOp
end

