-- ==== Sys2Proof/Tests/Slice0.lean ====
section
/-! SUPPORT. The model's own tests. Expected results come from spec/: 30_encoding.md R101 and 95_test_vectors.md, whose vector is named
at each test. Then one witness for the hypotheses of each statement that has some, at boundary values where a statement has
several clauses. -/

namespace Sys2Proof.Tests

open Sys2Proof Sys2Proof.Machine

/-! ## Small states -/

/-- Reset, then `RADIX` and `N` written. -/
def config (m n : Nat) : State := { State.reset with radix := word m, n := BitVec.ofNat 4 n }

/-- A matrix register written row by row. -/
def withM (k : MReg) (rows : List (List Int)) (s : State) : State :=
  (rows.zipIdx.flatMap fun r => r.1.zipIdx.map fun e => (r.2, e.2, e.1)).foldl
    (fun s e => s.setElemM k (Fin.ofNat 8 e.1) (Fin.ofNat 8 e.2.1) (BitVec.ofInt 32 e.2.2)) s

/-- A vector register written from element 0. -/
def withV (k : VReg) (xs : List Int) (s : State) : State :=
  xs.zipIdx.foldl (fun s e => s.setElemV k (Fin.ofNat 8 e.2) (BitVec.ofInt 32 e.1)) s

/-- The words of an active region, as numbers. -/
def rowsOf (s : State) (k : MReg) (n : Nat) : List (List Nat) :=
  (List.range n).map fun i => (List.range n).map fun j => uint (s.elemM k (Fin.ofNat 8 i) (Fin.ofNat 8 j)).word

def slotsOf (s : State) (k : VReg) (n : Nat) : List Nat := (List.range n).map fun j => uint (s.elemV k (Fin.ofNat 8 j)).word

/-- The next state of an outcome; reset where there is none. -/
def after (o : Host.Outcome State Fault Refusal) : State :=
  match o with
  | .next s => s
  | .fault _ => State.reset
  | .refused _ => State.reset

/-- K26 of 95_test_vectors.md: key `[[3,3],[2,5]]`, `RADIX = 26`, `N = 2`. -/
def k26 : State := withM .m0 [[3, 3], [2, 5]] (config 26 2)

/-- K26 after `KEYINV` (95_test_vectors.md D1). -/
def k26inv : State := { withM .m1 [[15, 17], [20, 9]] k26 with invValid := true }

/-- The identity key for `RADIX = 2`, `N = 3`, with its inverse. -/
def k3inv : State :=
  { withM .m1 [[1, 0, 0], [0, 1, 0], [0, 0, 1]] (withM .m0 [[1, 0, 0], [0, 1, 0], [0, 0, 1]] (config 2 3)) with invValid := true }

/-- The identity key for `RADIX = 2`, `N = 2`, with its inverse: the least radix. -/
def k2inv : State := { withM .m1 [[1, 0], [0, 1]] (withM .m0 [[1, 0], [0, 1]] (config 2 2)) with invValid := true }

/-- A state with one more input at the port. -/
def giving (x : Input) (s : State) : State := { s with port := [x] }

/-! ## Decoding: words of 30_encoding.md R101 and 95_test_vectors.md 2.1, field by field OP RD RA RB Z IMM -/

theorem test_decode_nop : decode (0x01#8 ++ 0#4 ++ 0#4 ++ 0#4 ++ 0#4 ++ 0x00#8) = .ok .nop := by decide
theorem test_decode_mmul : decode (0x10#8 ++ 3#4 ++ 0#4 ++ 1#4 ++ 0#4 ++ 0x00#8) = .ok (.mmul .m3 .m0 .m1) := by decide
theorem test_decode_mvmul : decode (0x11#8 ++ 3#4 ++ 2#4 ++ 1#4 ++ 0#4 ++ 0x00#8) = .ok (.mvmul .v3 .m2 .v1) := by decide
theorem test_decode_mdet : decode (0x12#8 ++ 0#4 ++ 2#4 ++ 0#4 ++ 0#4 ++ 0x00#8) = .ok (.mdet .m2) := by decide
theorem test_decode_invchk : decode (0x13#8 ++ 0#4 ++ 3#4 ++ 0#4 ++ 0#4 ++ 0x00#8) = .ok (.invchk .m3) := by decide
theorem test_decode_minv : decode (0x14#8 ++ 3#4 ++ 2#4 ++ 0#4 ++ 0#4 ++ 0x00#8) = .ok (.minv .m3 .m2) := by decide
theorem test_decode_enc : decode (0x20#8 ++ 1#4 ++ 0#4 ++ 0#4 ++ 0#4 ++ 0x00#8) = .ok (.enc .v1 .v0) := by decide
theorem test_decode_dec : decode (0x21#8 ++ 2#4 ++ 0#4 ++ 1#4 ++ 0#4 ++ 0x00#8) = .ok (.dec .v2 .v1) := by decide
theorem test_decode_encpad : decode (0x22#8 ++ 1#4 ++ 0#4 ++ 0#4 ++ 0#4 ++ 0xFF#8) = .ok (.encpad .v1 .v0 255) := by decide
theorem test_decode_decpad : decode (0x23#8 ++ 2#4 ++ 0#4 ++ 1#4 ++ 0#4 ++ 0x00#8) = .ok (.decpad .v2 .v1) := by decide

theorem test_decode_reserved_opcode : decode 0x24000000#32 = .error .reservedOpcode := by decide
theorem test_decode_register_number : decode 0x10401000#32 = .error .registerNumber := by decide
theorem test_decode_unused_field : decode 0x20110000#32 = .error .unusedField := by decide
theorem test_decode_z_field : decode 0x20100100#32 = .error .zField := by decide
theorem test_decode_immediate : decode 0x21201001#32 = .error .immediate := by decide

/-! ## WellFormed: one ill-formed term for each check -/

theorem test_wf_count : (Instr.encpad .v0 .v0 256).wellFormed = false := by decide
theorem test_wf_line_matrix_number : (AsmLine.mk .mdet [.mreg 4]).wellFormed = false := by decide
theorem test_wf_line_vector_number : (AsmLine.mk .enc [.vreg 4, .vreg 0]).wellFormed = false := by decide
theorem test_wf_line_count : (AsmLine.mk .encpad [.vreg 0, .vreg 0, .imm 256]).wellFormed = false := by decide
theorem test_wf_line_kind : (AsmLine.mk .dec [.vreg 0, .mreg 0]).wellFormed = false := by decide
theorem test_wf_line_alias_kind : (AsmLine.mk .enc [.key, .vreg 0]).wellFormed = false := by decide
theorem test_wf_line_too_many : (AsmLine.mk .nop [.imm 0]).wellFormed = false := by decide
theorem test_wf_line_too_few : (AsmLine.mk .mmul [.mreg 0, .mreg 0]).wellFormed = false := by decide
theorem test_wf_loc : (Loc.reserved 0x020#9).wellFormed = false := by decide
theorem test_wf_host_wr : (HostLine.wr (.reserved 0x000#9) 0#32).wellFormed = false := by decide
theorem test_wf_host_rd : (HostLine.rd (.reserved 0x100#9) none).wellFormed = false := by decide
theorem test_wf_host_cmd : (HostLine.cmd ⟨.minv, [.key]⟩).wellFormed = false := by decide

/-! ## Commands: 95_test_vectors.md, at most two each -/

/-- F3: NOP skips the configuration check. -/
theorem test_nop : (after (exec .nop State.reset)).statusWord = 0#32 := by decide

/-- A3: in place, negative elements. -/
theorem test_mmul_in_place :
    rowsOf (after (exec (.mmul .m2 .m2 .m2) (withM .m2 [[-1, 2], [3, -4]] (config 26 2)))) .m2 2 = [[7, 16], [11, 22]] := by
  decide

/-- A8: a product into M0 clears `INV_VALID`. -/
theorem test_mmul_clears : (after (exec (.mmul .m0 .m0 .m1) k26inv)).statusWord = 0#32 := by decide

/-- B4. -/
theorem test_mvmul : slotsOf (after (exec (.mvmul .v3 .m2 .v1)
    (withV .v1 [-5, 30] (withM .m2 [[-1, 2], [3, -4]] (config 26 2))))) .v3 2 = [13, 21] := by decide

/-- B2: in place. -/
theorem test_mvmul_in_place : slotsOf (after (exec (.mvmul .v0 .m0 .v0) (withV .v0 [7, 2] k26))) .v0 2 = [1, 24] := by decide

/-- C6. -/
theorem test_mdet : uint (after (exec (.mdet .m0)
    (withM .m0 [[6, 24, 1], [13, 16, 10], [20, 17, 15]] (config 26 3)))).det = 25 := by decide

/-- C1: `STATUS` 0x04. -/
theorem test_invchk : (after (exec (.invchk .m0) k26)).statusWord = 0x04#32 := by decide

/-- C9: the gcd of 0 and the radix is the radix. -/
theorem test_invchk_zero : uint (after (exec (.invchk .m0) (withM .m0 [[0]] (config 26 1)))).gcd = 26 := by decide

/-- D2: no unit in the first column. -/
theorem test_minv : rowsOf (after (exec (.minv .m1 .m0) (withM .m0 [[2, 1], [3, 1]] (config 6 2)))) .m1 2 = [[5, 1], [3, 4]] := by
  decide

/-- D12: `SINGULAR`, `STATUS` 0x51. -/
theorem test_minv_singular : (after (exec (.minv .m1 .m0) (withM .m0 [[1, 2], [3, 4]] (config 26 2)))).statusWord = 0x51#32 := by
  decide

/-- E5a: tokens outside the residues. -/
theorem test_enc : slotsOf (after (exec (.enc .v1 .v0) (withV .v0 [30, -1] k26))) .v1 2 = [9, 3] := by decide

/-- G1: `BAD_CONFIG`, the radix first. -/
theorem test_enc_bad_config : (after (step (State.reset.withFetchWord 32 0x20100000))).statusWord = 0x21#32 := by decide

/-- E2. -/
theorem test_dec : slotsOf (after (exec (.dec .v2 .v1) (withV .v1 [17, 6] k26inv))) .v2 2 = [19, 4] := by decide

/-- `INV_NOT_VALID`: `STATUS` 0x41. -/
theorem test_dec_not_valid : (after (exec (.dec .v2 .v1) k26)).statusWord = 0x41#32 := by decide

/-- E6: slot 1 of the source is not read; here nothing has written it. -/
theorem test_encpad : slotsOf (after (exec (.encpad .v1 .v0 1) (withV .v0 [19] k26))) .v1 2 = [8, 17] := by decide

/-- E16: `BAD_OPERAND` with `INV_VALID = 1`, `STATUS` 0x33. -/
theorem test_encpad_bad_operand : (after (exec (.encpad .v1 .v0 2) k26inv)).statusWord = 0x33#32 := by decide

/-- E7. -/
theorem test_decpad : uint (after (exec (.decpad .v2 .v1) (withV .v1 [21, 20] k26inv))).pad = 2 := by decide

/-- E20: `CORRUPT_PADDING` with detail 3. -/
theorem test_decpad_corrupt : uint (after (exec (.decpad .v1 .v0) (withV .v0 [14, 1] k26inv))).errinfo = 3 := by decide

/-! ## Port, reset, bridge, notation, algorithm G -/

/-- F8: bits 3:0 of `N` are kept. -/
theorem test_write_n : (after (step (giving (.write 0x002#9 0x18#32) State.reset))).portRead 0x002#9 = 8#32 := by decide

/-- F12: addresses. -/
theorem test_addresses : addrOf (.m .m2 3 5) = 0x19D#9 ∧ addrOf (.m .m1 0 0) = 0x140#9 ∧ addrOf (.v .v1 0) = 0x028#9 := by decide

/-- G7: a write to `STATUS` without bit 0 has no effect. -/
theorem test_status_bit0 : (after (step (giving (.write 0x004#9 0xFFFFFFFE#32)
    (after (exec (.enc .v1 .v0) State.reset))))).statusWord = 0x21#32 := by decide

/-- H1. -/
theorem test_reset_input : (after (step (giving .reset k26inv))).statusWord = 0#32 := by decide

/-- 20_memory.md R69: bits 7:0 at the lowest byte address. -/
theorem test_bridge : forwarded ⟨12, 4, some [0x00#8, 0x00#8, 0x10#8, 0x14#8]⟩ = some (.write 0x003#9 0x14100000#32) := by decide

/-- 30_encoding.md R98, R99: the text of lines. -/
theorem test_line_text : lineText (disassemble (.encpad .v1 .v0 1)) = "ENCPAD V1, V0, 1" ∧ lineText ⟨.keyinv, []⟩ = "KEYINV" := by
  decide

/-- 30_encoding.md R100: `cmd KEYINV` is a write of 0x14100000 to 0x003. -/
theorem test_host_line : hostInput (.cmd ⟨.keyinv, []⟩) = some (.write 0x003#9 0x14100000#32) := by decide

/-- D2 by algorithm G (40_matrix_ops.md R140). -/
theorem test_gauss : ((invGauss 2 ((withM .m0 [[2, 1], [3, 1]] (config 6 2)).actM 0 .m0) 6).map
    fun B => [B 0 0, B 0 1, B 1 0, B 1 1]) = some [5, 1, 3, 4] := by decide

/-- S4: the transactions that encrypt `[7, 2, 19]`: two full-block words, then the padded block. -/
theorem test_message : encryptMessage false 2 [5#32] 1 [7#32, 2#32, 19#32] =
    [.write 0x020#9 7#32, .write 0x021#9 2#32, .write 0x003#9 0x20100000#32, .read 0x028#9, .read 0x029#9,
      .write 0x020#9 19#32, .write 0x003#9 0x22100001#32, .read 0x028#9, .read 0x029#9] := by decide

/-- 41_cipher_ops.md R163: a padded last block by `DECPAD`, under `PAD_ALWAYS = false` for a length that is no multiple. -/
theorem test_decrypt_padded : decryptMessage false false 2 1 [1#32, 24#32, 8#32, 17#32] =
    [.write 0x020#9 1#32, .write 0x021#9 24#32, .write 0x003#9 0x21100000#32, .read 0x028#9, .read 0x029#9,
      .write 0x020#9 8#32, .write 0x021#9 17#32, .write 0x003#9 0x23100000#32, .read 0x009#9, .read 0x028#9, .read 0x029#9] := by
  decide

/-- R163: under `PAD_ALWAYS = false` an exact multiple has no padded block, so `DEC` for the last block too (95_test_vectors.md S3). -/
theorem test_decrypt_exact : decryptMessage false true 2 0 [12#32, 15#32] =
    [.write 0x020#9 12#32, .write 0x021#9 15#32, .write 0x003#9 0x21100000#32, .read 0x028#9, .read 0x029#9] := by decide

/-- S4 and S3: what the host keeps, from the words read: `[7, 2]`, then `PAD = 1` and `[19, 1]`; and `[7, 2]`, `[19, 4]` unpadded. -/
theorem test_decrypted_tokens :
    decryptedTokens false false 2 1 [7#32, 2#32, 1#32, 19#32, 1#32] = [7#32, 2#32, 19#32] ∧
    decryptedTokens false true 2 1 [7#32, 2#32, 19#32, 4#32] = [7#32, 2#32, 19#32, 4#32] := by decide

/-! ## Witnesses: each hypothesis of each statement is met -/

theorem witness_DecodeOfEncode : (Instr.encpad .v3 .v3 255).wellFormed = true ∧ (Instr.encpad .v0 .v0 0).wellFormed = true := by
  decide

theorem witness_EncodeOfDecode : decode 0x10333000#32 = .ok (.mmul .m3 .m3 .m3) ∧ decode 0x223030FF#32 = .ok (.encpad .v3 .v3 255) := by
  decide

/-- One word for each clause of R97 at its boundary, and its legal neighbours. -/
theorem witness_IllegalWords :
    decode 0x15000000#32 = .error .reservedOpcode ∧ decode 0x10400000#32 = .error .registerNumber ∧
    decode 0x10040000#32 = .error .registerNumber ∧ decode 0x10004000#32 = .error .registerNumber ∧
    decode 0x12100000#32 = .error .unusedField ∧ decode 0x20010000#32 = .error .unusedField ∧
    decode 0x14001000#32 = .error .unusedField ∧ decode 0x22000100#32 = .error .zField ∧
    decode 0x23000001#32 = .error .immediate ∧ State.reset.fault = false := by decide

theorem witness_AssembleOfDisassemble : (Instr.encpad .v0 .v1 255).wellFormed = true := by decide

theorem witness_AssembleExactly : (AsmLine.mk .mmul [.key, .inv, .mreg 3]).wellFormed = true ∧
    assemble ⟨.mmul, [.key, .inv, .mreg 3]⟩ = some (.mmul .m0 .m1 .m3) := by decide

theorem witness_StepRuns : (giving (.write 0x003#9 0x12000000#32) k26).port = [.write 0x003#9 0x12000000#32] ∧
    decode 0x12000000#32 = .ok (.mdet .m0) := by decide

theorem witness_IdleStep : k26.port = [] := by decide

/-- A read of every kind of location, at the ends of its range. -/
theorem witness_PortRead :
    (giving (.read 0x009#9) k26).port = [.read 0x009#9] ∧
    (0x020#9).toNat = 0x020 + 8 * VReg.v0.num + (0 : Fin 8).val ∧ (0x03F#9).toNat = 0x020 + 8 * VReg.v3.num + (7 : Fin 8).val ∧
    (0x100#9).toNat = 0x100 + 64 * MReg.m0.num + 8 * (0 : Fin 8).val + (0 : Fin 8).val ∧
    (0x1FF#9).toNat = 0x100 + 64 * MReg.m3.num + 8 * (7 : Fin 8).val + (7 : Fin 8).val ∧
    ((k26.setElemV .v3 7 1#32).elemV .v3 7).written = true ∧ ((k26.setElemM .m3 7 7 1#32).elemM .m3 7 7).written = true ∧
    (0x00A ≤ (0x00A#9).toNat ∧ (0x01F#9).toNat ≤ 0x01F) ∧ (0x040 ≤ (0x040#9).toNat ∧ (0x0FF#9).toNat ≤ 0x0FF) := by decide

/-- A write of every kind of location, at the ends of its range. -/
theorem witness_PortWrite :
    (giving (.write 0x001#9 26#32) k26).port = [.write 0x001#9 26#32] ∧ (0x002#9).toNat = 0x002 ∧ (0x003#9).toNat = 0x003 ∧
    (0x004#9).toNat = 0x004 ∧ (1#32).getLsbD 0 = true ∧ (0xFFFFFFFE#32).getLsbD 0 = false ∧
    (0x17F#9).toNat = 0x100 + 64 * MReg.m1.num + 8 * (7 : Fin 8).val + (7 : Fin 8).val ∧
    (0x180#9).toNat = 0x100 + 64 * MReg.m2.num + 8 * (0 : Fin 8).val + (0 : Fin 8).val ∧
    (0x005 ≤ (0x005#9).toNat ∧ (0x01F#9).toNat ≤ 0x01F) := by decide

/-- The same address, and another one that is written. -/
theorem witness_DataReadAfterWrite :
    (0x020 ≤ (0x03F#9).toNat ∧ (0x03F#9).toNat ≤ 0x03F) ∧ 0x100 ≤ (0x100#9).toNat ∧
    ({ k26 with port := [.write 0x03F#9 5#32, .read 0x100#9] } : State).port = [.write 0x03F#9 5#32, .read 0x100#9] ∧
    (0x100#9 ≠ 0x03F#9) ∧
    (∀ (k : VReg) (j : Fin 8), (0x100#9).toNat = 0x020 + 8 * k.num + j.val → (k26.elemV k j).written = true) ∧
    (∀ (k : MReg) (i j : Fin 8), (0x100#9).toNat = 0x100 + 64 * k.num + 8 * i.val + j.val → (k26.elemM k i j).written = true) := by
  refine ⟨by decide, by decide, by decide, by decide, ?_, ?_⟩
  · intro k
    cases k <;> decide
  · intro k
    cases k <;> decide

theorem witness_ResetInput : (giving .reset k26inv).port = [.reset] := by decide

/-- A locked state, and the two ways out of it. -/
theorem witness_Lockout :
    (∃ s, exec (.enc .v1 .v0) State.reset = .next s ∧ s.fault = true) ∧
    (∃ s t, exec (.enc .v1 .v0) State.reset = .next s ∧ step (giving .reset s) = .next t ∧ t.fault = false) ∧
    (∃ s t, exec (.enc .v1 .v0) State.reset = .next s ∧ step (giving (.write 0x004#9 1#32) s) = .next t ∧ t.fault = false) :=
  ⟨⟨_, rfl, by decide⟩, ⟨_, _, rfl, rfl, by decide⟩, ⟨_, _, rfl, rfl, by decide⟩⟩

/-- Each illegal `RADIX` and `N` at its boundary. -/
theorem witness_BadConfig :
    decode 0x12000000#32 = .ok (.mdet .m0) ∧ Instr.mdet .m0 ≠ .nop ∧ State.reset.fault = false ∧
    uint (config 1 2).radix < 2 ∧ 2 ^ 31 - 1 < uint (config (2 ^ 31) 2).radix ∧
    (2 ≤ uint (config 2 0).radix ∧ uint (config 2 0).radix ≤ 2 ^ 31 - 1 ∧ (config 2 0).n.toNat < 1) ∧
    (2 ≤ uint (config (2 ^ 31 - 1) 9).radix ∧ uint (config (2 ^ 31 - 1) 9).radix ≤ 2 ^ 31 - 1 ∧ 8 < (config (2 ^ 31 - 1) 9).n.toNat) := by
  decide

/-- A command word for each of the six faults. -/
theorem witness_Faults :
    (∃ t, execute 0x00000000#32 State.reset = .next t ∧ State.reset.fault = false ∧ t.fault = true ∧ t.err = 1#4) ∧
    (∃ t, execute 0x20100000#32 State.reset = .next t ∧ State.reset.fault = false ∧ t.fault = true ∧ t.err = 2#4) ∧
    (∃ t, execute 0x22100002#32 k26 = .next t ∧ k26.fault = false ∧ t.fault = true ∧ t.err = 3#4) ∧
    (∃ t, execute 0x21201000#32 k26 = .next t ∧ k26.fault = false ∧ t.fault = true ∧ t.err = 4#4) ∧
    (∃ t, execute 0x14100000#32 (withM .m0 [[0]] (config 26 1)) = .next t ∧ (withM .m0 [[0]] (config 26 1)).fault = false ∧
      t.fault = true ∧ t.err = 5#4) ∧
    (∃ t, execute 0x23100000#32 (withV .v0 [14, 1] k26inv) = .next t ∧ (withV .v0 [14, 1] k26inv).fault = false ∧
      t.fault = true ∧ t.err = 6#4) :=
  ⟨⟨_, rfl, by decide, by decide, by decide⟩, ⟨_, rfl, by decide, by decide, by decide⟩, ⟨_, rfl, by decide, by decide, by decide⟩,
    ⟨_, rfl, by decide, by decide, by decide⟩, ⟨_, rfl, by decide, by decide, by decide⟩, ⟨_, rfl, by decide, by decide, by decide⟩⟩

theorem witness_Nop : (0x01000001#32).extractLsb' 24 8 = 0x01#8 ∧ 0x01000001#32 ≠ 0x01000000#32 := by decide

/-- The least and the greatest legal configuration, and K26. -/
theorem witness_ready : (config 2 1).ready ∧ (config 2147483647 8).ready ∧ k26.ready ∧ k26inv.ready ∧ k2inv.ready :=
  ⟨⟨by decide, by decide, by decide⟩, ⟨by decide, by decide, by decide⟩, ⟨by decide, by decide, by decide⟩,
    ⟨by decide, by decide, by decide⟩, ⟨by decide, by decide, by decide⟩⟩

theorem witness_MinvWrites : k26.ready ∧
    Nat.gcd ((Matrix.of fun i j : Fin k26.size => k26.actM 0 .m0 i j).det % (k26.modulus : Int)).toNat k26.modulus = 1 := by
  refine ⟨witness_ready.2.2.1, ?_⟩
  have h : (Matrix.of fun i j : Fin k26.size => k26.actM 0 .m0 i j).det = detZ k26.size (k26.actM 0 .m0) := (detZ_eq_det _ _).symm
  rw [h]
  decide

/-- C8: a determinant that shares a factor with the radix. -/
theorem witness_MinvSingular : (withM .m0 [[13]] (config 26 1)).ready ∧
    13 = Nat.gcd ((Matrix.of fun i j : Fin (withM .m0 [[13]] (config 26 1)).size =>
      (withM .m0 [[13]] (config 26 1)).actM 0 .m0 i j).det % ((withM .m0 [[13]] (config 26 1)).modulus : Int)).toNat
      (withM .m0 [[13]] (config 26 1)).modulus := by
  refine ⟨⟨by decide, by decide, by decide⟩, ?_⟩
  have h : (Matrix.of fun i j : Fin (withM .m0 [[13]] (config 26 1)).size =>
      (withM .m0 [[13]] (config 26 1)).actM 0 .m0 i j).det =
      detZ (withM .m0 [[13]] (config 26 1)).size ((withM .m0 [[13]] (config 26 1)).actM 0 .m0) := (detZ_eq_det _ _).symm
  rw [h]
  decide

theorem witness_MinvTwice : k26.ready ∧ Unimodular k26.size (k26.actM 0 .m0) k26.modulus := ⟨witness_ready.2.2.1, by decide⟩

theorem witness_InvchkAgrees : k26.ready ∧ ∃ u, exec (.minv .m1 .m2) k2inv = .next u ∧ k2inv.ready :=
  ⟨witness_ready.2.2.1, _, rfl, witness_ready.2.2.2.2⟩

theorem witness_Dec : (k26inv.ready ∧ k26inv.invValid = true) ∧ (k26.ready ∧ k26.invValid = false) :=
  ⟨⟨witness_ready.2.2.2.1, by decide⟩, ⟨witness_ready.2.2.1, by decide⟩⟩

theorem witness_Encpad : k26.ready ∧ (Instr.encpad .v1 .v0 255).wellFormed = true ∧ 0 < k26.size ∧ 1 < k26.size ∧
    k26.size ≤ 2 ∧ k26.size ≤ 255 := ⟨witness_ready.2.2.1, by decide, by decide, by decide, by decide, by decide⟩

/-- E6, E7, E19, E20: pad counts 1, 2, 0 and 3 for a block size of 2; and no valid inverse. -/
theorem witness_Decpad :
    (k26inv.ready ∧ k26inv.invValid = true) ∧ (k26.ready ∧ k26.invValid = false) ∧
    (∀ (s : State) (vb : VReg), ∃ x : Nat → Nat, (∀ i, x i =
        ((∑ y ∈ Finset.range s.size, s.actM 0 .m1 i y * s.actV 1 vb y) % (s.modulus : Int)).toNat) ∧
        x (s.size - 1) = s.padCount vb) ∧
    (withV .v0 [8, 17] k26inv).padCount .v0 = 1 ∧ (withV .v0 [21, 20] k26inv).padCount .v0 = 2 ∧
    (withV .v0 [5, 12] k26inv).padCount .v0 = 0 ∧ (withV .v0 [14, 1] k26inv).padCount .v0 = 3 := by
  refine ⟨witness_Dec.1, witness_Dec.2, fun s vb => ⟨matvec s.size (s.actM 0 .m1) (s.actV 1 vb) s.modulus, fun i => ?_, rfl⟩,
    by decide, by decide, by decide, by decide⟩
  rw [matvec, residue, sumTo_eq_sum_range]

theorem witness_Completion : k26.ready ∧ k26.completes (.mdet .m0) ∧ ¬ k26.completes (.dec .v0 .v0) :=
  ⟨witness_ready.2.2.1, trivial, show ¬ k26.invValid = true from by decide⟩

/-- The set event, and every clearing event at the ends of its address range (95_test_vectors.md 2.5). -/
theorem witness_InvValidEvents :
    (k26.invValid = false ∧ ∃ t, step (giving (.write 0x003#9 0x14100000#32) k26) = .next t ∧ t.invValid = true ∧ t.fault = false) ∧
    k26inv.invValid = true ∧
    (∃ t, step (giving .reset k26inv) = .next t ∧ t.invValid = false) ∧
    (∃ t, step (giving (.write 0x001#9 26#32) k26inv) = .next t ∧ t.invValid = false) ∧
    (∃ t, step (giving (.write 0x002#9 2#32) k26inv) = .next t ∧ t.invValid = false) ∧
    (∃ t, step (giving (.write 0x100#9 3#32) k26inv) = .next t ∧ t.invValid = false) ∧
    (∃ t, step (giving (.write 0x17F#9 0#32) k26inv) = .next t ∧ t.invValid = false) ∧
    (∃ t, step (giving (.write 0x180#9 0#32) k26inv) = .next t ∧ t.invValid = true) ∧
    (∃ t, step (giving (.write 0x003#9 (encode (.mmul .m0 .m0 .m1))) k26inv) = .next t ∧ t.invValid = false) ∧
    (∃ t, step (giving (.write 0x003#9 (encode (.minv .m0 .m0))) k26inv) = .next t ∧ t.invValid = false) ∧
    (∃ t, step (giving (.write 0x003#9 (encode (.minv .m1 .m1))) k26inv) = .next t ∧ t.invValid = false ∧ t.fault = false) := by
  refine ⟨⟨by decide, _, rfl, by decide, by decide⟩, by decide, ⟨_, rfl, by decide⟩, ⟨_, rfl, by decide⟩, ⟨_, rfl, by decide⟩,
    ⟨_, rfl, by decide⟩, ⟨_, rfl, by decide⟩, ⟨_, rfl, by decide⟩, ⟨_, rfl, by decide⟩, ⟨_, rfl, by decide⟩,
    ⟨_, rfl, by decide, by decide⟩⟩

/-- The result registers change. -/
theorem witness_ResultRegisterWriters :
    (∃ t, exec (.invchk .m0) k26 = .next t ∧ t.invertible ≠ k26.invertible ∧ t.gcd ≠ k26.gcd ∧ t.det ≠ k26.det) ∧
    (∃ t, exec (.decpad .v1 .v0) (withV .v0 [8, 17] k26inv) = .next t ∧ t.pad ≠ (withV .v0 [8, 17] k26inv).pad) :=
  ⟨⟨_, rfl, by decide, by decide, by decide⟩, ⟨_, rfl, by decide⟩⟩

theorem witness_CommandWindowFrame :
    ∃ t, exec (.enc .v1 .v0) k26 = .next t ∧ t.fault = k26.fault ∧ ¬ writesLoc k26.size (.enc .v1 .v0) (locate 0x02A#9) :=
  ⟨_, rfl, by decide, by
    show ¬ ∃ c : Fin 8, c.val < k26.size ∧ locate 0x02A#9 = .v .v1 c
    decide⟩

/-- Two states that differ outside the active region only. -/
theorem witness_InactiveElements :
    ({ k26.setElemM .m0 7 7 9#32 with mats := k26.mats, vecs := k26.vecs } : State) = k26 ∧
    (∀ k, ∀ r c : Fin 8, r.val < k26.size → c.val < k26.size → (k26.setElemM .m0 7 7 9#32).elemM k r c = k26.elemM k r c) ∧
    (∀ k, ∀ c : Fin 8, c.val < k26.size → (k26.setElemM .m0 7 7 9#32).elemV k c = k26.elemV k c) ∧
    (k26.setElemM .m0 7 7 9#32).elemM .m0 7 7 ≠ k26.elemM .m0 7 7 ∧ ∃ t, exec (.mdet .m0) k26 = .next t := by
  refine ⟨rfl, fun k r c hr _ => ?_, fun _ _ _ => rfl, by decide, _, rfl⟩
  rw [elemM_setElemM, if_neg]
  rintro ⟨_, rfl, _⟩
  exact absurd hr (by decide)

theorem writtenM_k26 : k26.writtenM .m0 k26.size := by
  unfold State.writtenM
  decide

theorem witness_WrittenSources : (withV .v0 [7, 2] k26).sourcesWritten (.enc .v1 .v0) ∧
    ∃ t, exec (.enc .v1 .v0) (withV .v0 [7, 2] k26) = .next t := by
  refine ⟨⟨?_, ?_⟩, _, rfl⟩
  · unfold State.writtenM
    decide
  · unfold State.writtenV
    decide

theorem witness_EncpadIgnores : (1 : Fin 8).val + 1 = k26.size ∧ k26.ready ∧ 1 < k26.size ∧
    ∃ t, exec (.encpad .v1 .v0 1) k26 = .next t := ⟨by decide, witness_ready.2.2.1, by decide, _, rfl⟩

/-- An identity product of two matrices, from its entries. -/
theorem identityProduct_of_entries {n : Nat} {A B : IMat} {m : Nat}
    (h : ∀ i j : Fin n, matmul n A B m i j = if i.val = j.val then 1 else 0) : IdentityProduct n A B m :=
  fun i j hi hj => h ⟨i, hi⟩ ⟨j, hj⟩

theorem inv_k26inv : k26inv.Inv := by
  refine ⟨⟨by decide, by decide⟩, fun _ => ⟨by decide, by decide, ?_, by decide, fun _ => ⟨?_, ?_⟩⟩,
    ⟨by decide, by decide, by decide⟩, fun k => ?_, fun k => ?_⟩
  · unfold State.writtenM
    decide
  · exact identityProduct_of_entries (by decide)
  · exact identityProduct_of_entries (by decide)
  · cases k <;> decide
  · cases k <;> decide

theorem inv_k2inv : k2inv.Inv := by
  refine ⟨⟨by decide, by decide⟩, fun _ => ⟨by decide, by decide, ?_, by decide, fun _ => ⟨?_, ?_⟩⟩,
    ⟨by decide, by decide, by decide⟩, fun k => ?_, fun k => ?_⟩
  · unfold State.writtenM
    decide
  · exact identityProduct_of_entries (by decide)
  · exact identityProduct_of_entries (by decide)
  · cases k <;> decide
  · cases k <;> decide

theorem inv_k3inv : k3inv.Inv := by
  refine ⟨⟨by decide, by decide⟩, fun _ => ⟨by decide, by decide, ?_, by decide, fun _ => ⟨?_, ?_⟩⟩,
    ⟨by decide, by decide, by decide⟩, fun k => ?_, fun k => ?_⟩
  · unfold State.writtenM
    decide
  · exact identityProduct_of_entries (n := 3) (by decide)
  · exact identityProduct_of_entries (n := 3) (by decide)
  · cases k <;> decide
  · cases k <;> decide

theorem witness_InvariantKept : k26inv.Inv ∧ ∃ t, step k26inv = .next t := ⟨inv_k26inv, _, rfl⟩

theorem witness_BlockRoundTrip : k26inv.Inv ∧ k26inv.ready ∧ k26inv.invValid = true ∧ k26inv.writtenM .m0 k26inv.size := by
  refine ⟨inv_k26inv, witness_ready.2.2.2.1, by decide, ?_⟩
  unfold State.writtenM
  decide

/-- The marker below the radix, and at the radix, where the count found is 0. -/
theorem witness_PaddingRecovered : k2inv.Inv ∧ k2inv.ready ∧ k2inv.invValid = true ∧ k2inv.writtenM .m0 k2inv.size ∧
    (1 < k2inv.size ∧ k2inv.size - 1 < k2inv.modulus) ∧ (0 < k2inv.size ∧ k2inv.modulus ≤ k2inv.size - 0) := by
  refine ⟨inv_k2inv, witness_ready.2.2.2.2, by decide, ?_, by decide, by decide⟩
  unfold State.writtenM
  decide

/-- The marker above the radix, where the count found is 1. -/
theorem witness_PaddingRecovered_wrong : k3inv.Inv ∧ k3inv.ready ∧ k3inv.invValid = true ∧ k3inv.writtenM .m0 k3inv.size ∧
    (0 < k3inv.size ∧ k3inv.modulus ≤ k3inv.size - 0 ∧ (k3inv.size - 0) % k3inv.modulus ≠ 0) := by
  refine ⟨inv_k3inv, ⟨by decide, by decide, by decide⟩, by decide, ?_, by decide⟩
  unfold State.writtenM
  decide

theorem witness_ProductLaws : 2 ≤ 2 ∧ (∀ i j : Nat, i < 2 → j < 2 → ((2 : Nat) : Int) ∣ (fun _ _ => 2 : IMat) i j - (fun _ _ => 0 : IMat) i j) ∧
    (∀ j : Nat, j < 2 → ((2 : Nat) : Int) ∣ (fun _ => 3 : IVec) j - (fun _ => 1 : IVec) j) := by
  exact ⟨by decide, fun _ _ _ _ => ⟨1, rfl⟩, fun _ _ => ⟨1, rfl⟩⟩

theorem witness_DeterminantLaws :
    (∀ i j : Nat, i < 2 → j < 2 → ((2 : Nat) : Int) ∣ (fun _ _ => 2 : IMat) i j - (fun _ _ => 0 : IMat) i j) ∧
    (0 < 2 ∧ 1 < 2 ∧ 0 ≠ 1) := by
  exact ⟨fun _ _ _ _ => ⟨1, rfl⟩, by decide⟩

theorem witness_ModularInverse : 0 < 26 ∧ 2 ≤ 2 ∧ Nat.gcd (residue 9 26) 26 = 1 ∧ Nat.gcd (residue 1 2) 2 = 1 ∧
    Nat.gcd (residue 13 26) 26 ≠ 1 ∧ residue (9 * ((3 : Nat) : Int)) 26 = 1 := by decide

theorem witness_Invertible : 1 ≤ 1 ∧ 2 ≤ 2 ∧ IdentityProduct 1 (fun _ _ => 1) (fun _ _ => 1) 2 :=
  ⟨by decide, by decide, fun i j hi hj => by
    obtain rfl : i = 0 := by omega
    obtain rfl : j = 0 := by omega
    decide⟩

theorem witness_Gauss : 2 ≤ 26 ∧ Unimodular 2 (k26.actM 0 .m0) 26 ∧ ¬ Unimodular 1 (fun _ _ => 13) 26 := by decide

theorem witness_Bridge : (BusAccess.mk 2 4 none).offset % 4 ≠ 0 ∧ (BusAccess.mk 4 2 none).width ≠ 4 := by decide

end Sys2Proof.Tests
end

/-! PROOFS of the family 00_scope.md: the modular inverse (R13), the invertible matrices (R15), and the active region as all that
a command depends on (R17). -/

section

namespace Sys2Proof.Machine

/-! ## The modular inverse (R13) -/

/-- Two bounds that cover the second argument give one run: the steps left over are not taken. -/
theorem egcdSteps_eq_of_le {k l a b : Nat} (hk : b ≤ k) (hl : b ≤ l) : egcdSteps k a b = egcdSteps l a b := by
  induction k generalizing l a b with
  | zero =>
    obtain rfl : b = 0 := Nat.le_zero.mp hk
    cases l <;> rfl
  | succ k ih =>
    by_cases hb : b = 0
    · subst hb
      cases l <;> rfl
    · obtain ⟨l, rfl⟩ : ∃ l', l = l' + 1 := ⟨l - 1, by omega⟩
      have hlt : a % b < b := Nat.mod_lt a (Nat.pos_of_ne_zero hb)
      rw [egcdSteps, egcdSteps, if_neg hb, if_neg hb, ih (l := l) (by omega) (by omega)]

theorem egcd_zero (a : Nat) : egcd a 0 = (a, 1, 0) := rfl

/-- The recursive equation of R13. -/
theorem egcd_pos (a : Nat) {b : Nat} (hb : 0 < b) :
    egcd a b = ((egcd b (a % b)).1, (egcd b (a % b)).2.2,
      (egcd b (a % b)).2.1 - ((a / b : Nat) : Int) * (egcd b (a % b)).2.2) := by
  obtain ⟨k, rfl⟩ : ∃ k, b = k + 1 := ⟨b - 1, by omega⟩
  have hr : a % (k + 1) ≤ k := Nat.le_of_lt_succ (Nat.mod_lt a hb)
  have hrun : egcdSteps k (k + 1) (a % (k + 1)) = egcd (k + 1) (a % (k + 1)) := egcdSteps_eq_of_le hr le_rfl
  rw [← hrun, egcd, egcdSteps, if_neg k.succ_ne_zero]

theorem invMod_pos {m : Nat} (hm : 2 ≤ m) {d : Int} (h : gcdOf (residue d m) m = 1) : 1 ≤ invMod m d := by
  by_contra h0
  have hspec := invMod_spec hm h
  rw [show invMod m d = 0 by omega] at hspec
  simp [residue] at hspec

/-- Two inverses of `d` below `m` are equal: each is the other times `d` times an inverse. -/
theorem eq_invMod {m x : Nat} (hm : 2 ≤ m) {d : Int} (h : gcdOf (residue d m) m = 1) (hx : x < m)
    (hdx : residue (d * (x : Int)) m = 1) : x = invMod m d := by
  have hz : (d : ZMod m) * (x : ZMod m) = 1 := by simpa using (residue_eq_one_iff hm).mp hdx
  refine eq_of_cast_eq hx (invMod_lt (by omega) d) ?_
  exact (left_inv_eq_right_inv (invMod_mul (by omega) h) hz).symm

/-- What has an inverse is coprime with the modulus. -/
theorem gcdOf_eq_one_of_mul {m : Nat} (hm : 2 ≤ m) {d x : Int} (h : residue (d * x) m = 1) : gcdOf (residue d m) m = 1 := by
  have hz : (d : ZMod m) * (x : ZMod m) = 1 := by simpa using (residue_eq_one_iff hm).mp h
  exact (isUnit_iff_gcdOf (by omega) d).mp (IsUnit.of_mul_eq_one _ hz)

/-- Settles O50: the equations of `egcd` hold at every bound that covers the run, and inverses are those of `ZMod m`. -/
theorem modularInverseDefined : Obligations.ModularInverseDefined := by
  refine ⟨egcd_zero, fun a b hb => egcd_pos a hb, egcd_spec, fun m d hm h => ?_, fun m d hm h x hx => ?_⟩
  · have hlt : invMod m d < m := invMod_lt (by omega) d
    exact ⟨rfl, invMod_pos hm h, by omega, invMod_spec hm h, fun x _ hx hdx => eq_invMod hm h (by omega) hdx⟩
  · exact h (gcdOf_eq_one_of_mul hm hx)

/-! ## Invertible matrices (R15) -/

/-- `inv(A, m)` as R15 writes it, with the sign as a power. -/
theorem invMat_eq_pow (n : Nat) (A : IMat) (m i j : Nat) :
    invMat n A m i j = residue ((invMod m (detZ n A) : Int) * (-1) ^ (i + j) * detZ (n - 1) (minor A j i)) m := by
  rw [invMat, adjugateBy, altSign_eq_pow]

/-- A right inverse with residues as its entries is `inv(A, m)`. -/
theorem eq_invMat {n m : Nat} (hm : 2 ≤ m) {A : IMat} {B : Nat → Nat → Nat} (hB : ∀ i j, i < n → j < n → B i j < m)
    (h : IdentityProduct n A (fun i j => (B i j : Int)) m) {i j : Nat} (hi : i < n) (hj : j < n) :
    B i j = invMat n A m i j :=
  inverse_unique hm (fun i j _ _ => invMat_lt n A (by omega) i j) hB (invMat_identity hm (unimodular_of_identity hm h)).2 h hi hj

theorem detZ_one (A : IMat) : detZ 1 A = A 0 0 := by
  simp [detZ, sumTo, altSign]

/-- The 1 by 1 case of `inv(A, m)`: the minor is the 0 by 0 matrix. -/
theorem invMat_one (A : IMat) {m : Nat} (hm : 0 < m) : invMat 1 A m 0 0 = invMod m (A 0 0) := by
  rw [invMat_eq_pow, detZ_one]
  simpa [detZ] using residue_of_lt (invMod_lt hm (A 0 0))

/-- Settles O51: the adjugate form is an inverse when the determinant is a unit, and every inverse of residues equals it. -/
theorem invertibleIffDeterminantUnit : Obligations.InvertibleIffDeterminantUnit := by
  intro n m A _ hm
  refine ⟨⟨fun ⟨B, hAB, _⟩ => unimodular_of_identity hm hAB, fun h => ⟨_, invMat_identity hm h⟩⟩, ?_, ?_⟩
  · intro B hB hAB _ i j hi hj
    rw [eq_invMat hm hB hAB hi hj, invMat_eq_pow]
  · rintro rfl B hB hAB
    have hB' : ∀ i j, i < 1 → j < 1 → B i j < m := by
      intro i j hi hj
      rwa [Nat.lt_one_iff.mp hi, Nat.lt_one_iff.mp hj]
    rw [eq_invMat hm hB' hAB one_pos one_pos, invMat_one A (by omega)]

/-! ## The active region is all that a command depends on (R17) -/

/-! The arithmetic reads its operands on the active region only -/

theorem detZ_congr {n : Nat} {A A' : IMat} (h : ∀ i j, i < n → j < n → A' i j = A i j) : detZ n A' = detZ n A := by
  rw [detZ_eq_det, detZ_eq_det]
  congr 1
  ext i j
  exact h i j i.isLt j.isLt

/-- The minor of an active region lies in the active region. -/
theorem minor_congr {n : Nat} {A A' : IMat} (h : ∀ i j, i < n → j < n → A' i j = A i j) (i j : Nat) {r c : Nat}
    (hr : r < n - 1) (hc : c < n - 1) : minor A' i j r c = minor A i j r c := by
  unfold minor
  apply h
  · split <;> omega
  · split <;> omega

theorem invMat_congr {n : Nat} {A A' : IMat} (h : ∀ i j, i < n → j < n → A' i j = A i j) (m i j : Nat) :
    invMat n A' m i j = invMat n A m i j := by
  rw [invMat, invMat, adjugateBy, adjugateBy, detZ_congr h, detZ_congr fun r c hr hc => minor_congr h j i hr hc]

/-- Two states agree on everything but the elements with an index of at least `n`. -/
structure AgreeBelow (n : Nat) (s s' : State) : Prop where
  rest : { s' with mats := s.mats, vecs := s.vecs } = s
  elemM : ∀ k, ∀ r c : Fin 8, r.val < n → c.val < n → s'.elemM k r c = s.elemM k r c
  elemV : ∀ k, ∀ c : Fin 8, c.val < n → s'.elemV k c = s.elemV k c

namespace AgreeBelow

variable {n : Nat} {s s' : State}

/-! What agreeing states share -/

theorem size (h : AgreeBelow n s s') : s'.size = s.size := (congrArg State.size h.rest :)

theorem modulus (h : AgreeBelow n s s') : s'.modulus = s.modulus := (congrArg State.modulus h.rest :)

theorem fault (h : AgreeBelow n s s') : s'.fault = s.fault := (congrArg State.fault h.rest :)

theorem radixLegal (h : AgreeBelow n s s') : s'.radixLegal = s.radixLegal := (congrArg State.radixLegal h.rest :)

theorem nLegal (h : AgreeBelow n s s') : s'.nLegal = s.nLegal := (congrArg State.nLegal h.rest :)

theorem invValid (h : AgreeBelow n s s') : s'.invValid = s.invValid := (congrArg State.invValid h.rest :)

theorem txn (h : AgreeBelow n s s') : s'.txn = s.txn := (congrArg State.txn h.rest :)

theorem ready (h : AgreeBelow n s s') (hs : s.ready) : s'.ready := by
  obtain ⟨hf, hr, hn⟩ := hs
  exact ⟨h.fault.trans hf, h.radixLegal.trans hr, h.nLegal.trans hn⟩

theorem actM (h : AgreeBelow n s s') (hn : n ≤ 8) (pos : Nat) (k : MReg) {i j : Nat} (hi : i < n) (hj : j < n) :
    s'.actM pos k i j = s.actM pos k i j := by
  have hi8 : i < 8 := by omega
  have hj8 : j < 8 := by omega
  rw [actM_eq s' pos k hi8 hj8, actM_eq s pos k hi8 hj8, State.wordM, State.wordM, h.elemM k _ _ hi hj, h.txn]

theorem actV (h : AgreeBelow n s s') (hn : n ≤ 8) (pos : Nat) (k : VReg) {j : Nat} (hj : j < n) :
    s'.actV pos k j = s.actV pos k j := by
  have hj8 : j < 8 := by omega
  rw [actV_eq s' pos k hj8, actV_eq s pos k hj8, State.wordV, State.wordV, h.elemV k _ hj, h.txn]

theorem detZ_actM (h : AgreeBelow n s s') (hn : n ≤ 8) (k : MReg) : detZ n (s'.actM 0 k) = detZ n (s.actM 0 k) :=
  detZ_congr fun _ _ hi hj => h.actM hn 0 k hi hj

theorem matvec_act (h : AgreeBelow n s s') (hn : n ≤ 8) (k : MReg) (vb : VReg) (m : Nat) {i : Nat} (hi : i < n) :
    matvec n (s'.actM 0 k) (s'.actV 1 vb) m i = matvec n (s.actM 0 k) (s.actV 1 vb) m i :=
  matvec_congr (fun _ hj => h.actM hn 0 k hi hj) fun _ hj => h.actV hn 1 vb hj

/-! What keeps the agreement -/

theorem raise (h : AgreeBelow n s s') (f : FaultCode) (info : Nat) (c : Word) :
    AgreeBelow n (s.raise f info c) (s'.raise f info c) where
  rest := congrArg (fun u => u.raise f info c) h.rest
  elemM := h.elemM
  elemV := h.elemV

theorem setInvValid (h : AgreeBelow n s s') (b : Bool) : AgreeBelow n { s with invValid := b } { s' with invValid := b } where
  rest := congrArg (fun u : State => { u with invValid := b }) h.rest
  elemM := h.elemM
  elemV := h.elemV

theorem setPad (h : AgreeBelow n s s') (w : Word) : AgreeBelow n { s with pad := w } { s' with pad := w } where
  rest := congrArg (fun u : State => { u with pad := w }) h.rest
  elemM := h.elemM
  elemV := h.elemV

theorem setDet (h : AgreeBelow n s s') (w : Word) : AgreeBelow n { s with det := w } { s' with det := w } where
  rest := congrArg (fun u : State => { u with det := w }) h.rest
  elemM := h.elemM
  elemV := h.elemV

theorem setVerdict (h : AgreeBelow n s s') (d g : Word) (b : Bool) :
    AgreeBelow n { s with det := d, gcd := g, invertible := b } { s' with det := d, gcd := g, invertible := b } where
  rest := congrArg (fun u : State => { u with det := d, gcd := g, invertible := b }) h.rest
  elemM := h.elemM
  elemV := h.elemV

theorem writeActM (h : AgreeBelow n s s') (k : MReg) {C C' : Nat → Nat → Nat}
    (hC : ∀ i j, i < n → j < n → C' i j = C i j) : AgreeBelow n (s.writeActM k n C) (s'.writeActM k n C') where
  rest := congrArg (fun u : State => { u with mats := (s.writeActM k n C).mats }) h.rest
  elemM k' r c hr hc := by
    rw [elemM_writeActM, elemM_writeActM, h.elemM k' r c hr hc, hC r c hr hc]
  elemV := h.elemV

theorem transform (h : AgreeBelow n s s') (vd : VReg) {m : Nat} {A A' : IMat} {v v' : IVec}
    (hy : ∀ i, i < n → matvec n A' v' m i = matvec n A v m i) :
    AgreeBelow n (s.transform vd m n A v) (s'.transform vd m n A' v') where
  rest := congrArg (fun u : State => { u with vecs := (s.transform vd m n A v).vecs }) h.rest
  elemM := h.elemM
  elemV k c hc := by
    rw [elemV_transform, elemV_transform, h.elemV k c hc, hy c hc]

/-! A command from two states that agree on the active region -/

theorem padCount (h : AgreeBelow s.size s s') (hs : s.ready) (vb : VReg) : s'.padCount vb = s.padCount vb := by
  have hlast : s.size - 1 < s.size := Nat.sub_lt hs.size_pos one_pos
  rw [State.padCount, State.padCount, h.size, h.modulus, h.matvec_act hs.size_le .m1 vb s.modulus hlast]

theorem unimodular (h : AgreeBelow s.size s s') (hs : s.ready) (k : MReg) :
    Unimodular s'.size (s'.actM 0 k) s'.modulus ↔ Unimodular s.size (s.actM 0 k) s.modulus := by
  rw [Unimodular, h.size, h.modulus, h.detZ_actM hs.size_le]

/-- Whether a ready command completes is decided by the active region. -/
theorem completes (h : AgreeBelow s.size s s') (hs : s.ready) {i : Instr} (hc : s.completes i) : s'.completes i := by
  cases i with
  | minv md ma => exact (h.unimodular hs ma).mpr hc
  | dec vd vb => exact h.invValid.trans hc
  | encpad vd vb r => exact hc.trans_eq h.size.symm
  | decpad vd vb => simpa only [State.completes, h.size, h.invValid, h.padCount hs] using hc
  | _ => trivial

/-- The same fault, with the same detail. -/
theorem raises (h : AgreeBelow s.size s s') {i : Instr} {f : FaultCode} {info : Nat} (hr : Raises s i f info) :
    Raises s' i f info := by
  cases hr with
  | badRadix hi hr => exact .badRadix hi (h.radixLegal.trans hr)
  | badN hi hr hn => exact .badN hi (h.radixLegal.trans hr) (h.nLegal.trans hn)
  | badOperand hs hr => exact .badOperand (h.ready hs) (h.size.trans_le hr)
  | decNotValid hs hv => exact .decNotValid (h.ready hs) (h.invValid.trans hv)
  | decpadNotValid hs hv => exact .decpadNotValid (h.ready hs) (h.invValid.trans hv)
  | @singular md ma hs hu =>
    have hsing := Raises.singular (md := md) (h.ready hs) (mt (h.unimodular hs ma).mp hu)
    rwa [h.size, h.modulus, h.detZ_actM hs.size_le] at hsing
  | @corrupt vd vb hs hv hp =>
    have hcor := Raises.corrupt (s := s') (vd := vd) (vb := vb) (h.ready hs) (h.invValid.trans hv)
    rw [h.size, h.padCount hs] at hcor
    exact hcor hp

/-- The effects agree: every result is computed from the active region, and written to it or to a result register. -/
theorem effect (h : AgreeBelow s.size s s') (hs : s.ready) (i : Instr) : AgreeBelow s.size (s.effect i) (s'.effect i) := by
  have hn := hs.size_le
  cases i <;> simp only [State.effect, h.size, h.modulus]
  case nop => exact h
  case mmul md ma mb =>
    rw [h.invValid]
    refine (h.writeActM md fun i j hi hj => ?_).setInvValid _
    exact matmul_congr (fun k hk => h.actM hn 0 ma hi hk) fun k hk => h.actM hn 1 mb hk hj
  case mvmul vd ma vb => exact h.transform vd fun i hi => h.matvec_act hn ma vb _ hi
  case mdet ma =>
    rw [h.detZ_actM hn]
    exact h.setDet _
  case invchk ma =>
    simp only [Unimodular, h.detZ_actM hn]
    exact h.setVerdict _ _ _
  case minv md ma =>
    rw [h.invValid]
    exact (h.writeActM md fun i j _ _ => invMat_congr (fun r c hr hc => h.actM hn 0 ma hr hc) _ i j).setInvValid _
  case enc vd vb => exact h.transform vd fun i hi => h.matvec_act hn .m0 vb _ hi
  case dec vd vb => exact h.transform vd fun i hi => h.matvec_act hn .m1 vb _ hi
  case encpad vd vb r =>
    refine h.transform vd fun i hi => matvec_congr (fun j hj => h.actM hn 0 .m0 hi hj) fun j hj => ?_
    rw [padBlock, padBlock, h.actV hn 1 vb hj]
  case decpad vd vb =>
    rw [h.padCount hs]
    exact (h.transform vd fun i hi => h.matvec_act hn .m1 vb _ hi).setPad _

end AgreeBelow

/-- A command that completes has its effect. -/
theorem exec_of_completes {s : State} {i : Instr} (hs : s.ready) (hc : s.completes i) : exec i s = .next (s.effect i) := by
  rcases exec_ready_cases hs i with ⟨_, he⟩ | ⟨hnc, _⟩
  · exact he
  · exact absurd hc hnc

/-- A fault that the state calls for is taken. -/
theorem exec_of_raises {s : State} {i : Instr} {f : FaultCode} {info : Nat} (hf : s.fault = false) (h : Raises s i f info) :
    exec i s = .next (s.raise f info (encode i)) := by
  cases h with
  | badRadix hi hr => exact exec_badRadix hf hr hi
  | badN hi hr hn => exact exec_badN hf hr hn hi
  | badOperand hs hr => exact execEncpad_badOperand hs hr _ _
  | decNotValid hs hv => exact execDec_notValid hs hv _ _
  | decpadNotValid hs hv => exact execDecpad_notValid hs hv _ _
  | singular hs hu => exact execMinv_singular hs hu
  | corrupt hs hv hp => exact execDecpad_corrupt hs hv hp _

theorem exec_of_ignored {s : State} {i : Instr} (h : s.fault = true ∨ i = .nop) : exec i s = .next s := by
  rcases h with hf | rfl
  · exact exec_locked hf i
  · rfl

/-- States that agree on the active region agree on it after every command. -/
theorem exec_agreeBelow {i : Instr} {s s' t : State} (h : AgreeBelow s.size s s') (he : exec i s = .next t) :
    ∃ t', exec i s' = .next t' ∧ AgreeBelow s.size t t' := by
  rcases exec_cases he with ⟨hi, rfl⟩ | ⟨hf, f, info, hr, rfl⟩ | ⟨hs, hc, rfl⟩
  · exact ⟨s', exec_of_ignored (h.fault.symm ▸ hi), h⟩
  · exact ⟨_, exec_of_raises (h.fault.trans hf) (h.raises hr), h.raise f info (encode i)⟩
  · exact ⟨_, exec_of_completes (h.ready hs) (h.completes hs hc), h.effect hs i⟩

/-- Settles O41: a command is ignored, faults or has its effect alike in two states that agree on the active region. -/
theorem inactiveElementsNotRead : Obligations.InactiveElementsNotRead := by
  intro i s s' t hrest hM hV he
  obtain ⟨t', he', h⟩ := exec_agreeBelow ⟨hrest, hM, hV⟩ he
  exact ⟨t', he', h.rest, h.elemM, h.elemV⟩

end Sys2Proof.Machine
end

/-! PROOFS of the family 10_state.md: what the effect of a command leaves unchanged (R24, R30, R39 to R41), the events of
`INV_VALID` (R28), and the invariant of the block (R29). -/

section

namespace Sys2Proof.Machine

/-! ## What the effect of a command leaves unchanged (R24) -/

theorem elemM_writeActM_frame {s : State} {md k : MReg} {n : Nat} {C : Nat → Nat → Nat} {i j : Fin 8}
    (h : ¬ ∃ r c : Fin 8, r.val < n ∧ c.val < n ∧ Loc.m k i j = .m md r c) :
    (s.writeActM md n C).elemM k i j = s.elemM k i j := by
  rw [elemM_writeActM, if_neg]
  rintro ⟨rfl, hi, hj⟩
  exact h ⟨i, j, hi, hj, rfl⟩

theorem elemM_writeActM_of_ne {s : State} {md k : MReg} (hk : k ≠ md) (n : Nat) (C : Nat → Nat → Nat) (i j : Fin 8) :
    (s.writeActM md n C).elemM k i j = s.elemM k i j :=
  (elemM_writeActM ..).trans (if_neg fun hw => hk hw.1)

theorem elemV_transform_frame {s : State} {vd k : VReg} {m n : Nat} {A : IMat} {v : IVec} {j : Fin 8}
    (h : ¬ ∃ c : Fin 8, c.val < n ∧ Loc.v k j = .v vd c) : (s.transform vd m n A v).elemV k j = s.elemV k j := by
  rw [elemV_transform, if_neg]
  rintro ⟨rfl, hj⟩
  exact h ⟨j, hj, rfl⟩

theorem effect_elemM {s : State} {i : Instr} {k : MReg} {r c : Fin 8} (h : ¬ writesLoc s.size i (.m k r c)) :
    (s.effect i).elemM k r c = s.elemM k r c := by
  cases i with
  | mmul md ma mb => exact elemM_writeActM_frame fun hw => h (.inl hw)
  | minv md ma => exact elemM_writeActM_frame fun hw => h (.inl hw)
  | _ => rfl

theorem effect_elemV {s : State} {i : Instr} {k : VReg} {j : Fin 8} (h : ¬ writesLoc s.size i (.v k j)) :
    (s.effect i).elemV k j = s.elemV k j := by
  cases i with
  | mvmul vd ma vb => exact elemV_transform_frame h
  | enc vd vb => exact elemV_transform_frame h
  | dec vd vb => exact elemV_transform_frame h
  | encpad vd vb r => exact elemV_transform_frame h
  | decpad vd vb => exact elemV_transform_frame fun hw => h (.inl hw)
  | _ => rfl

theorem effect_invertible {s : State} {i : Instr} (h : ∀ ma, i ≠ .invchk ma) : (s.effect i).invertible = s.invertible := by
  cases i with
  | invchk ma => exact absurd rfl (h ma)
  | _ => rfl

theorem effect_gcd {s : State} {i : Instr} (h : ∀ ma, i ≠ .invchk ma) : (s.effect i).gcd = s.gcd := by
  cases i with
  | invchk ma => exact absurd rfl (h ma)
  | _ => rfl

theorem effect_det {s : State} {i : Instr} (h : ∀ ma, i ≠ .invchk ma ∧ i ≠ .mdet ma) : (s.effect i).det = s.det := by
  cases i with
  | invchk ma => exact absurd rfl (h ma).1
  | mdet ma => exact absurd rfl (h ma).2
  | _ => rfl

theorem effect_pad {s : State} {i : Instr} (h : ∀ vd vb, i ≠ .decpad vd vb) : (s.effect i).pad = s.pad := by
  cases i with
  | decpad vd vb => exact absurd rfl (h vd vb)
  | _ => rfl

/-- A fault and an ignored command leave the result registers unchanged; only an effect may write them. -/
theorem exec_results_cases {i : Instr} {s t : State} (h : exec i s = .next t) :
    (t.invertible = s.invertible ∧ t.gcd = s.gcd ∧ t.det = s.det ∧ t.pad = s.pad) ∨ t = s.effect i := by
  rcases exec_cases h with ⟨_, rfl⟩ | ⟨_, f, info, _, rfl⟩ | ⟨_, _, rfl⟩
  · exact .inl ⟨rfl, rfl, rfl, rfl⟩
  · exact .inl ⟨rfl, rfl, rfl, rfl⟩
  · exact .inr rfl

/-- Settles O39: a command that is not a register's writer keeps it, whether it is ignored, faults or has its effect. -/
theorem resultRegisterWriters : Obligations.ResultRegisterWriters := by
  intro i s t h
  obtain ⟨hradix, hn, _⟩ := exec_keeps h
  rcases exec_results_cases h with ⟨hinv, hgcd, hdet, hpad⟩ | rfl
  · exact ⟨absurd hinv, absurd hgcd, absurd hdet, absurd hpad, hradix, hn⟩
  · refine ⟨fun hne => ?_, fun hne => ?_, fun hne => ?_, fun hne => ?_, hradix, hn⟩
    · by_contra hi
      exact hne (effect_invertible (not_exists.mp hi))
    · by_contra hi
      exact hne (effect_gcd (not_exists.mp hi))
    · by_contra hi
      exact hne (effect_det fun ma => not_or.mp (not_exists.mp hi ma))
    · by_contra hi
      exact hne (effect_pad fun vd vb hd => hi ⟨vd, vb, hd⟩)

/-! ## What a command does to `INV_VALID` (R28) -/

/-- The commands whose completion clears `INV_VALID`. -/
def ClearsInvValid (i : Instr) : Prop :=
  (∃ md ma mb, i = .mmul md ma mb ∧ (md = .m0 ∨ md = .m1)) ∨
  (∃ md ma, i = .minv md ma ∧ (md = .m0 ∨ (md = .m1 ∧ ma ≠ .m0)))

theorem watched_iff (k : MReg) : watched k = true ↔ k = .m0 ∨ k = .m1 := by
  cases k <;> decide

theorem effect_keyinv_invValid (s : State) : (s.effect (.minv .m1 .m0)).invValid = true := rfl

theorem effect_invValid_of_clears {s : State} {i : Instr} (h : ClearsInvValid i) : (s.effect i).invValid = false := by
  rcases h with ⟨md, ma, mb, rfl, hd⟩ | ⟨md, ma, rfl, hd⟩
  · exact if_pos ((watched_iff md).mpr hd)
  · rcases hd with rfl | ⟨rfl, hma⟩
    · rfl
    · simp [State.effect, invValidAfterMinv, watched, hma]

theorem effect_invValid_of_not {s : State} {i : Instr} (hset : i ≠ .minv .m1 .m0) (hclear : ¬ ClearsInvValid i) :
    (s.effect i).invValid = s.invValid := by
  cases i with
  | mmul md ma mb =>
    have hw : ¬ watched md = true := fun hw => hclear (.inl ⟨md, ma, mb, rfl, (watched_iff md).mp hw⟩)
    exact if_neg hw
  | minv md ma =>
    have hkey : ¬ (md = .m1 ∧ ma = .m0) := fun ⟨hd, ha⟩ => hset (by rw [hd, ha])
    have hw : ¬ watched md = true := by
      intro hw
      refine hclear (.inr ⟨md, ma, rfl, ?_⟩)
      rcases (watched_iff md).mp hw with hd | hd
      · exact .inl hd
      · exact .inr ⟨hd, fun ha => hkey ⟨hd, ha⟩⟩
    exact (if_neg hkey).trans (if_neg hw)
  | _ => rfl

/-! ## What every address reads as after a command (R24) -/

/-- A command that changes `INV_VALID` has STATUS among the locations it writes. -/
theorem effect_invValid_of_not_status {s : State} {i : Instr} (h : ¬ writesLoc s.size i .status) :
    (s.effect i).invValid = s.invValid := by
  apply effect_invValid_of_not
  · rintro rfl
    exact h (.inr ⟨rfl, rfl⟩)
  · rintro (⟨md, ma, mb, rfl, hd⟩ | ⟨md, ma, rfl, hd⟩)
    · exact h (.inr ⟨(watched_iff md).mpr hd, rfl⟩)
    · exact h (.inr ⟨(watched_iff md).mpr (hd.imp_right And.left), rfl⟩)

theorem effect_statusWord {s : State} {i : Instr} (h : ¬ writesLoc s.size i .status) :
    (s.effect i).statusWord = s.statusWord := by
  have hinv : (s.effect i).invertible = s.invertible := effect_invertible fun ma hi => h (hi ▸ .inr (.inr rfl))
  simp only [State.statusWord, effect_err, effect_fault, effect_invValid_of_not_status h, hinv]

theorem effect_wordV {s : State} {i : Instr} {k : VReg} {j : Fin 8} (h : ¬ writesLoc s.size i (.v k j)) (pos : Nat) :
    (s.effect i).wordV pos k j = s.wordV pos k j := by
  rw [State.wordV, State.wordV, effect_elemV h, effect_txn]

theorem effect_wordM {s : State} {i : Instr} {k : MReg} {r c : Fin 8} (h : ¬ writesLoc s.size i (.m k r c)) (pos : Nat) :
    (s.effect i).wordM pos k r c = s.wordM pos k r c := by
  rw [State.wordM, State.wordM, effect_elemM h, effect_txn]

/-- The effect of a command, seen through the window: an address it does not write reads as before. -/
theorem effect_portRead {s : State} {i : Instr} {a : Addr} (h : ¬ writesLoc s.size i (locate a)) :
    (s.effect i).portRead a = s.portRead a := by
  unfold State.portRead
  cases hl : locate a with
  | id => rfl
  | radix => exact effect_radix s i
  | n => exact congrArg (BitVec.zeroExtend 32) (effect_n s i)
  | cmd => rfl
  | status => exact effect_statusWord (hl ▸ h)
  | errcmd => exact effect_errcmd s i
  | errinfo => exact effect_errinfo s i
  | det => exact effect_det fun ma => ⟨fun hi => h (by rw [hl, hi]; exact .inl rfl), fun hi => h (by rw [hl, hi]; rfl)⟩
  | gcd => exact effect_gcd fun ma hi => h (by rw [hl, hi]; exact .inr (.inl rfl))
  | pad => exact effect_pad fun vd vb hi => h (by rw [hl, hi]; exact .inr rfl)
  | v k j => exact effect_wordV (hl ▸ h) 0
  | m k r c => exact effect_wordM (hl ▸ h) 0
  | reserved b => rfl

/-- Settles O40: a command that does not fault is ignored or has its effect. -/
theorem commandWindowFrame : Obligations.CommandWindowFrame := by
  intro i s t a h hfault hw
  rcases exec_cases h with ⟨_, rfl⟩ | ⟨hf, f, info, _, rfl⟩ | ⟨_, _, rfl⟩
  · rfl
  · exact absurd (hfault.trans hf) Bool.true_eq_false.mp
  · exact effect_portRead hw

/-! ## The events of `INV_VALID` (R28) -/

/-- KEYINV has one word: its fields are fixed by the row of `MINV` and the two register numbers. -/
theorem decode_eq_keyinv_iff {c : Word} : decode c = .ok (.minv .m1 .m0) ↔ c = 0x14100000#32 := by
  constructor
  · intro h
    obtain ⟨⟨hop, hrd, hra, hrb, hz, himm⟩, hd, ha⟩ : RowHolds 0x14#8 true true false false c ∧
        MReg.m1 = MReg.ofBits (fieldRd c) ∧ MReg.m0 = MReg.ofBits (fieldRa c) := by
      simpa [h] using decode_cases c
    have hrd1 : c.extractLsb' 20 4 = 1#4 := BitVec.eq_of_toNat_eq (by rw [mreg_num (fieldRd_eq c) hrd, ← hd]; rfl)
    have hra0 : c.extractLsb' 16 4 = 0#4 := BitVec.eq_of_toNat_eq (by rw [mreg_num (fieldRa_eq c) hra, ← ha]; rfl)
    have hrb0 : c.extractLsb' 12 4 = 0#4 := hrb
    rw [word_eq_fields c, hop, hrd1, hra0, hrb0, hz, himm rfl]
    rfl
  · rintro rfl
    rfl

/-- A command word completes, with the effect of its command, or it leaves `INV_VALID` alone: under lockout or with a fault. -/
theorem execute_completes_or_keeps {c : Word} {s t : State} (h : execute c s = .next t) :
    (∃ i, decode c = .ok i ∧ s.fault = false ∧ t.fault = false ∧ t = s.effect i) ∨
    ((s.fault = true ∨ t.fault = true) ∧ t.invValid = s.invValid) := by
  rcases execute_cases h with ⟨hf, rfl⟩ | ⟨_, _, rfl⟩ | ⟨i, hd, he⟩
  · exact .inr ⟨.inl hf, rfl⟩
  · exact .inr ⟨.inr rfl, rfl⟩
  · rcases exec_cases he with ⟨hi, rfl⟩ | ⟨_, f, info, _, rfl⟩ | ⟨hs, _, rfl⟩
    · cases hf : t.fault with
      | true => exact .inr ⟨.inl rfl, rfl⟩
      | false =>
        obtain rfl : i = .nop := hi.resolve_left (by simp [hf])
        exact .inl ⟨.nop, hd, rfl, rfl, rfl⟩
    · exact .inr ⟨.inr rfl, rfl⟩
    · exact .inl ⟨i, hd, hs.1, (effect_fault s i).trans hs.1, rfl⟩

/-- The event that sets `INV_VALID`: the word of KEYINV completes. -/
def SetEvent (s t : State) (x : Input) : Prop := x = .write 0x003#9 0x14100000#32 ∧ s.fault = false ∧ t.fault = false

/-- The addresses whose writing clears `INV_VALID`: RADIX, N and the words of M0 and M1. -/
def ClearAddr (a : Addr) : Prop := a = 0x001#9 ∨ a = 0x002#9 ∨ (0x100 ≤ a.toNat ∧ a.toNat ≤ 0x17F)

theorem clearAddr_iff (a : Addr) : ClearAddr a ↔ a.toNat = 1 ∨ a.toNat = 2 ∨ (0x100 ≤ a.toNat ∧ a.toNat ≤ 0x17F) := by
  simp only [ClearAddr, BitVec.toNat_eq, BitVec.toNat_ofNat]

/-- The events that clear `INV_VALID`. -/
def ClearEvent (s t : State) (x : Input) : Prop :=
  x = .reset ∨ (∃ a w, x = .write a w ∧ ClearAddr a) ∨
  (∃ c i, x = .write 0x003#9 c ∧ decode c = .ok i ∧ s.fault = false ∧ t.fault = false ∧ ClearsInvValid i)

theorem toNat_of_locate_v {a : Addr} {k : VReg} {j : Fin 8} (h : locate a = .v k j) : a.toNat = 0x020 + 8 * k.num + j.val := by
  rw [← addrOf_v, ← h, (addrOf_locate a).1]

theorem toNat_of_locate_m {a : Addr} {k : MReg} {i j : Fin 8} (h : locate a = .m k i j) :
    a.toNat = 0x100 + 64 * k.num + 8 * i.val + j.val := by
  rw [← addrOf_m, ← h, (addrOf_locate a).1]

/-- The words of M0 and M1 are those at 0x100 to 0x17F (R21). -/
theorem watched_iff_clearAddr {a : Addr} {k : MReg} {i j : Fin 8} (h : locate a = .m k i j) : watched k = true ↔ ClearAddr a := by
  have haddr := toNat_of_locate_m h
  have hnum : watched k = true ↔ k.num < 2 := by cases k <;> decide
  rw [hnum, clearAddr_iff]
  omega

/-- A write other than a command clears `INV_VALID` at the addresses that clear it, and keeps it at the others. -/
theorem portWrite_invValid {a : Addr} {w : Word} {s t : State} (ha : a ≠ 0x003#9) (h : portWrite a w s = .next t) :
    (ClearAddr a ∧ t.invValid = false) ∨ (¬ ClearAddr a ∧ t.invValid = s.invValid) := by
  rcases portWrite_cases a w s with ⟨rfl, hp⟩ | ⟨rfl, hp⟩ | ⟨h3, _⟩ | ⟨rfl, hp⟩ |
    ⟨k, j, hl, hp⟩ | ⟨k, i, j, hl, hp⟩ | ⟨hr, hp⟩
  · cases hp.symm.trans h
    exact .inl ⟨.inl rfl, rfl⟩
  · cases hp.symm.trans h
    exact .inl ⟨.inr (.inl rfl), rfl⟩
  · exact absurd h3 ha
  · cases hp.symm.trans h
    refine .inr ⟨by simp [clearAddr_iff], ?_⟩
    split <;> rfl
  · cases hp.symm.trans h
    have haddr := toNat_of_locate_v hl
    have hk := k.num_lt
    refine .inr ⟨?_, rfl⟩
    rw [clearAddr_iff]
    omega
  · cases hp.symm.trans h
    by_cases hw : watched k = true
    · exact .inl ⟨(watched_iff_clearAddr hl).mp hw, if_pos hw⟩
    · exact .inr ⟨mt (watched_iff_clearAddr hl).mpr hw, if_neg hw⟩
  · cases hp.symm.trans h
    refine .inr ⟨?_, rfl⟩
    rw [clearAddr_iff]
    omega

/-- R28 as a rule of one input: the set event sets `INV_VALID`, a clear event clears it, and any other input keeps it. -/
def InvValidRule (s t : State) (x : Input) : Prop :=
  (SetEvent s t x → t.invValid = true) ∧ (ClearEvent s t x → t.invValid = false) ∧
  (¬ SetEvent s t x → ¬ ClearEvent s t x → t.invValid = s.invValid)

theorem setEvent_cmd_iff (s t : State) (c : Word) :
    SetEvent s t (.write 0x003#9 c) ↔ decode c = .ok (.minv .m1 .m0) ∧ s.fault = false ∧ t.fault = false := by
  simp [SetEvent, decode_eq_keyinv_iff]

theorem clearEvent_cmd_iff (s t : State) (c : Word) : ClearEvent s t (.write 0x003#9 c) ↔
    ∃ i, decode c = .ok i ∧ s.fault = false ∧ t.fault = false ∧ ClearsInvValid i := by
  simp [ClearEvent, clearAddr_iff]

/-- A command that completes sets or clears `INV_VALID` by its kind; an ignored or a faulting command is no event. -/
theorem execute_invValidRule {c : Word} {s t : State} (h : execute c s = .next t) : InvValidRule s t (.write 0x003#9 c) := by
  rw [InvValidRule, setEvent_cmd_iff, clearEvent_cmd_iff]
  rcases execute_completes_or_keeps h with ⟨i, hd, hs, ht, rfl⟩ | ⟨hf, hkeep⟩
  · simp only [hd, hs, ht, Except.ok.injEq, true_and, and_true, exists_eq_left']
    refine ⟨?_, effect_invValid_of_clears, effect_invValid_of_not⟩
    rintro rfl
    exact effect_keyinv_invValid s
  · have hno : ¬ (s.fault = false ∧ t.fault = false) := by
      rcases hf with hf | hf <;> simp [hf]
    exact ⟨fun ⟨_, hst⟩ => absurd hst hno, fun ⟨_, _, hs, ht, _⟩ => absurd ⟨hs, ht⟩ hno, fun _ _ => hkeep⟩

theorem perform_invValidRule {x : Input} {s t : State} (h : perform x s = .next t) : InvValidRule s t x := by
  cases x with
  | read a =>
    cases h
    exact ⟨by simp [SetEvent], by simp [ClearEvent], fun _ _ => rfl⟩
  | reset =>
    cases h
    exact ⟨by simp [SetEvent], fun _ => rfl, fun _ hclear => absurd (.inl rfl) hclear⟩
  | write a w =>
    by_cases ha : a = 0x003#9
    · subst ha
      exact execute_invValidRule h
    · have hset : ¬ SetEvent s t (.write a w) := by simp [SetEvent, ha]
      have hclear : ClearEvent s t (.write a w) ↔ ClearAddr a := by simp [ClearEvent, ha]
      rw [InvValidRule, hclear]
      rcases portWrite_invValid ha h with ⟨hc, ht⟩ | ⟨hc, ht⟩
      · exact ⟨fun hs => absurd hs hset, fun _ => ht, fun _ hn => absurd hc hn⟩
      · exact ⟨fun hs => absurd hs hset, fun h' => absurd h' hc, fun _ _ => ht⟩

/-- Settles O38: an input that changes `INV_VALID` is the event of that change, and each event has its effect. -/
theorem invValidEvents : Obligations.InvValidEvents := by
  intro s t x rest hport h
  rw [step_input hport] at h
  obtain ⟨hset, hclear, hkeep⟩ : InvValidRule s t x := perform_invValidRule (s := s.accept rest) h
  refine ⟨fun hs ht => ?_, fun hs ht => ?_, fun hx hs ht => hset ⟨hx, hs, ht⟩, fun hx => hclear (.inl hx),
    fun a w hx ha => hclear (.inr (.inl ⟨a, w, hx, ha⟩)),
    fun c md ma mb hx hd hmd hs ht => ?_, fun c md ma hx hd hmd hs ht => ?_⟩
  · by_contra hno
    have hnot : ¬ ClearEvent s t x := fun hc => by simp [hclear hc] at ht
    simp [hkeep hno hnot, hs] at ht
  · by_contra hno
    have hnot : ¬ SetEvent s t x := fun hc => by simp [hset hc] at ht
    simp [hkeep hnot hno, hs] at ht
  · exact hclear (.inr (.inr ⟨c, _, hx, hd, hs, ht, .inl ⟨md, ma, mb, rfl, hmd⟩⟩))
  · exact hclear (.inr (.inr ⟨c, _, hx, hd, hs, ht, .inr ⟨md, ma, rfl, hmd⟩⟩))

/-! ## The layout of STATUS (R36) and the state after reset (R44) -/

/-- Bit `b` of STATUS is a bit of the field that lies there, counted from the field's lowest (R36). -/
theorem getLsbD_statusWord (s : State) (b : Nat) : s.statusWord.getLsbD b =
    if b < 1 then (BitVec.ofBool s.fault).getLsbD b
    else if b - 1 < 1 then (BitVec.ofBool s.invValid).getLsbD (b - 1)
    else if b - 2 < 1 then (BitVec.ofBool s.invertible).getLsbD (b - 2)
    else if b - 3 < 1 then false
    else if b - 4 < 4 then s.err.getLsbD (b - 4) else false := by
  unfold State.statusWord
  simp only [BitVec.getLsbD_append, BitVec.getLsbD_zero, Nat.sub_sub]

/-- Settles O15: each bit lies in its field of the concatenation. -/
theorem statusWordFields : Obligations.StatusWordFields := by
  intro s
  refine ⟨?_, ?_, ?_, ?_, BitVec.eq_of_getLsbD_eq fun i hi => ?_, BitVec.eq_of_getLsbD_eq fun i hi => ?_⟩
  iterate 4
    · rw [getLsbD_statusWord]
      simp
  · rw [BitVec.getLsbD_extractLsb', getLsbD_statusWord, if_neg (by omega), if_neg (by omega), if_neg (by omega), if_neg (by omega),
      if_pos (by omega), Nat.add_sub_cancel_left, decide_eq_true hi, Bool.true_and]
  · rw [BitVec.getLsbD_extractLsb', getLsbD_statusWord, if_neg (by omega), if_neg (by omega), if_neg (by omega), if_neg (by omega),
      if_neg (by omega), BitVec.getLsbD_zero, Bool.and_false]

/-- Settles O16: the registers by definition, the elements because reset leaves every one unwritten. -/
theorem resetStateValues : Obligations.ResetStateValues :=
  ⟨rfl, rfl, rfl, rfl, rfl, rfl, rfl, rfl, rfl, rfl, rfl, rfl, rfl,
    fun k i j => congrArg Elem.written (elemM_reset k i j), fun k j => congrArg Elem.written (elemV_reset k j)⟩

/-! ## The invariant: its parts under the updates of a state -/

theorem written_ite_or_eq {p : Prop} [Decidable p] {e e' : Elem} (h : e.written = true) :
    (if p then e else e').written = true ∨ (if p then e else e') = e' := by
  split
  · exact .inl h
  · exact .inr rfl

/-- Elements that are written, or that another state in canonical form holds, are in canonical form. -/
theorem unwrittenOk_of_elems {s t : State} (h : s.UnwrittenOk)
    (hM : ∀ k i j, (t.elemM k i j).written = true ∨ t.elemM k i j = s.elemM k i j)
    (hV : ∀ k j, (t.elemV k j).written = true ∨ t.elemV k j = s.elemV k j) : t.UnwrittenOk := by
  obtain ⟨hsM, hsV⟩ := h
  constructor
  · intro k i j hw
    rcases hM k i j with hw' | he
    · exact absurd (hw'.symm.trans hw) Bool.true_eq_false.mp
    · rw [he] at hw ⊢
      exact hsM k i j hw
  · intro k j hw
    rcases hV k j with hw' | he
    · exact absurd (hw'.symm.trans hw) Bool.true_eq_false.mp
    · rw [he] at hw ⊢
      exact hsV k j hw

theorem unwrittenOk_writeActM {s : State} (h : s.UnwrittenOk) (k : MReg) (n : Nat) (C : Nat → Nat → Nat) :
    (s.writeActM k n C).UnwrittenOk := by
  refine unwrittenOk_of_elems h (fun k' i j => ?_) fun _ _ => .inr rfl
  rw [elemM_writeActM]
  exact written_ite_or_eq rfl

theorem unwrittenOk_transform {s : State} (h : s.UnwrittenOk) (vd : VReg) (m n : Nat) (A : IMat) (v : IVec) :
    (s.transform vd m n A v).UnwrittenOk := by
  refine unwrittenOk_of_elems h (fun _ _ _ => .inr rfl) fun k j => ?_
  rw [elemV_transform]
  exact written_ite_or_eq rfl

theorem unwrittenOk_setElemM {s : State} (h : s.UnwrittenOk) (k : MReg) (i j : Fin 8) (w : Word) :
    (s.setElemM k i j w).UnwrittenOk := by
  refine unwrittenOk_of_elems h (fun k' i' j' => ?_) fun _ _ => .inr rfl
  rw [elemM_setElemM]
  exact written_ite_or_eq rfl

theorem unwrittenOk_setElemV {s : State} (h : s.UnwrittenOk) (k : VReg) (j : Fin 8) (w : Word) :
    (s.setElemV k j w).UnwrittenOk := by
  refine unwrittenOk_of_elems h (fun _ _ _ => .inr rfl) fun k' j' => ?_
  rw [elemV_setElemV]
  exact written_ite_or_eq rfl

/-- What `INV_VALID` says survives an update that leaves the matrix registers, the configuration and the bit unchanged. -/
theorem inverseOk_of_mats {s t : State} (h : s.InverseOk) (hm : t.mats = s.mats) (hr : t.radix = s.radix) (hn : t.n = s.n)
    (hv : t.invValid = s.invValid) : t.InverseOk :=
  inverseOk_congr h (elemM_congr hm .m0) (elemM_congr hm .m1) hr hn fun ht => hv.symm.trans ht

/-- A write of one matrix register: a watched one clears `INV_VALID`, and the others are neither M0 nor M1. -/
theorem inverseOk_of_matrixWrite {s t : State} {k : MReg} (h : s.InverseOk)
    (he : ∀ k', k' ≠ k → ∀ i j, t.elemM k' i j = s.elemM k' i j) (hr : t.radix = s.radix) (hn : t.n = s.n)
    (hv : t.invValid = if watched k then false else s.invValid) : t.InverseOk := by
  by_cases hw : watched k = true
  · exact inverseOk_of_clear (hv.trans (if_pos hw))
  · rw [if_neg hw] at hv
    have hne : ∀ k', watched k' = true → k' ≠ k := fun k' hk' heq => hw (heq ▸ hk')
    exact inverseOk_congr h (he _ (hne .m0 rfl)) (he _ (hne .m1 rfl)) hr hn fun ht => hv.symm.trans ht

/-- KEYINV makes what `INV_VALID` says true: M1 is `inv(A, m)` of what the command read of M0, and a written M0 reads the
same before and after (R29; log 9). -/
theorem inverseOk_keyinv {s : State} (hs : s.ready) (hu : s.completes (.minv .m1 .m0)) :
    (s.effect (.minv .m1 .m0)).InverseOk := by
  intro _
  have hm := hs.modulus_ge
  have hcell : ∀ i j : Fin 8, i.val < s.size → j.val < s.size →
      (s.effect (.minv .m1 .m0)).elemM .m1 i j = Elem.holds (invMat s.size (s.actM 0 .m0) s.modulus i j) :=
    fun i j hi hj => (elemM_writeActM ..).trans (if_pos ⟨rfl, hi, hj⟩)
  have hlt : ∀ i j, invMat s.size (s.actM 0 .m0) s.modulus i j < s.modulus := invMat_lt s.size (s.actM 0 .m0) (by omega)
  have hkey : ∀ i j, (s.effect (.minv .m1 .m0)).elemM .m0 i j = s.elemM .m0 i j :=
    elemM_writeActM_of_ne (by decide) _ _
  refine ⟨hs.2.1, hs.2.2, ?_, ?_, ?_⟩
  · intro i j hi hj
    rw [hcell i j hi hj]
    rfl
  · intro i j hi hj
    rw [hcell i j hi hj]
    exact (uint_word (by have := hlt i j; have := hs.modulus_le; omega)).trans_lt (hlt i j)
  · intro hw
    have hwritten : s.writtenM .m0 s.size := fun i j hi hj => hkey i j ▸ hw i j hi hj
    have hA : ∀ pos i j, i < s.size → j < s.size → s.actM 0 .m0 i j = (s.effect (.minv .m1 .m0)).actM pos .m0 i j :=
      fun pos i j hi hj => (actM_eq_of_elem hwritten hs.size_le hkey pos 0 hi hj).symm
    have hB : ∀ pos i j, i < s.size → j < s.size → (invMat s.size (s.actM 0 .m0) s.modulus i j : Int) =
        (s.effect (.minv .m1 .m0)).actM pos .m1 i j :=
      fun pos i j hi hj => (actM_of_region hs.modulus_le hs.size_le hlt hcell pos hi hj).symm
    obtain ⟨hAB, hBA⟩ := invMat_identity hm hu
    exact ⟨identityProduct_congr (hA 0) (hB 1) hAB, identityProduct_congr (hB 0) (hA 1) hBA⟩

/-! The invariant under the effect of a command -/

theorem inverseOk_effect {s : State} {i : Instr} (h : s.InverseOk) (hs : s.ready) (hc : s.completes i) :
    (s.effect i).InverseOk := by
  cases i with
  | mmul md ma mb =>
    exact inverseOk_of_matrixWrite (k := md) h (fun _ hk => elemM_writeActM_of_ne hk _ _) rfl rfl rfl
  | minv md ma =>
    by_cases hkey : md = .m1 ∧ ma = .m0
    · obtain ⟨rfl, rfl⟩ := hkey
      exact inverseOk_keyinv hs hc
    · exact inverseOk_of_matrixWrite (k := md) h (fun _ hk => elemM_writeActM_of_ne hk _ _) rfl rfl (if_neg hkey)
  | _ => exact inverseOk_of_mats h rfl rfl rfl rfl

/-- A residue of a legal radix is in range for DET (R39). -/
theorem uint_word_residue_lt {s : State} (hs : s.ready) (a : Int) :
    uint (Sys2Proof.word (residue a s.modulus)) < Config.radixMax := by
  have hlt : residue a s.modulus < s.modulus := residue_lt a (by have := hs.modulus_ge; omega)
  have hm := hs.modulus_le
  rw [uint_word (by omega), Config.radixMax]
  omega

/-- A divisor of a legal radix is in range for GCD (R40). -/
theorem uint_word_gcdOf_le {s : State} (hs : s.ready) (d : Nat) :
    uint (Sys2Proof.word (gcdOf d s.modulus)) ≤ Config.radixMax := by
  have hle : gcdOf d s.modulus ≤ s.modulus := Nat.gcd_le_right d (by have := hs.modulus_ge; omega)
  have hm := hs.modulus_le
  rw [uint_word (by omega), Config.radixMax]
  omega

/-- A pad count of at most the block size is in range for PAD (R41). -/
theorem uint_word_pad_le {s : State} (hs : s.ready) {p : Nat} (hp : p ≤ s.size) :
    uint (Sys2Proof.word p) ≤ Config.nmax := by
  have hn := hs.size_le
  rw [uint_word (by omega), Config.nmax]
  omega

theorem resultsOk_effect {s : State} {i : Instr} (h : s.ResultsOk) (hs : s.ready) (hc : s.completes i) :
    (s.effect i).ResultsOk := by
  obtain ⟨hdet, hgcd, hpad⟩ := h
  cases i with
  | mdet ma => exact ⟨uint_word_residue_lt hs _, hgcd, hpad⟩
  | invchk ma => exact ⟨uint_word_residue_lt hs _, uint_word_gcdOf_le hs _, hpad⟩
  | decpad vd vb =>
    obtain ⟨_, _, hp⟩ := hc
    exact ⟨hdet, hgcd, uint_word_pad_le hs hp⟩
  | _ => exact ⟨hdet, hgcd, hpad⟩

theorem unwrittenOk_effect {s : State} (h : s.UnwrittenOk) (i : Instr) : (s.effect i).UnwrittenOk := by
  cases i with
  | mmul md ma mb => exact unwrittenOk_writeActM h md s.size _
  | minv md ma => exact unwrittenOk_writeActM h md s.size _
  | mvmul vd ma vb => exact unwrittenOk_transform h ..
  | enc vd vb => exact unwrittenOk_transform h ..
  | dec vd vb => exact unwrittenOk_transform h ..
  | encpad vd vb r => exact unwrittenOk_transform h ..
  | decpad vd vb => exact unwrittenOk_transform h vd s.modulus s.size _ _
  | _ => exact h

theorem recordOk_effect {s : State} (h : s.RecordOk) (i : Instr) : (s.effect i).RecordOk := by
  simpa only [State.RecordOk, effect_fault, effect_err, effect_errcmd, effect_errinfo] using h

theorem inv_effect {s : State} {i : Instr} (h : s.Inv) (hs : s.ready) (hc : s.completes i) : (s.effect i).Inv := by
  obtain ⟨hrec, hinv, hres, hunw⟩ := h
  exact ⟨recordOk_effect hrec i, inverseOk_effect hinv hs hc, resultsOk_effect hres hs hc, unwrittenOk_effect hunw i⟩

/-! The invariant under each input -/

/-- A fault writes a coherent record and nothing else. -/
theorem inv_raise {s : State} (h : s.Inv) (f : FaultCode) (info : Nat) (c : Word) : (s.raise f info c).Inv := by
  obtain ⟨_, hinv, hres, hunw⟩ := h
  exact ⟨⟨fun hf => Bool.noConfusion hf, fun _ => f.code_range⟩, inverseOk_of_mats hinv rfl rfl rfl rfl, hres, hunw⟩

theorem inv_clearFault {s : State} (h : s.Inv) : s.clearFault.Inv := by
  obtain ⟨_, hinv, hres, hunw⟩ := h
  exact ⟨⟨fun _ => ⟨rfl, rfl, rfl⟩, fun hf => Bool.noConfusion hf⟩, inverseOk_of_mats hinv rfl rfl rfl rfl, hres, hunw⟩

theorem inv_exec {i : Instr} {s t : State} (h : s.Inv) (he : exec i s = .next t) : t.Inv := by
  rcases exec_cases he with ⟨_, rfl⟩ | ⟨_, f, info, _, rfl⟩ | ⟨hs, hc, rfl⟩
  · exact h
  · exact inv_raise h f info (encode i)
  · exact inv_effect h hs hc

theorem inv_execute {c : Word} {s t : State} (h : s.Inv) (he : execute c s = .next t) : t.Inv := by
  rcases execute_cases he with ⟨_, rfl⟩ | ⟨_, _, rfl⟩ | ⟨i, _, hi⟩
  · exact h
  · exact inv_raise h .illegalCmd 0 c
  · exact inv_exec h hi

theorem inv_portWrite {a : Addr} {w : Word} {s t : State} (h : s.Inv) (hp : portWrite a w s = .next t) : t.Inv := by
  have ⟨hrec, hinv, hres, hunw⟩ := h
  rcases portWrite_cases a w s with ⟨_, he⟩ | ⟨_, he⟩ | ⟨_, he⟩ | ⟨_, he⟩ | ⟨k, j, _, he⟩ | ⟨k, i, j, _, he⟩ | ⟨_, he⟩
  · cases he.symm.trans hp
    exact ⟨hrec, inverseOk_of_clear rfl, hres, hunw⟩
  · cases he.symm.trans hp
    exact ⟨hrec, inverseOk_of_clear rfl, hres, hunw⟩
  · exact inv_execute h (he.symm.trans hp)
  · cases he.symm.trans hp
    split
    · exact inv_clearFault h
    · exact h
  · cases he.symm.trans hp
    exact ⟨hrec, inverseOk_of_mats hinv rfl rfl rfl rfl, hres, unwrittenOk_setElemV hunw k j w⟩
  · cases he.symm.trans hp
    have hother : ∀ k', k' ≠ k → ∀ i' j', (s.setElemM k i j w).elemM k' i' j' = s.elemM k' i' j' :=
      fun k' hk i' j' => (elemM_setElemM ..).trans (if_neg fun hw => hk hw.1)
    exact ⟨hrec, inverseOk_of_matrixWrite hinv hother rfl rfl rfl, hres, unwrittenOk_setElemM hunw k i j w⟩
  · cases he.symm.trans hp
    exact h

theorem inv_accept {s : State} (h : s.Inv) (rest : List Input) : (s.accept rest).Inv := by
  obtain ⟨hrec, hinv, hres, hunw⟩ := h
  exact ⟨hrec, inverseOk_of_mats hinv rfl rfl rfl rfl, hres, hunw⟩

theorem resultsOk_reset : State.reset.ResultsOk :=
  ⟨by decide, by decide, by decide⟩

theorem inv_afterReset (s : State) : s.afterReset.Inv :=
  ⟨⟨fun _ => ⟨rfl, rfl, rfl⟩, fun hf => Bool.noConfusion hf⟩, inverseOk_of_clear rfl, resultsOk_reset,
    fun k i j _ => elemM_afterReset s k i j, fun k j _ => elemV_afterReset s k j⟩

theorem inv_perform {x : Input} {s t : State} (h : s.Inv) (hp : perform x s = .next t) : t.Inv := by
  cases x with
  | read a =>
    cases hp
    obtain ⟨hrec, hinv, hres, hunw⟩ := h
    exact ⟨hrec, inverseOk_of_mats hinv rfl rfl rfl rfl, hres, hunw⟩
  | write a w => exact inv_portWrite h hp
  | reset =>
    cases hp
    exact inv_afterReset s

/-- Settles O44: the reset state is the state that a reset input gives from it. -/
theorem invariantAtReset : Obligations.InvariantAtReset := inv_afterReset State.reset

/-- Settles O45: an idle step changes nothing, and every other step takes an input off the port and performs it. -/
theorem invariantKeptByEveryStep : Obligations.InvariantKeptByEveryStep := by
  intro s t h hstep
  cases hport : s.port with
  | nil =>
    rw [step_idle hport] at hstep
    cases hstep
    exact h
  | cons x rest =>
    rw [step_input hport] at hstep
    exact inv_perform (inv_accept h rest) hstep

end Sys2Proof.Machine
end

/-! PROOFS of the family 20_memory.md: every step completes (R62, R68), what a read and a write of each address do (R64, R65), a
read after a write (R72), and the byte-addressed bridge (R69, R70). -/

section

namespace Sys2Proof.Machine

/-! ## What an input leaves of the record of the port (R62, R68) -/

/-- A write, whatever it starts, returns no word and takes no further input. -/
theorem portWrite_keeps_record {a : Addr} {w : Word} {s t : State} (h : portWrite a w s = .next t) :
    t.port = s.port ∧ t.reads = s.reads := by
  rcases portWrite_cases a w s with ⟨_, he⟩ | ⟨_, he⟩ | ⟨_, he⟩ | ⟨_, he⟩ | ⟨k, j, _, he⟩ | ⟨k, i, j, _, he⟩ | ⟨_, he⟩
  · cases he.symm.trans h
    exact ⟨rfl, rfl⟩
  · cases he.symm.trans h
    exact ⟨rfl, rfl⟩
  · obtain ⟨_, _, hport, hreads, _⟩ := execute_keeps (he.symm.trans h)
    exact ⟨hport, hreads⟩
  · cases he.symm.trans h
    split <;> exact ⟨rfl, rfl⟩
  · cases he.symm.trans h
    exact ⟨rfl, rfl⟩
  · cases he.symm.trans h
    exact ⟨rfl, rfl⟩
  · cases he.symm.trans h
    exact ⟨rfl, rfl⟩

/-- Settles O18: an idle step changes nothing, a read returns one word, and a write or a reset none. -/
theorem everyStepCompletes : Obligations.EveryStepCompletes := by
  intro s
  cases hport : s.port with
  | nil => exact ⟨s, step_idle hport, hport, rfl⟩
  | cons x rest =>
    obtain ⟨t, ht⟩ := perform_answers x (s.accept rest)
    refine ⟨t, (step_input hport).trans ht, ?_⟩
    cases x with
    | read a =>
      cases ht
      exact ⟨rfl, rfl⟩
    | write a w =>
      obtain ⟨hkeep, hreads⟩ := portWrite_keeps_record ht
      exact ⟨hkeep, congrArg List.length hreads⟩
    | reset =>
      cases ht
      exact ⟨rfl, rfl⟩

/-! ## What a read of each address returns (R64) -/

/-- An address is the constant of its number. -/
theorem addr_eq_ofNat {a : Addr} {x : Nat} (h : a.toNat = x) : a = BitVec.ofNat 9 x := by
  rw [← h, BitVec.ofNat_toNat, BitVec.setWidth_eq]

/-- The read of a control register, from the number of its address; at a constant the word read is the register by definition. -/
theorem portRead_of_toNat {a : Addr} {x : Nat} (h : a.toNat = x) (s : State) :
    s.portRead a = s.portRead (BitVec.ofNat 9 x) := by
  rw [addr_eq_ofNat h]

/-- Settles O12: a control register by its address, an element by the map of its register, and 0 where the map has nothing. -/
theorem portReadReturnsTheRegister : Obligations.PortReadReturnsTheRegister := by
  intro s a rest hport
  refine ⟨(s.accept rest).portRead a, step_input hport,
    fun h => portRead_of_toNat h _, fun h => portRead_of_toNat h _, fun h => portRead_of_toNat h _,
    fun h => portRead_of_toNat h _, fun h => portRead_of_toNat h _, fun h => portRead_of_toNat h _,
    fun h => portRead_of_toNat h _, fun h => portRead_of_toNat h _, fun h => portRead_of_toNat h _,
    fun h => portRead_of_toNat h _, fun k j h hw => ?_, fun k i j h hw => ?_,
    fun h => portRead_reserved (locate_reserved h) _⟩
  · exact (portRead_v (locate_v h) _).trans (wordV_written (s := s.accept rest) hw 0)
  · exact (portRead_m (locate_m h) _).trans (wordM_written (s := s.accept rest) hw 0)

/-! ## What a write to each address does (R65) -/

/-- A step that takes a write does what the write does at the address of that number. -/
theorem step_write_of_toNat {s : State} {a : Addr} {w : Word} {rest : List Input} {x : Nat}
    (hport : s.port = .write a w :: rest) (h : a.toNat = x) :
    step s = portWrite (BitVec.ofNat 9 x) w (s.accept rest) := by
  rw [step_input hport, perform, addr_eq_ofNat h]

/-- The words of M0 and M1 are the elements of a matrix register up to 0x17F (R21). -/
theorem watched_iff_toNat_le {a : Addr} {k : MReg} {i j : Fin 8} (h : locate a = .m k i j) :
    watched k = true ↔ a.toNat ≤ 0x17F := by
  have haddr := toNat_of_locate_m h
  rw [watched_iff_clearAddr h, clearAddr_iff]
  omega

/-- Settles O13: each register by its address, an element by the map of its register. -/
theorem portWriteStoresTheRegister : Obligations.PortWriteStoresTheRegister := by
  intro s a w rest hport
  refine ⟨fun h => step_write_of_toNat hport h, fun h => step_write_of_toNat hport h, fun h => step_write_of_toNat hport h,
    fun h hw => ?_, fun h hw => ?_, fun k j h => ?_, fun k i j h => ?_,
    fun h => (step_input hport).trans (portWrite_ignored h w _)⟩
  · rw [step_write_of_toNat hport h, portWrite_status, if_pos hw]
    rfl
  · rw [step_write_of_toNat hport h, portWrite_status, if_neg (Bool.eq_false_iff.mp hw)]
    rfl
  · exact ⟨_, (step_input hport).trans (portWrite_v (locate_v h) w _), elemV_setElemV (s.accept rest) k j w, rfl⟩
  · refine ⟨_, (step_input hport).trans (portWrite_m (locate_m h) w _), elemM_setElemM (s.accept rest) k i j w, ?_, rfl⟩
    simp only [watched_iff_toNat_le (locate_m h), State.accept_invValid]

/-! ## A read after a write (R72) -/

/-- The addresses of the elements of V0 to V3 and M0 to M3. -/
def DataAddr (a : Addr) : Prop := (0x020 ≤ a.toNat ∧ a.toNat ≤ 0x03F) ∨ 0x100 ≤ a.toNat

/-- The element that a location names, where it names one. -/
def State.dataElem (s : State) : Loc → Option Elem
  | .v k j => some (s.elemV k j)
  | .m k i j => some (s.elemM k i j)
  | _ => none

theorem locate_of_dataAddr {a : Addr} (h : DataAddr a) :
    (∃ (k : VReg) (j : Fin 8), a.toNat = 0x020 + 8 * k.num + j.val ∧ locate a = .v k j) ∨
    (∃ (k : MReg) (i j : Fin 8), a.toNat = 0x100 + 64 * k.num + 8 * i.val + j.val ∧ locate a = .m k i j) := by
  unfold DataAddr at h
  rcases addr_cases a with ha | ⟨k, j, ha⟩ | ⟨k, i, j, ha⟩ | ha
  · omega
  · exact .inl ⟨k, j, ha, locate_v ha⟩
  · exact .inr ⟨k, i, j, ha, locate_m ha⟩
  · omega

/-- A read of a written element returns its word. -/
theorem portRead_of_dataElem {s : State} {a : Addr} {e : Elem} (h : s.dataElem (locate a) = some e) (hw : e.written = true) :
    s.portRead a = e.word := by
  cases hl : locate a with
  | v k j =>
    rw [hl] at h
    cases h
    exact (portRead_v hl s).trans (wordV_written hw 0)
  | m k i j =>
    rw [hl] at h
    cases h
    exact (portRead_m hl s).trans (wordM_written hw 0)
  | _ =>
    rw [hl] at h
    cases h

/-- A write to a data address stores the word in the element of that address and in no other. -/
theorem dataElem_portWrite {a : Addr} {w : Word} {s t : State} (ha : DataAddr a) (h : portWrite a w s = .next t) (l : Loc) :
    t.dataElem l = if l = locate a then some ⟨true, w⟩ else s.dataElem l := by
  rcases locate_of_dataAddr ha with ⟨k, j, _, hl⟩ | ⟨k, i, j, _, hl⟩
  · cases (portWrite_v hl w s).symm.trans h
    rw [hl]
    cases l with
    | v k' j' =>
      refine (congrArg some (elemV_setElemV s k j w k' j')).trans ?_
      simp only [State.dataElem, Loc.v.injEq, apply_ite some]
    | _ => rfl
  · cases (portWrite_m hl w s).symm.trans h
    rw [hl]
    cases l with
    | m k' i' j' =>
      refine (congrArg some (elemM_setElemM s k i j w k' i' j')).trans ?_
      simp only [State.dataElem, Loc.m.injEq, apply_ite some]
    | _ => rfl

/-- Settles O14: the write puts its word in the element at `a`, and leaves every other element as it was. -/
theorem dataReadAfterWrite : Obligations.DataReadAfterWrite := by
  intro s a b w rest ha hb hport
  obtain ⟨t, ht⟩ := perform_answers (.write a w) (s.accept (.read b :: rest))
  obtain ⟨hkeep, hreads⟩ := portWrite_keeps_record ht
  refine ⟨t, _, (t.accept rest).portRead b, (step_input hport).trans ht, step_input hkeep,
    congrArg (List.cons _) hreads, rfl, ?_, fun hne hV hM => ?_⟩
  · rintro rfl
    exact portRead_of_dataElem (s := t.accept rest) ((dataElem_portWrite ha ht _).trans (if_pos rfl)) rfl
  · obtain ⟨e, he, hw⟩ : ∃ e, s.dataElem (locate b) = some e ∧ e.written = true := by
      rcases locate_of_dataAddr hb with ⟨k, j, hn, hl⟩ | ⟨k, i, j, hn, hl⟩
      · exact ⟨_, congrArg s.dataElem hl, hV k j hn⟩
      · exact ⟨_, congrArg s.dataElem hl, hM k i j hn⟩
    have hother : t.dataElem (locate b) = some e := by
      rw [dataElem_portWrite ha ht, if_neg (mt locate_inj.mp hne)]
      exact he
    exact (portRead_of_dataElem (s := t.accept rest) hother hw).trans (portRead_of_dataElem he hw).symm

/-! ## The byte-addressed bridge (R69, R70) -/

/-- The four bytes of a word, the lowest first, are that word again (R69). -/
theorem wordOfBytes_of_word (w : Word) :
    wordOfBytes (w.extractLsb' 0 8) (w.extractLsb' 8 8) (w.extractLsb' 16 8) (w.extractLsb' 24 8) = w := by
  apply BitVec.eq_of_getLsbD_eq
  intro i hi
  simp only [wordOfBytes, BitVec.getLsbD_append, BitVec.getLsbD_extractLsb']
  interval_cases i <;> rfl

/-- The byte offset of a word is aligned and inside the window. -/
theorem wordOffset_passes (a : Addr) : 4 * a.toNat % 4 = 0 ∧ 4 = 4 ∧ 4 * a.toNat < 4 * 512 := by
  have := a.isLt
  omega

/-- The bridge finds the word again from its byte offset (R69). -/
theorem addr_of_wordOffset (a : Addr) : BitVec.ofNat 9 (4 * a.toNat / 4) = a := by simp

theorem forwarded_read (a : Addr) : forwarded ⟨4 * a.toNat, 4, none⟩ = some (.read a) := by
  rw [forwarded, if_pos (wordOffset_passes a), addr_of_wordOffset]

theorem forwarded_write (a : Addr) (w : Word) :
    forwarded ⟨4 * a.toNat, 4, some (bytesOfWord w)⟩ = some (.write a w) := by
  rw [forwarded, if_pos (wordOffset_passes a), addr_of_wordOffset]
  exact congrArg (fun v => some (Input.write a v)) (wordOfBytes_of_word w)

/-- A misaligned access, or one of another width, fails the bridge's test (R70). -/
theorem forwarded_eq_none {b : BusAccess} (h : b.offset % 4 ≠ 0 ∨ b.width ≠ 4) : forwarded b = none :=
  if_neg fun ⟨haligned, hwidth, _⟩ => h.elim (absurd haligned) (absurd hwidth)

/-- Settles O53: the word of an aligned access is found from its offset and its bytes; any other access fails the test. -/
theorem bridgeForwardsAlignedWords : Obligations.BridgeForwardsAlignedWords :=
  ⟨fun a w => ⟨forwarded_read a, forwarded_write a w⟩, fun _ h => forwarded_eq_none h⟩

end Sys2Proof.Machine
end

/-! PROOFS of the family 30_encoding.md: the decoder and the encoder are inverse (R91, R95, R96), the rows of the opcode map and
the illegal words (R95, R97), the number of legal words (R96), the worked encodings (R101), and the assembler's source lines
(R98, R99). -/

section

namespace Sys2Proof

/-! ## The fields of a command word (R91, R95) -/

/-- The numbers in the fields `OP`, `RD`, `RA`, `RB` and `IMM` of a command word (R91). -/
structure Fields where
  op : Nat
  rd : Nat
  ra : Nat
  rb : Nat
  imm : Nat

/-- The numbers a command's word holds by its row of R95; a field it does not use holds 0. -/
def Instr.fields : Instr → Fields
  | .nop => ⟨0x01, 0, 0, 0, 0⟩
  | .mmul md ma mb => ⟨0x10, md.num, ma.num, mb.num, 0⟩
  | .mvmul vd ma vb => ⟨0x11, vd.num, ma.num, vb.num, 0⟩
  | .mdet ma => ⟨0x12, 0, ma.num, 0, 0⟩
  | .invchk ma => ⟨0x13, 0, ma.num, 0, 0⟩
  | .minv md ma => ⟨0x14, md.num, ma.num, 0, 0⟩
  | .enc vd vb => ⟨0x20, vd.num, 0, vb.num, 0⟩
  | .dec vd vb => ⟨0x21, vd.num, 0, vb.num, 0⟩
  | .encpad vd vb r => ⟨0x22, vd.num, 0, vb.num, r⟩
  | .decpad vd vb => ⟨0x23, vd.num, 0, vb.num, 0⟩

/-- The word `c` holds the numbers `x` in its fields, and its `Z` is 0. -/
def HoldsFields (c : Word) (x : Fields) : Prop :=
  (c.extractLsb' 24 8).toNat = x.op ∧ (c.extractLsb' 20 4).toNat = x.rd ∧ (c.extractLsb' 16 4).toNat = x.ra ∧
    (c.extractLsb' 12 4).toNat = x.rb ∧ (c.extractLsb' 8 4).toNat = 0 ∧ (c.extractLsb' 0 8).toNat = x.imm

theorem encode_eq_packFields (i : Instr) :
    encode i = packFields i.fields.op i.fields.rd i.fields.ra i.fields.rb i.fields.imm := by
  cases i <;> rfl

theorem wellFormed_iff_imm_lt (i : Instr) : i.wellFormed = true ↔ i.fields.imm < 256 := by
  cases i <;> simp [Instr.wellFormed, Instr.fields]

theorem fields_lt (i : Instr) : i.fields.op < 256 ∧ i.fields.rd < 4 ∧ i.fields.ra < 4 ∧ i.fields.rb < 4 := by
  cases i <;> simp [Instr.fields, MReg.num_lt, VReg.num_lt]

/-- The encoding of a well-formed command keeps every operand: each number fits its field. -/
theorem holdsFields_encode {i : Instr} (h : i.wellFormed = true) : HoldsFields (encode i) i.fields := by
  have himm : i.fields.imm < 256 := (wellFormed_iff_imm_lt i).mp h
  obtain ⟨hop, hrd, hra, hrb⟩ := fields_lt i
  obtain ⟨eop, erd, era, erb, ez, eimm⟩ := extract_layFields (BitVec.ofNat 8 i.fields.op) (BitVec.ofNat 4 i.fields.rd)
    (BitVec.ofNat 4 i.fields.ra) (BitVec.ofNat 4 i.fields.rb) 0#4 (BitVec.ofNat 8 i.fields.imm)
  rw [encode_eq_packFields, packFields_eq, HoldsFields, eop, erd, era, erb, ez, eimm]
  simp only [BitVec.toNat_ofNat]
  exact ⟨by omega, by omega, by omega, by omega, trivial, by omega⟩

/-- The fields of a word are all of it. -/
theorem encode_eq_of_holdsFields {c : Word} {i : Instr} (h : HoldsFields c i.fields) : encode i = c := by
  obtain ⟨hop, hrd, hra, hrb, hz, himm⟩ := h
  rw [word_eq_fields c, encode_eq_packFields, packFields_eq, ← hop, ← hrd, ← hra, ← hrb, ← himm,
    show c.extractLsb' 8 4 = 0#4 from BitVec.eq_of_toNat_eq hz]
  simp only [BitVec.ofNat_toNat, BitVec.setWidth_eq]

theorem wellFormed_of_holdsFields {c : Word} {i : Instr} (h : HoldsFields c i.fields) : i.wellFormed = true := by
  obtain ⟨_, _, _, _, _, himm⟩ := h
  exact (wellFormed_iff_imm_lt i).mpr (himm ▸ (c.extractLsb' 0 8).isLt)

/-! ## The decoder, field by field (R95, R96) -/

theorem fieldRd_eq_ofNat (c : Word) : fieldRd c = BitVec.ofNat 2 (c.extractLsb' 20 4).toNat := fieldRd_eq c

theorem fieldRa_eq_ofNat (c : Word) : fieldRa c = BitVec.ofNat 2 (c.extractLsb' 16 4).toNat := fieldRa_eq c

theorem fieldRb_eq_ofNat (c : Word) : fieldRb c = BitVec.ofNat 2 (c.extractLsb' 12 4).toNat := fieldRb_eq c

theorem fieldOk_iff {used : Bool} {x : BitVec 4} : fieldOk used x ↔ if used then x.toNat < 4 else x.toNat = 0 := by
  cases used with
  | true => rfl
  | false => exact BitVec.toNat_inj.symm

/-- The condition of a row, on the numbers in the fields. -/
theorem rowHolds_iff {op : BitVec 8} {d a b m : Bool} {c : Word} : RowHolds op d a b m c ↔
    (c.extractLsb' 24 8).toNat = op.toNat ∧ (if d then (c.extractLsb' 20 4).toNat < 4 else (c.extractLsb' 20 4).toNat = 0) ∧
    (if a then (c.extractLsb' 16 4).toNat < 4 else (c.extractLsb' 16 4).toNat = 0) ∧
    (if b then (c.extractLsb' 12 4).toNat < 4 else (c.extractLsb' 12 4).toNat = 0) ∧
    (c.extractLsb' 8 4).toNat = 0 ∧ (m = false → (c.extractLsb' 0 8).toNat = 0) := by
  simp only [RowHolds, fieldOk_iff, ← BitVec.toNat_inj, BitVec.toNat_zero]

/-- A word that decodes holds the numbers of its command: its row bounds each register field, so the low two bits are it. -/
theorem holdsFields_of_decode {c : Word} {i : Instr} (h : decode c = .ok i) : HoldsFields c i.fields := by
  rcases decode_cases c with ⟨hr, hd⟩ | ⟨hr, hd⟩ | ⟨hr, hd⟩ | ⟨hr, hd⟩ | ⟨hr, hd⟩ | ⟨hr, hd⟩ | ⟨hr, hd⟩ | ⟨hr, hd⟩ |
    ⟨hr, hd⟩ | ⟨hr, hd⟩ | ⟨hd, _⟩ <;> cases hd.symm.trans h
  all_goals
    simp only [rowHolds_iff, Bool.false_eq_true, if_true, if_false, true_imp_iff] at hr
    simp only [HoldsFields, Instr.fields, MReg.num_ofBits, VReg.num_ofBits, fieldRd_eq_ofNat, fieldRa_eq_ofNat, fieldRb_eq_ofNat,
      BitVec.toNat_ofNat, fieldImm, and_true] at hr ⊢
    omega

/-- A word that holds the numbers of a command decodes to it: its `OP` leaves one row of the map, whose conditions on the fields
hold, and the bits the operands are read from name the command's registers. -/
theorem decode_of_holdsFields {c : Word} {i : Instr} (h : HoldsFields c i.fields) : decode c = .ok i := by
  obtain ⟨hop, hrd, hra, hrb, hz, himm⟩ := h
  have hrows := decode_cases c
  simp only [rowHolds_iff, hop, hrd, hra, hrb, hz, himm, fieldRd_eq_ofNat, fieldRa_eq_ofNat, fieldRb_eq_ofNat, fieldImm] at hrows
  cases i <;> simpa [Instr.fields, MReg.num_lt, VReg.num_lt, MReg.ofBits_num, VReg.ofBits_num] using hrows

theorem decode_eq_ok_iff {c : Word} {i : Instr} : decode c = .ok i ↔ HoldsFields c i.fields :=
  ⟨holdsFields_of_decode, decode_of_holdsFields⟩

/-- Settles O3: the word of a well-formed command holds the command's numbers, and a word that holds them decodes to it. -/
theorem decodeOfEncodeIsInstruction : Obligations.DecodeOfEncodeIsInstruction :=
  fun _ h => decode_of_holdsFields (holdsFields_encode h)

/-- Settles O4: a word that decodes holds its command's numbers, and these are the whole word. -/
theorem encodeOfDecodeIsWord : Obligations.EncodeOfDecodeIsWord := by
  intro c i h
  have hf := holdsFields_of_decode h
  exact ⟨wellFormed_of_holdsFields hf, encode_eq_of_holdsFields hf⟩

/-! ## The rows of the opcode map and the illegal words (R95, R97, R101) -/

/-- Settles O2: on the fields, a row's mask and match leave of a command's numbers only that each register number is below 4. -/
theorem decodeByMatchAndMask : Obligations.DecodeByMatchAndMask := by
  intro c
  simp only [decode_eq_ok_iff, HoldsFields, Instr.fields, row_nop, row_dab (v := 0x10000000#32) (op := 0x10#8) (by decide),
    row_dab (v := 0x11000000#32) (op := 0x11#8) (by decide), row_a (v := 0x12000000#32) (op := 0x12#8) (by decide),
    row_a (v := 0x13000000#32) (op := 0x13#8) (by decide), row_da (v := 0x14000000#32) (op := 0x14#8) (by decide),
    row_db (v := 0x20000000#32) (op := 0x20#8) (by decide), row_db (v := 0x21000000#32) (op := 0x21#8) (by decide),
    row_dbi (v := 0x22000000#32) (op := 0x22#8) (by decide), row_db (v := 0x23000000#32) (op := 0x23#8) (by decide),
    rowHolds_iff]
  generalize (c.extractLsb' 24 8).toNat = op, (c.extractLsb' 20 4).toNat = rd, (c.extractLsb' 16 4).toNat = ra,
    (c.extractLsb' 12 4).toNat = rb, (c.extractLsb' 8 4).toNat = z, (c.extractLsb' 0 8).toNat = imm
  refine ⟨?_, ?_, ?_, ?_, ?_, ?_, ?_, ?_, ?_, ?_⟩
  all_goals
    intros
    grind [MReg.num_lt, VReg.num_lt]

end Sys2Proof

namespace Sys2Proof.Machine

/-- An illegal word without lockout: the fault record of R97. -/
theorem execute_illegal {c : Word} {e : Illegal} {s : State} (hd : decode c = .error e) (hf : s.fault = false) :
    execute c s = .next { s with err := 1#4, errcmd := c, errinfo := 0#32, fault := true } := by
  rw [execute_error hd, State.illegal, hf]
  rfl

/-- Settles O6: by the row the decoder finds, whose fields meet no clause, or by the `OP` of a word that fits no row: outside the
map, or with the one row of that `OP` failing in some field. -/
theorem illegalWordsFault : Obligations.IllegalWordsFault := by
  intro c
  refine ⟨?_, fun e s => execute_illegal⟩
  have h := decode_cases c
  simp only [rowHolds_iff, Bool.false_eq_true, if_true, if_false, true_imp_iff, reduceCtorEq, false_imp_iff, and_true] at h
  simp only [List.mem_cons, List.not_mem_nil, or_false]
  generalize (c.extractLsb' 24 8).toNat = op, (c.extractLsb' 20 4).toNat = rd, (c.extractLsb' 16 4).toNat = ra,
    (c.extractLsb' 12 4).toNat = rb, (c.extractLsb' 8 4).toNat = z, (c.extractLsb' 0 8).toNat = imm at *
  rcases h with ⟨hr, hd⟩ | ⟨hr, hd⟩ | ⟨hr, hd⟩ | ⟨hr, hd⟩ | ⟨hr, hd⟩ | ⟨hr, hd⟩ | ⟨hr, hd⟩ | ⟨hr, hd⟩ | ⟨hr, hd⟩ | ⟨hr, hd⟩ |
    ⟨hd, hrows⟩
  pick_goal 11
  · refine iff_of_true ⟨_, hd⟩ (or_iff_not_imp_left.mpr fun hmap => ?_)
    rcases not_not.mp hmap with rfl | rfl | rfl | rfl | rfl | rfl | rfl | rfl | rfl | rfl
    all_goals
      simp only [BitVec.reduceToNat, Nat.reduceEqDiff, true_and, false_and, not_false_eq_true, and_true] at hrows
      omega
  all_goals
    simp only [hd, reduceCtorEq, exists_false, false_iff, BitVec.reduceToNat] at hr ⊢
    omega

/-- Settles O1: the decoder evaluated on each word. -/
theorem workedEncodingsDecode : Obligations.WorkedEncodingsDecode := by
  refine ⟨rfl, rfl, rfl, rfl, rfl, rfl, rfl, rfl, rfl, rfl, rfl, rfl, rfl, rfl, rfl, rfl, ?_⟩
  simp only [List.forall_mem_cons]
  exact ⟨⟨_, rfl⟩, ⟨_, rfl⟩, ⟨_, rfl⟩, ⟨_, rfl⟩, ⟨_, rfl⟩, ⟨_, rfl⟩, ⟨_, rfl⟩, ⟨_, rfl⟩, ⟨_, rfl⟩, nofun⟩

end Sys2Proof.Machine

namespace Sys2Proof

/-! ## The number of legal words (R96) -/

/-- The four matrix registers by number (R92). -/
def MReg.equivFin : MReg ≃ Fin 4 where
  toFun k := ⟨k.num, k.num_lt⟩
  invFun b := MReg.ofBits (BitVec.ofNat 2 b.val)
  left_inv := MReg.ofBits_num
  right_inv := by decide

/-- The four vector registers by number (R92). -/
def VReg.equivFin : VReg ≃ Fin 4 where
  toFun k := ⟨k.num, k.num_lt⟩
  invFun b := VReg.ofBits (BitVec.ofNat 2 b.val)
  left_inv := VReg.ofBits_num
  right_inv := by decide

/-- The operands of a well-formed command, row by row of R94; the row is the place in the sum. -/
abbrev Operands : Type := Unit ⊕ (MReg × MReg × MReg) ⊕ (VReg × MReg × VReg) ⊕ MReg ⊕ MReg ⊕ (MReg × MReg) ⊕
  (VReg × VReg) ⊕ (VReg × VReg) ⊕ (VReg × VReg × Fin 256) ⊕ (VReg × VReg)

/-- A well-formed command is its row and its operands. -/
def wellFormedEquiv : {i : Instr // i.wellFormed = true} ≃ Operands where
  toFun
    | ⟨.nop, _⟩ => .inl ()
    | ⟨.mmul md ma mb, _⟩ => .inr (.inl (md, ma, mb))
    | ⟨.mvmul vd ma vb, _⟩ => .inr (.inr (.inl (vd, ma, vb)))
    | ⟨.mdet ma, _⟩ => .inr (.inr (.inr (.inl ma)))
    | ⟨.invchk ma, _⟩ => .inr (.inr (.inr (.inr (.inl ma))))
    | ⟨.minv md ma, _⟩ => .inr (.inr (.inr (.inr (.inr (.inl (md, ma))))))
    | ⟨.enc vd vb, _⟩ => .inr (.inr (.inr (.inr (.inr (.inr (.inl (vd, vb)))))))
    | ⟨.dec vd vb, _⟩ => .inr (.inr (.inr (.inr (.inr (.inr (.inr (.inl (vd, vb))))))))
    | ⟨.encpad vd vb r, h⟩ =>
      .inr (.inr (.inr (.inr (.inr (.inr (.inr (.inr (.inl (vd, vb, ⟨r, of_decide_eq_true h⟩)))))))))
    | ⟨.decpad vd vb, _⟩ => .inr (.inr (.inr (.inr (.inr (.inr (.inr (.inr (.inr (vd, vb)))))))))
  invFun
    | .inl () => ⟨.nop, rfl⟩
    | .inr (.inl (md, ma, mb)) => ⟨.mmul md ma mb, rfl⟩
    | .inr (.inr (.inl (vd, ma, vb))) => ⟨.mvmul vd ma vb, rfl⟩
    | .inr (.inr (.inr (.inl ma))) => ⟨.mdet ma, rfl⟩
    | .inr (.inr (.inr (.inr (.inl ma)))) => ⟨.invchk ma, rfl⟩
    | .inr (.inr (.inr (.inr (.inr (.inl (md, ma)))))) => ⟨.minv md ma, rfl⟩
    | .inr (.inr (.inr (.inr (.inr (.inr (.inl (vd, vb))))))) => ⟨.enc vd vb, rfl⟩
    | .inr (.inr (.inr (.inr (.inr (.inr (.inr (.inl (vd, vb)))))))) => ⟨.dec vd vb, rfl⟩
    | .inr (.inr (.inr (.inr (.inr (.inr (.inr (.inr (.inl (vd, vb, r))))))))) => ⟨.encpad vd vb r, decide_eq_true r.isLt⟩
    | .inr (.inr (.inr (.inr (.inr (.inr (.inr (.inr (.inr (vd, vb))))))))) => ⟨.decpad vd vb, rfl⟩
  left_inv := by rintro ⟨i, h⟩; cases i <;> rfl
  right_inv := by rintro (_ | _ | _ | _ | _ | _ | _ | _ | _ | _) <;> rfl

theorem card_wellFormed : Nat.card {i : Instr // i.wellFormed = true} = 4297 := by
  have hm : Finite MReg := .of_equiv _ MReg.equivFin.symm
  have hv : Finite VReg := .of_equiv _ VReg.equivFin.symm
  have cm : Nat.card MReg = 4 := (Nat.card_congr MReg.equivFin).trans (Nat.card_fin 4)
  have cv : Nat.card VReg = 4 := (Nat.card_congr VReg.equivFin).trans (Nat.card_fin 4)
  simp only [Nat.card_congr wellFormedEquiv, Nat.card_sum, Nat.card_prod, Nat.card_unique, Nat.card_fin, cm, cv]

/-- The encoder, from the well-formed commands to the legal words. -/
def encodeLegal (i : {i : Instr // i.wellFormed = true}) : {c : Word // ∃ i, decode c = .ok i} :=
  ⟨encode i, i, decodeOfEncodeIsInstruction i i.2⟩

theorem encodeLegal_bijective : Function.Bijective encodeLegal := by
  constructor
  · rintro ⟨i, hi⟩ ⟨j, hj⟩ h
    have henc : encode i = encode j := congrArg Subtype.val h
    have hij := (decodeOfEncodeIsInstruction i hi).symm.trans (henc ▸ decodeOfEncodeIsInstruction j hj)
    exact Subtype.ext (Except.ok.inj hij)
  · rintro ⟨c, i, hd⟩
    obtain ⟨hw, he⟩ := encodeOfDecodeIsWord c i hd
    exact ⟨⟨i, hw⟩, Subtype.ext he⟩

/-- Settles O5: the legal words are as many as the well-formed commands, which the rows count. -/
theorem legalWordCount : Obligations.LegalWordCount :=
  (Nat.card_congr (Equiv.ofBijective _ encodeLegal_bijective)).symm.trans card_wellFormed

end Sys2Proof

namespace Sys2Proof.Machine

/-! ## The assembler's source lines (R98, R99) -/

theorem asMatrix_isSome (o : Operand) : (asMatrix o).isSome = o.fits .matrix := by
  cases o <;> simp [asMatrix, Operand.fits, apply_ite Option.isSome]

theorem asVector_isSome (o : Operand) : (asVector o).isSome = o.fits .vector := by
  cases o <;> simp [asVector, Operand.fits, apply_ite Option.isSome]

theorem asCount_isSome (o : Operand) : (asCount o).isSome = o.fits .count := by
  cases o <;> simp [asCount, Operand.fits, apply_ite Option.isSome]

theorem lt_of_asCount {o : Operand} {v : Nat} (h : asCount o = some v) : v < 256 := by
  cases o with
  | imm w =>
    obtain ⟨hw, rfl⟩ : w < 256 ∧ w = v := by simpa [asCount] using h
    exact hw
  | mreg k => cases h
  | vreg k => cases h
  | key => cases h
  | inv => cases h

/-- The operands `os` read as those of the kinds `ks` give `r`: a command exactly when they fit, and then a well-formed one. -/
def Reads (ks : List OperandKind) (os : List Operand) (r : Option Instr) : Prop :=
  r.isSome = operandsFit ks os ∧ ∀ i, r = some i → i.wellFormed = true

theorem Reads.of_unfit {ks : List OperandKind} {os : List Operand} (h : operandsFit ks os = false) : Reads ks os none :=
  ⟨h.symm, nofun⟩

theorem Reads.nil {i : Instr} (h : i.wellFormed = true) : Reads [] [] (some i) :=
  ⟨rfl, fun _ hi => Option.some.inj hi ▸ h⟩

/-- The first operand is read, then the others. -/
theorem Reads.cons {α : Type} {r : Option α} {k : OperandKind} {ks : List OperandKind} {o : Operand} {os : List Operand}
    {g : α → Option Instr} (hr : r.isSome = o.fits k) (hg : ∀ x, r = some x → Reads ks os (g x)) :
    Reads (k :: ks) (o :: os) (r.bind g) := by
  cases r with
  | none => exact .of_unfit (by rw [operandsFit, ← hr]; rfl)
  | some x =>
    obtain ⟨hfit, hwf⟩ := hg x rfl
    exact ⟨by rw [operandsFit, ← hr]; exact hfit, hwf⟩

theorem Reads.last {α : Type} {r : Option α} {k : OperandKind} {o : Operand} {f : α → Instr} (hr : r.isSome = o.fits k)
    (hf : ∀ x, r = some x → (f x).wellFormed = true) : Reads [k] [o] (r.map f) := by
  rw [Option.map_eq_bind]
  exact .cons hr fun x hx => .nil (hf x hx)

theorem reads_takes0 {i : Instr} (hi : i.wellFormed = true) : ∀ os, Reads [] os (takes0 i os)
  | [] => .nil hi
  | _ :: _ => .of_unfit rfl

theorem reads_takesM {f : MReg → Instr} (hf : ∀ x, (f x).wellFormed = true) : ∀ os, Reads [.matrix] os (takesM f os)
  | [a] => .last (asMatrix_isSome a) fun x _ => hf x
  | [] => .of_unfit rfl
  | _ :: _ :: _ => .of_unfit (by simp [operandsFit])

theorem reads_takesMM {f : MReg → MReg → Instr} (hf : ∀ x y, (f x y).wellFormed = true) :
    ∀ os, Reads [.matrix, .matrix] os (takesMM f os)
  | [a, b] => .cons (asMatrix_isSome a) fun x _ => .last (asMatrix_isSome b) fun y _ => hf x y
  | [] | [_] | _ :: _ :: _ :: _ => .of_unfit (by simp [operandsFit])

theorem reads_takesVV {f : VReg → VReg → Instr} (hf : ∀ x y, (f x y).wellFormed = true) :
    ∀ os, Reads [.vector, .vector] os (takesVV f os)
  | [a, b] => .cons (asVector_isSome a) fun x _ => .last (asVector_isSome b) fun y _ => hf x y
  | [] | [_] | _ :: _ :: _ :: _ => .of_unfit (by simp [operandsFit])

theorem reads_takesMMM {f : MReg → MReg → MReg → Instr} (hf : ∀ x y z, (f x y z).wellFormed = true) :
    ∀ os, Reads [.matrix, .matrix, .matrix] os (takesMMM f os)
  | [a, b, c] => .cons (asMatrix_isSome a) fun x _ => .cons (asMatrix_isSome b) fun y _ =>
      .last (asMatrix_isSome c) fun z _ => hf x y z
  | [] | [_] | [_, _] | _ :: _ :: _ :: _ :: _ => .of_unfit (by simp [operandsFit])

theorem reads_takesVMV {f : VReg → MReg → VReg → Instr} (hf : ∀ x y z, (f x y z).wellFormed = true) :
    ∀ os, Reads [.vector, .matrix, .vector] os (takesVMV f os)
  | [a, b, c] => .cons (asVector_isSome a) fun x _ => .cons (asMatrix_isSome b) fun y _ =>
      .last (asVector_isSome c) fun z _ => hf x y z
  | [] | [_] | [_, _] | _ :: _ :: _ :: _ :: _ => .of_unfit (by simp [operandsFit])

/-- A count is read only below 256, so the command need be well formed for such counts only (R93). -/
theorem reads_takesVVC {f : VReg → VReg → Nat → Instr} (hf : ∀ x y v, v < 256 → (f x y v).wellFormed = true) :
    ∀ os, Reads [.vector, .vector, .count] os (takesVVC f os)
  | [a, b, c] => .cons (asVector_isSome a) fun x _ => .cons (asVector_isSome b) fun y _ =>
      .last (asCount_isSome c) fun v hv => hf x y v (lt_of_asCount hv)
  | [] | [_] | [_, _] | _ :: _ :: _ :: _ :: _ => .of_unfit (by simp [operandsFit])

theorem reads_assemble (l : AsmLine) : Reads l.mnemonic.signature l.operands (assemble l) := by
  obtain ⟨m, os⟩ := l
  cases m with
  | nop => exact reads_takes0 rfl os
  | mmul => exact reads_takesMMM (fun _ _ _ => rfl) os
  | mvmul => exact reads_takesVMV (fun _ _ _ => rfl) os
  | mdet => exact reads_takesM (fun _ => rfl) os
  | invchk => exact reads_takesM (fun _ => rfl) os
  | minv => exact reads_takesMM (fun _ _ => rfl) os
  | enc => exact reads_takesVV (fun _ _ => rfl) os
  | dec => exact reads_takesVV (fun _ _ => rfl) os
  | encpad => exact reads_takesVVC (f := .encpad) (fun _ _ _ h => decide_eq_true h) os
  | decpad => exact reads_takesVV (fun _ _ => rfl) os
  | keyinv => exact reads_takes0 rfl os
  | keychk => exact reads_takes0 rfl os
  | keydet => exact reads_takes0 rfl os

/-- Settles O8: by the mnemonic, reading the operands one by one. -/
theorem assembleExactlyWellFormedLines : Obligations.AssembleExactlyWellFormedLines := by
  intro l
  obtain ⟨hsome, hwf⟩ := reads_assemble l
  exact ⟨by rw [AsmLine.wellFormed, ← hsome, Option.isSome_iff_exists], hwf⟩

theorem asMatrix_num (k : MReg) : asMatrix (.mreg k.num) = some k := by
  rw [asMatrix, if_pos k.num_lt, matOf_num]

theorem asVector_num (k : VReg) : asVector (.vreg k.num) = some k := by
  rw [asVector, if_pos k.num_lt, vecOf_num]

theorem asCount_imm {r : Nat} (h : r < 256) : asCount (.imm r) = some r := if_pos h

theorem assemble_disassemble {i : Instr} (h : i.wellFormed = true) : assemble (disassemble i) = some i := by
  cases i with
  | encpad vd vb r =>
    have hr : r < 256 := of_decide_eq_true h
    simp [disassemble, assemble, takesVVC, asVector_num, asCount_imm hr]
  | _ => simp [disassemble, assemble, takes0, takesM, takesMM, takesVV, takesMMM, takesVMV, asMatrix_num, asVector_num]

/-- Settles O7: the source line assembles to the command, so by O8 it is well formed. -/
theorem assembleOfDisassemble : Obligations.AssembleOfDisassemble := by
  intro i h
  have ha := assemble_disassemble h
  exact ⟨(assembleExactlyWellFormedLines (disassemble i)).1.mpr ⟨i, ha⟩, ha⟩

/-- Settles O9: the assembler and the encoder evaluated on the three lines. -/
theorem pseudoInstructionsExpand : Obligations.PseudoInstructionsExpand :=
  ⟨⟨rfl, rfl⟩, ⟨rfl, rfl⟩, rfl, rfl⟩

end Sys2Proof.Machine
end

/-! PROOFS of the family 40_matrix_ops.md: the laws of the products (R123) and of the determinant (R131), algorithm G against the
adjugate form (R138 to R140), and what MMUL, MVMUL, MDET, INVCHK and MINV write (R122, R126, R130, R133, R134, R137). -/

section

namespace Sys2Proof.Machine

open Finset

/-! ## The laws of the products (R123)

Two residues modulo `m` are equal when their images in `ZMod m` are, and there `matvec` and `matmul` are Mathlib's products. -/

/-- Congruence as the statements write it is equality over `ZMod m`. -/
theorem intCast_eq_of_dvd_sub {m : Nat} {a b : Int} (h : (m : Int) ∣ a - b) : (a : ZMod m) = (b : ZMod m) :=
  ((ZMod.intCast_eq_intCast_iff_dvd_sub b a m).mpr h).symm

theorem toZ_eq_of_dvd_sub {n m : Nat} {A A' : IMat} (h : ∀ i j, i < n → j < n → (m : Int) ∣ A i j - A' i j) :
    toZ n m A = toZ n m A' := by
  ext i j
  exact intCast_eq_of_dvd_sub (h i j i.isLt j.isLt)

/-- The residues of a matrix are the matrix over `ZMod m`. -/
theorem toZ_residue (n : Nat) {m : Nat} (hm : 0 < m) (A : IMat) : toZ n m (fun i j => (residue (A i j) m : Int)) = toZ n m A := by
  ext i j
  simp only [toZ, Matrix.of_apply, Int.cast_natCast, residue_cast _ hm]

theorem toZ_matmul (n : Nat) {m : Nat} (hm : 0 < m) (A B : IMat) :
    toZ n m (fun i j => (matmul n A B m i j : Int)) = toZ n m A * toZ n m B := by
  ext i j
  rw [← matmul_cast n A B hm]
  simp only [toZ, Matrix.of_apply, Int.cast_natCast]

theorem toZ_identity (n m : Nat) : toZ n m (fun i j => if i = j then 1 else 0) = 1 := by
  ext i j
  simp [toZ, Matrix.one_apply, Fin.ext_iff]

theorem matvec_cast_fun (n : Nat) {m : Nat} (hm : 0 < m) (A : IMat) (v : IVec) :
    (fun j : Fin n => (((matvec n A v m j : Nat) : Int) : ZMod m)) = (toZ n m A).mulVec fun j => ((v j : Int) : ZMod m) := by
  funext j
  rw [Int.cast_natCast, matvec_cast n A v hm]

/-- `matvec` depends on its operands over `ZMod m` alone (R123 a). -/
theorem matvec_eq_of_cast {n m : Nat} (hm : 0 < m) {A A' : IMat} {v v' : IVec} (hA : toZ n m A = toZ n m A')
    (hv : ∀ j, j < n → (v j : ZMod m) = (v' j : ZMod m)) {i : Nat} (hi : i < n) : matvec n A v m i = matvec n A' v' m i := by
  refine eq_of_cast_eq (matvec_lt n A v hm i) (matvec_lt n A' v' hm i) ?_
  have hv' : (fun j : Fin n => ((v j : Int) : ZMod m)) = fun j : Fin n => ((v' j : Int) : ZMod m) :=
    funext fun j => hv j j.isLt
  rw [matvec_cast n A v hm ⟨i, hi⟩, matvec_cast n A' v' hm ⟨i, hi⟩, hA, hv']

/-- `matmul` depends on its operands over `ZMod m` alone (R123 a). -/
theorem matmul_eq_of_cast {n m : Nat} (hm : 0 < m) {A A' B B' : IMat} (hA : toZ n m A = toZ n m A') (hB : toZ n m B = toZ n m B')
    {i j : Nat} (hi : i < n) (hj : j < n) : matmul n A B m i j = matmul n A' B' m i j := by
  refine eq_of_cast_eq (matmul_lt n A B hm i j) (matmul_lt n A' B' hm i j) ?_
  rw [matmul_cast n A B hm ⟨i, hi⟩ ⟨j, hj⟩, matmul_cast n A' B' hm ⟨i, hi⟩ ⟨j, hj⟩, hA, hB]

/-- The transform by a product is one transform after the other (R123 b). -/
theorem matvec_matmul {n m : Nat} (hm : 0 < m) (A B : IMat) (v : IVec) {i : Nat} (hi : i < n) :
    matvec n (fun r c => (matmul n A B m r c : Int)) v m i = matvec n A (fun j => (matvec n B v m j : Int)) m i := by
  refine eq_of_cast_eq (matvec_lt n _ v hm i) (matvec_lt n A _ hm i) ?_
  rw [matvec_cast n _ v hm ⟨i, hi⟩, matvec_cast n A _ hm ⟨i, hi⟩, toZ_matmul n hm, matvec_cast_fun n hm, Matrix.mulVec_mulVec]

theorem matvec_identity {n m : Nat} (hm : 0 < m) (v : IVec) {i : Nat} (hi : i < n) :
    matvec n (fun r c => if r = c then 1 else 0) v m i = residue (v i) m := by
  refine eq_of_cast_eq (matvec_lt n _ v hm i) (residue_lt _ hm) ?_
  rw [matvec_cast n _ v hm ⟨i, hi⟩, toZ_identity, Matrix.one_mulVec, residue_cast _ hm]

theorem matmul_identity {n m : Nat} (hm : 0 < m) (A : IMat) {i j : Nat} (hi : i < n) (hj : j < n) :
    matmul n A (fun r c => if r = c then 1 else 0) m i j = residue (A i j) m := by
  refine eq_of_cast_eq (matmul_lt n A _ hm i j) (residue_lt _ hm) ?_
  rw [matmul_cast n A _ hm ⟨i, hi⟩ ⟨j, hj⟩, toZ_identity, mul_one, residue_cast _ hm, toZ, Matrix.of_apply]

/-- Settles O48: over `ZMod m` the two products are Mathlib's, where congruent operands are equal. -/
theorem productLaws : Obligations.ProductLaws := by
  intro n m hm
  have h0 : 0 < m := by omega
  refine ⟨?_, ?_, ?_, ?_, ?_⟩
  · intro A A' v v' hA hv i hi
    exact matvec_eq_of_cast h0 (toZ_eq_of_dvd_sub hA) (fun j hj => intCast_eq_of_dvd_sub (hv j hj)) hi
  · intro A A' B B' hA hB i j hi hj
    exact matmul_eq_of_cast h0 (toZ_eq_of_dvd_sub hA) (toZ_eq_of_dvd_sub hB) hi hj
  · exact fun A B v i hi => matvec_matmul h0 A B v hi
  · exact fun v i hi => matvec_identity h0 v hi
  · exact fun A i j hi hj => matmul_identity h0 A hi hj

/-! ## The laws of the determinant (R131)

`detZ` is Mathlib's determinant of the active region (`detZ_eq_det`), so each law is Mathlib's once the changed region is
written as a matrix operation. -/

theorem toMat_mul (n : Nat) (A B : IMat) : toMat n (fun i j => ∑ k ∈ range n, A i k * B k j) = toMat n A * toMat n B := by
  ext i j
  simp only [toMat, Matrix.of_apply, Matrix.mul_apply, sum_range]

theorem toMat_identity (n : Nat) : toMat n (fun i j => if i = j then 1 else 0) = 1 := by
  ext i j
  simp [toMat, Matrix.one_apply, Fin.ext_iff]

theorem toMat_swapRows (n : Nat) (A : IMat) (a b : Fin n) :
    toMat n (fun i j => if i = a then A b j else if i = b then A a j else A i j) =
      (toMat n A).submatrix (Equiv.swap a b) id := by
  ext i j
  simp only [toMat, Matrix.of_apply, Matrix.submatrix_apply, id, Equiv.swap_apply_def, Fin.ext_iff]
  split_ifs <;> rfl

/-- Replacing row `a` of the active region is Mathlib's `updateRow`. -/
theorem toMat_updateRow (n : Nat) (A : IMat) (a : Fin n) (row : IVec) :
    toMat n (fun i j => if i = a then row j else A i j) = (toMat n A).updateRow a fun j => row j := by
  ext i j
  simp only [toMat, Matrix.of_apply, Matrix.updateRow_apply, Fin.ext_iff]

/-- Congruent elements give congruent determinants (R131 a). -/
theorem dvd_detZ_sub {n m : Nat} {A B : IMat} (h : ∀ i j, i < n → j < n → (m : Int) ∣ A i j - B i j) :
    (m : Int) ∣ detZ n A - detZ n B := by
  rw [← ZMod.intCast_eq_intCast_iff_dvd_sub, detZ_cast, detZ_cast, toZ_eq_of_dvd_sub h]

theorem detZ_mul (n : Nat) (A B : IMat) : detZ n (fun i j => ∑ k ∈ range n, A i k * B k j) = detZ n A * detZ n B := by
  simp only [detZ_eq_det, toMat_mul, Matrix.det_mul]

theorem detZ_identity (n : Nat) : detZ n (fun i j => if i = j then 1 else 0) = 1 := by
  rw [detZ_eq_det, toMat_identity, Matrix.det_one]

theorem detZ_swapRows {n : Nat} (A : IMat) {a b : Nat} (ha : a < n) (hb : b < n) (hab : a ≠ b) :
    detZ n (fun i j => if i = a then A b j else if i = b then A a j else A i j) = - detZ n A := by
  have hne : (⟨a, ha⟩ : Fin n) ≠ ⟨b, hb⟩ := fun e => hab (congrArg Fin.val e)
  rw [detZ_eq_det, detZ_eq_det, toMat_swapRows n A ⟨a, ha⟩ ⟨b, hb⟩, Matrix.det_permute, Equiv.Perm.sign_swap hne]
  simp

theorem detZ_addRow {n : Nat} (A : IMat) (q : Int) {a b : Nat} (ha : a < n) (hb : b < n) (hab : a ≠ b) :
    detZ n (fun i j => if i = a then A a j + q * A b j else A i j) = detZ n A := by
  have hne : (⟨a, ha⟩ : Fin n) ≠ ⟨b, hb⟩ := fun e => hab (congrArg Fin.val e)
  rw [detZ_eq_det, detZ_eq_det, toMat_updateRow n A ⟨a, ha⟩ fun j => A a j + q * A b j]
  exact Matrix.det_updateRow_add_smul_self (toMat n A) hne q

theorem detZ_scaleRow {n : Nat} (A : IMat) (u : Int) {a : Nat} (ha : a < n) :
    detZ n (fun i j => if i = a then u * A a j else A i j) = u * detZ n A := by
  rw [detZ_eq_det, detZ_eq_det, toMat_updateRow n A ⟨a, ha⟩ fun j => u * A a j]
  have h := Matrix.det_updateRow_smul (toMat n A) ⟨a, ha⟩ u (toMat n A ⟨a, ha⟩)
  rwa [Matrix.updateRow_eq_self] at h

theorem detZ_expandRow (n : Nat) (A : IMat) {a : Nat} (ha : a ≤ n) :
    detZ (n + 1) A = ∑ j ∈ range (n + 1), (-1) ^ (a + j) * A a j * detZ n (minor A a j) := by
  rw [detZ_eq_det, Matrix.det_succ_row _ (⟨a, by omega⟩ : Fin (n + 1)), sum_range]
  exact sum_congr rfl fun j _ => by rw [detZ_eq_det, ← toMat_minor]; rfl

theorem detZ_expandColumn (n : Nat) (A : IMat) {b : Nat} (hb : b ≤ n) :
    detZ (n + 1) A = ∑ i ∈ range (n + 1), (-1) ^ (i + b) * A i b * detZ n (minor A i b) := by
  rw [detZ_eq_det, Matrix.det_succ_column _ (⟨b, by omega⟩ : Fin (n + 1)), sum_range]
  exact sum_congr rfl fun i _ => by rw [detZ_eq_det, ← toMat_minor]; rfl

/-- Settles O49: the laws of Mathlib's determinant, read back on the active region. -/
theorem determinantLaws : Obligations.DeterminantLaws := by
  intro n m A B
  exact ⟨dvd_detZ_sub, detZ_mul n A B, detZ_identity n, fun a b => detZ_swapRows A, fun a b q => detZ_addRow A q,
    fun a u => detZ_scaleRow A u, fun a => detZ_expandRow n A, fun b => detZ_expandColumn n A⟩

/-! ## Algorithm G (R138 to R140) -/

/-- When every column is done the right half of the table is a left inverse, so an inverse. -/
theorem identityProduct_of_columnsDone {n m : Nat} {A : IMat} {T : List GRow} (hm : 2 ≤ m) (hT : TableOf n m A T)
    (hC : ColumnsDone n n T) : IdentityProduct n A (fun i j => (entryAt T i (n + j) : Int)) m := by
  have hleft : leftHalf n m T = 1 := by
    ext i j
    rw [leftHalf, Matrix.of_apply, hC i j i.isLt j.isLt]
    simp [Matrix.one_apply, Fin.ext_iff]
  have hright : toZ n m (fun i j => (entryAt T i (n + j) : Int)) = rightHalf n m T := by
    ext i j
    simp only [toZ, rightHalf, Matrix.of_apply, Int.cast_natCast]
  obtain ⟨_, hprod, _⟩ := hT
  refine identityProduct_comm hm ((identityProduct_iff hm _ _).mpr ?_)
  rw [hright, ← hprod, hleft]

/-- Settles O52: a run that ends in a table ends in an inverse, and there is only one; a run that stops saw a singular matrix. -/
theorem gaussJordanAgreesWithAdjugate : Obligations.GaussJordanAgreesWithAdjugate := by
  intro n m A hm
  have hstart : ColumnsDone n (n - n) (gaussTable n A m) := fun i j _ hj => absurd hj (by omega)
  obtain ⟨hstop, hdone⟩ := gaussColumns_spec hm n _ le_rfl (gaussTable_spec n m A hm) hstart
  cases hrun : gaussColumns m n n (gaussTable n A m) with
  | none =>
    have hsing : ¬ Unimodular n A m := hstop hrun
    exact ⟨fun hu => absurd hu hsing, fun _ => by rw [invGauss, hrun]; rfl⟩
  | some T =>
    obtain ⟨hT, hC⟩ := hdone T hrun
    have hinv := identityProduct_of_columnsDone hm hT hC
    refine ⟨fun _ => ⟨fun i j => entryAt T i (n + j), by rw [invGauss, hrun]; rfl, fun i j hi hj => ?_⟩, fun hsing => ?_⟩
    · exact eq_invMat hm (fun i j _ _ => entryAt_lt (by omega) hT.1 i (n + j)) hinv hi hj
    · exact absurd (unimodular_of_identity hm hinv) hsing

/-! ## What the matrix commands write (R122, R126, R130, R133, R134, R137) -/

theorem matvec_eq_sum (n : Nat) (A : IMat) (v : IVec) (m i : Nat) :
    matvec n A v m i = ((∑ x ∈ range n, A i x * v x) % (m : Int)).toNat := by
  rw [matvec, residue, sumTo_eq_sum_range]

theorem matmul_eq_sum (n : Nat) (A B : IMat) (m i j : Nat) :
    matmul n A B m i j = ((∑ x ∈ range n, A i x * B x j) % (m : Int)).toNat := by
  rw [matmul, residue, sumTo_eq_sum_range]

/-- `det(A)` as the statements write it. -/
theorem detZ_eq_det_of (n : Nat) (A : IMat) : detZ n A = (Matrix.of fun i j : Fin n => A i j).det := detZ_eq_det n A

theorem invValidAfterMmul_eq (md : MReg) (old : Bool) :
    invValidAfterMmul md old = if md = .m0 ∨ md = .m1 then false else old := by
  simp only [invValidAfterMmul, watched_iff]

theorem invValidAfterMinv_eq (md ma : MReg) (old : Bool) : invValidAfterMinv md ma old =
    if md = .m1 ∧ ma = .m0 then true else if md = .m0 ∨ md = .m1 then false else old := by
  simp only [invValidAfterMinv, watched_iff]

/-- Settles O24: the effect of a ready `MMUL`, with its product written as a sum. -/
theorem mmulWritesTheProduct : Obligations.MmulWritesTheProduct := by
  intro md ma mb s hs
  refine ⟨_, execMmul_ready hs md ma mb, fun k i j => ?_, invValidAfterMmul_eq md s.invValid, rfl⟩
  rw [← matmul_eq_sum]
  exact elemM_writeActM s md s.size _ k i j

/-- Settles O25: the effect of a ready `MVMUL`, with its transform written as a sum. -/
theorem mvmulWritesTheTransform : Obligations.MvmulWritesTheTransform := by
  intro vd ma vb s hs
  refine ⟨_, execMvmul_ready hs vd ma vb, fun k i => ?_, rfl⟩
  rw [← matvec_eq_sum]
  exact elemV_transform s vd s.modulus s.size _ _ k i

/-- Settles O26: the effect of a ready `MDET`; the row-0 expansion is the determinant. -/
theorem mdetWritesTheDeterminant : Obligations.MdetWritesTheDeterminant := by
  intro ma s hs
  rw [execMdet_ready hs, detZ_eq_det_of, residue]

/-- Settles O27: the effect of a ready `INVCHK`; the gcd divides a positive modulus. -/
theorem invchkWritesTheVerdict : Obligations.InvchkWritesTheVerdict := by
  intro ma s hs
  have hm : 0 < s.modulus := by have := hs.modulus_ge; omega
  refine ⟨residue (detZ s.size (s.actM 0 ma)) s.modulus, gcdOf (residue (detZ s.size (s.actM 0 ma)) s.modulus) s.modulus,
    ?_, rfl, Nat.gcd_pos_of_pos_right _ hm, Nat.gcd_le_right _ hm, fun hd => ?_, execInvchk_ready hs ma⟩
  · rw [coe_residue _ hm, detZ_eq_det_of]
  · rw [hd, gcdOf, Nat.gcd_zero_left]

/-- Settles O28: the effect of a ready `MINV` on an invertible matrix; `inv(A, m)` is the one inverse of residues. -/
theorem minvWritesTheInverse : Obligations.MinvWritesTheInverse := by
  intro md ma s hs hg
  have hm := hs.modulus_ge
  have hu : Unimodular s.size (s.actM 0 ma) s.modulus := by rwa [← detZ_eq_det_of] at hg
  obtain ⟨hAB, hBA⟩ := invMat_identity hm hu
  exact ⟨_, invMat s.size (s.actM 0 ma) s.modulus, execMinv_ready hs hu, elemM_writeActM s md s.size _,
    fun i j _ _ => invMat_lt _ _ (by omega) i j, hAB, hBA, fun C hC h i j hi hj => eq_invMat hm hC h hi hj,
    invValidAfterMinv_eq md ma s.invValid, rfl⟩

/-- The inverse of the inverse is the matrix of residues: it is an inverse of `inv(A, m)`, and there is only one. -/
theorem invMat_invMat {n m : Nat} (hm : 2 ≤ m) {A : IMat} (hu : Unimodular n A m) {i j : Nat} (hi : i < n) (hj : j < n) :
    invMat n (fun i j => (invMat n A m i j : Int)) m i j = residue (A i j) m := by
  have h0 : 0 < m := by omega
  refine (eq_invMat hm (fun i j _ _ => residue_lt (A i j) h0) ?_ hi hj).symm
  rw [identityProduct_iff hm, toZ_residue n h0]
  exact (toZ_mul_invMat h0 hu).2

/-- What a completed `MINV` left in its destination is what the next command reads there. -/
theorem actM_effect_minv {s : State} (hs : s.ready) (md ma : MReg) (pos : Nat) {i j : Nat} (hi : i < s.size) (hj : j < s.size) :
    (s.effect (.minv md ma)).actM pos md i j = (invMat s.size (s.actM 0 ma) s.modulus i j : Int) :=
  actM_of_region hs.modulus_le hs.size_le (invMat_lt s.size (s.actM 0 ma) (by have := hs.modulus_ge; omega))
    (fun _ _ hi hj => (elemM_writeActM ..).trans (if_pos ⟨rfl, hi, hj⟩)) pos hi hj

/-- Settles O30: the second `MINV` reads `inv(A, m)`, which is invertible, and inverts it. -/
theorem minvTwiceGivesTheResidues : Obligations.MinvTwiceGivesTheResidues := by
  intro ma d1 d2 s hs hu
  have hm := hs.modulus_ge
  have hs' : (s.effect (.minv d1 ma)).ready := hs
  have hread : ∀ i j, i < s.size → j < s.size →
      (s.effect (.minv d1 ma)).actM 0 d1 i j = (invMat s.size (s.actM 0 ma) s.modulus i j : Int) :=
    fun i j => actM_effect_minv hs d1 ma 0
  have hu' : Unimodular s.size ((s.effect (.minv d1 ma)).actM 0 d1) s.modulus := by
    rw [Unimodular, detZ_congr hread]
    exact unimodular_of_identity hm (invMat_identity hm hu).2
  refine ⟨_, _, execMinv_ready hs hu, execMinv_ready hs' hu', fun i j hi hj => ?_⟩
  refine (elemM_writeActM ..).trans ((if_pos ⟨rfl, hi, hj⟩).trans ?_)
  exact congrArg Elem.holds ((invMat_congr hread s.modulus i j).trans (invMat_invMat hm hu hi hj))

/-- Settles O31: both commands ask the one criterion, the gcd of the determinant's residue with `RADIX`. -/
theorem invchkAgreesWithMinv : Obligations.InvchkAgreesWithMinv := by
  intro md ma s hs
  by_cases hu : Unimodular s.size (s.actM 0 ma) s.modulus
  · have hfault : (s.effect (.minv md ma)).fault = false := hs.1
    refine ⟨_, _, execInvchk_ready hs ma, execMinv_ready hs hu, ?_, fun hf => Bool.noConfusion (hfault.symm.trans hf)⟩
    exact iff_of_true (decide_eq_true hu) hfault
  · refine ⟨_, _, execInvchk_ready hs ma, execMinv_singular hs hu, ?_, fun _ => ⟨rfl, rfl⟩⟩
    exact iff_of_false (fun hd => hu (of_decide_eq_true hd)) Bool.noConfusion

/-- Settles O37: a ready command has its effect, which keeps `FAULT`, or raises a fault, which sets it. -/
theorem completionCondition : Obligations.CompletionCondition := by
  intro i s hs
  rcases exec_ready_cases hs i with ⟨hc, he⟩ | ⟨hnc, f, info, _, he⟩
  · exact ⟨_, he, iff_of_true ((effect_fault s i).trans hs.1) hc⟩
  · exact ⟨_, he, iff_of_false Bool.noConfusion hnc⟩

end Sys2Proof.Machine
end

/-! PROOFS of the family 41_cipher_ops.md: what ENC, DEC, ENCPAD and DECPAD write (R151 to R153, R156, R160), and what decrypting
an encrypted block recovers (R154, R159). -/

section

namespace Sys2Proof.Machine

open Finset

/-! ## What the cipher commands write (R151 to R153, R156, R160) -/

/-- The destination of a transform, with the transform written as a sum. -/
theorem elemV_transform_eq_sum (s : State) (vd : VReg) (m n : Nat) (A : IMat) (v : IVec) (k : VReg) (i : Fin 8) :
    (s.transform vd m n A v).elemV k i = if k = vd ∧ i.val < n then
      ⟨true, Sys2Proof.word ((∑ x ∈ range n, A i x * v x) % (m : Int)).toNat⟩ else s.elemV k i := by
  rw [← matvec_eq_sum]
  exact elemV_transform s vd m n A v k i

/-- Settles O32: the effect of a ready `ENC`, with its transform written as a sum. -/
theorem encEncryptsTheBlock : Obligations.EncEncryptsTheBlock := by
  intro vd vb s hs
  exact ⟨_, execEnc_ready hs vd vb, elemV_transform_eq_sum s vd s.modulus s.size _ _, rfl⟩

/-- Settles O36: from a ready state both commands transform by what M0 reads as. -/
theorem encEqualsMvmulByKey : Obligations.EncEqualsMvmulByKey := by
  intro vd vb s hs
  rw [execEnc_ready hs, execMvmul_ready hs]

/-- Settles O33: `INV_VALID` decides between the effect of a ready `DEC` and its fault. -/
theorem decDecryptsTheBlock : Obligations.DecDecryptsTheBlock := by
  intro vd vb s hs
  refine ⟨fun hv => ?_, fun hv => execDec_notValid hs hv vd vb⟩
  exact ⟨_, execDec_ready hs hv vd vb, elemV_transform_eq_sum s vd s.modulus s.size _ _, rfl⟩

/-- Settles O35: `x` is the decrypted block and its last slot the pad count, so the three cases are those of a ready `DECPAD`. -/
theorem decpadDecryptsAndChecksPadding : Obligations.DecpadDecryptsAndChecksPadding := by
  intro vd vb s x hs hx
  obtain rfl : x = matvec s.size (s.actM 0 .m1) (s.actV 1 vb) s.modulus :=
    funext fun i => (hx i).trans (matvec_eq_sum ..).symm
  refine ⟨fun hv h1 h2 => ?_, fun hv hp => execDecpad_corrupt hs hv hp vd, fun hv => execDecpad_notValid hs hv vd vb⟩
  refine ⟨_, execDecpad_ready hs hv h1 h2 vd, elemV_transform s vd s.modulus s.size _ _, ?_, rfl⟩
  exact uint_word (h2.trans_lt (by have := hs.size_le; omega))

/-! The block that ENCPAD synthesizes (R156) -/

theorem padBlock_of_lt {n j : Nat} (h : j + 1 < n) (r : Nat) (v : IVec) : padBlock n r v j = v j :=
  if_neg h.ne

theorem padBlock_last {n r j : Nat} (hj : j + 1 = n) (hr : r ≤ n) (v : IVec) : padBlock n r v j = ((n - r : Nat) : Int) :=
  (if_pos hj).trans (Int.ofNat_sub hr).symm

/-- The padded block depends on the slots before the last alone. -/
theorem padBlock_congr {n : Nat} {v v' : IVec} (h : ∀ j, j + 1 < n → v' j = v j) (r : Nat) {j : Nat} (hj : j < n) :
    padBlock n r v' j = padBlock n r v j := by
  by_cases hlast : j + 1 = n
  · exact (if_pos hlast).trans (if_pos hlast).symm
  · rw [padBlock_of_lt (by omega), padBlock_of_lt (by omega), h j (by omega)]

/-- The sum over a padded block: the slots before the last as they are, and the marker in the last. -/
theorem sum_padBlock {n r : Nat} (hr : r < n) (f v : IVec) : ∑ x ∈ range n, f x * padBlock n r v x =
    (∑ x ∈ range (n - 1), f x * v x) + f (n - 1) * ((n - r : Nat) : Int) := by
  have hn : n - 1 + 1 = n := by omega
  have hslots : ∀ x ∈ range (n - 1), f x * padBlock n r v x = f x * v x := fun x hx => by
    rw [padBlock_of_lt (by have := mem_range.mp hx; omega)]
  calc ∑ x ∈ range n, f x * padBlock n r v x
      = ∑ x ∈ range (n - 1 + 1), f x * padBlock n r v x := by rw [hn]
    _ = (∑ x ∈ range (n - 1), f x * v x) + f (n - 1) * ((n - r : Nat) : Int) := by
        rw [sum_range_succ, sum_congr rfl hslots, padBlock_last hn hr.le]

/-- Settles O34: the count decides between the effect of a ready `ENCPAD`, whose last summand is the marker's, and its fault. -/
theorem encpadEncryptsThePaddedBlock : Obligations.EncpadEncryptsThePaddedBlock := by
  intro vd vb r s hs _
  refine ⟨fun hr => ⟨_, execEncpad_ready hs hr vd vb, fun k i => ?_, rfl⟩, fun hr => execEncpad_badOperand hs hr vd vb⟩
  rw [← sum_padBlock hr]
  exact elemV_transform_eq_sum s vd s.modulus s.size _ _ k i

/-! ## Slot `n - 1` of ENCPAD's source (R156) -/

/-- A write of one slot leaves what the other slots read as. -/
theorem actV_setElemV_of_ne {s : State} {k : VReg} {j : Fin 8} {i : Nat} (hi : i < 8) (hne : i ≠ j.val) (w : Word) (pos : Nat) :
    (s.setElemV k j w).actV pos k i = s.actV pos k i := by
  have helem : (s.setElemV k j w).elemV k ⟨i, hi⟩ = s.elemV k ⟨i, hi⟩ :=
    (elemV_setElemV ..).trans (if_neg fun h => hne (congrArg Fin.val h.2))
  rw [actV_eq _ pos k hi, actV_eq s pos k hi, State.wordV, State.wordV, helem, State.setElemV_txn]

/-- What a fault of ENCPAD says of the state is unchanged by a write to a vector register. -/
theorem raises_encpad_setElemV {s : State} {vd vb : VReg} {r : Nat} {f : FaultCode} {info : Nat}
    (h : Raises s (.encpad vd vb r) f info) (k : VReg) (j : Fin 8) (w : Word) :
    Raises (s.setElemV k j w) (.encpad vd vb r) f info := by
  cases h with
  | badRadix hi hr => exact .badRadix hi hr
  | badN hi hr hn => exact .badN hi hr hn
  | badOperand hs hr => exact .badOperand hs hr

/-- Outside the vector registers ENCPAD does the same after a write to one of them. -/
theorem exec_encpad_setElemV_rest {vd vb : VReg} {r : Nat} {s t : State} (he : exec (.encpad vd vb r) s = .next t)
    (k : VReg) (j : Fin 8) (w : Word) :
    ∃ t', exec (.encpad vd vb r) (s.setElemV k j w) = .next t' ∧ { t' with vecs := t.vecs } = t := by
  rcases exec_cases he with ⟨hi, rfl⟩ | ⟨hf, f, info, hr, rfl⟩ | ⟨hs, hr, rfl⟩
  · exact ⟨_, exec_of_ignored hi, rfl⟩
  · exact ⟨_, exec_of_raises hf (raises_encpad_setElemV hr k j w), rfl⟩
  · exact ⟨_, execEncpad_ready (s := s.setElemV k j w) hs hr vd vb, rfl⟩

/-- ENCPAD's ciphertext is the same whatever slot `n - 1` of its source holds. -/
theorem matvec_encpad_setElemV {s : State} (hs : s.ready) {j : Fin 8} (hj : j.val + 1 = s.size) (A : IMat) (vb : VReg) (r : Nat)
    (w : Word) (m i : Nat) :
    matvec s.size A (padBlock s.size r ((s.setElemV vb j w).actV 1 vb)) m i =
      matvec s.size A (padBlock s.size r (s.actV 1 vb)) m i := by
  have hread : ∀ x, x + 1 < s.size → (s.setElemV vb j w).actV 1 vb x = s.actV 1 vb x := fun x hx =>
    actV_setElemV_of_ne (by have := hs.size_le; omega) (by omega) w 1
  exact matvec_congr (fun _ _ => rfl) fun x hx => padBlock_congr hread r hx

/-- Settles O43: the states agree outside the vectors, and a completed ENCPAD synthesizes the same block in both. -/
theorem encpadIgnoresTheLastSlot : Obligations.EncpadIgnoresTheLastSlot := by
  intro vd vb r s t j w hj he
  obtain ⟨t', he', hrest⟩ := exec_encpad_setElemV_rest he vb j w
  refine ⟨t', he', fun hs hr i hi => ?_, hrest⟩
  obtain rfl := Host.Outcome.next.inj (he.symm.trans (execEncpad_ready hs hr vd vb))
  obtain rfl := Host.Outcome.next.inj (he'.symm.trans (execEncpad_ready (s := s.setElemV vb j w) hs hr vd vb))
  rw [elemV_transform, elemV_transform, if_pos ⟨rfl, hi⟩, if_pos ⟨rfl, hi⟩]
  exact congrArg Elem.holds (matvec_encpad_setElemV hs hj _ vb r w s.modulus i)

/-! ## Encrypting and decrypting (R154, R159)

With `INV_VALID = 1` and a written key M0 and M1 are inverse, so the second of two transforms undoes the first. -/

theorem keys_inverse {s : State} (hI : s.Inv) (hs : s.ready) (hv : s.invValid = true) (hw : s.writtenM .m0 s.size) :
    IdentityProduct s.size (s.actM 0 .m0) (s.actM 0 .m1) s.modulus ∧
    IdentityProduct s.size (s.actM 0 .m1) (s.actM 0 .m0) s.modulus := by
  obtain ⟨_, hinv, _, _⟩ := hI
  obtain ⟨_, _, hw1, _, hkey⟩ := hinv hv
  have hM1 : ∀ i j, i < s.size → j < s.size → s.actM 1 .m1 i j = s.actM 0 .m1 i j :=
    fun i j => actM_eq_of_elem hw1 hs.size_le (fun _ _ => rfl) 1 0
  obtain ⟨hread, _⟩ := hkey hw
  have hKI := identityProduct_congr (fun _ _ _ _ => rfl) hM1 hread
  exact ⟨hKI, identityProduct_comm hs.modulus_ge hKI⟩

/-- What a transform left in its destination is what the next command reads there. -/
theorem actV_transform {s : State} (hs : s.ready) (vd : VReg) (A : IMat) (v : IVec) (pos : Nat) {i : Nat} (hi : i < s.size) :
    (s.transform vd s.modulus s.size A v).actV pos vd i = (matvec s.size A v s.modulus i : Int) :=
  actV_of_region hs.modulus_le hs.size_le (matvec_lt s.size A v (by have := hs.modulus_ge; omega))
    (fun _ hi => (elemV_transform ..).trans (if_pos ⟨rfl, hi⟩)) pos hi

/-- A transform by an inverse undoes the transform before it. -/
theorem matvec_actV_transform {s : State} (hs : s.ready) {A B : IMat} (h : IdentityProduct s.size A B s.modulus) (vd : VReg)
    (v : IVec) (pos : Nat) {i : Nat} (hi : i < s.size) :
    matvec s.size A ((s.transform vd s.modulus s.size B v).actV pos vd) s.modulus i = residue (v i) s.modulus := by
  rw [← matvec_matvec hs.modulus_ge h v hi]
  exact matvec_congr (fun _ _ => rfl) fun _ hj => actV_transform hs vd B v pos hj

/-- Two transforms by inverse matrices leave the residues of the block in the second destination. -/
theorem elemV_transform_transform {s : State} (hs : s.ready) {A B : IMat} (h : IdentityProduct s.size A B s.modulus) (b c : VReg)
    (v : IVec) (pos : Nat) {j : Fin 8} (hj : j.val < s.size) :
    ((s.transform b s.modulus s.size B v).transform c s.modulus s.size A
      ((s.transform b s.modulus s.size B v).actV pos b)).elemV c j = Elem.holds (residue (v j) s.modulus) :=
  (elemV_transform ..).trans ((if_pos ⟨rfl, hj⟩).trans (congrArg Elem.holds (matvec_actV_transform hs h b v pos hj)))

/-- Settles O46: the second command transforms by the inverse of the matrix that the first transformed by. -/
theorem blockRoundTrip : Obligations.BlockRoundTrip := by
  intro s a b c hI hs hv hw
  obtain ⟨hKI, hIK⟩ := keys_inverse hI hs hv hw
  have hsEnc : (s.effect (.enc b a)).ready := hs
  have hsDec : (s.effect (.dec b a)).ready := hs
  refine ⟨⟨_, _, execEnc_ready hs b a, execDec_ready hsEnc hv c b, fun j hj => ?_⟩,
    ⟨_, _, execDec_ready hs hv b a, execEnc_ready hsDec c b, fun j hj => ?_⟩⟩
  · exact elemV_transform_transform hs hIK b c (s.actV 1 a) 1 hj
  · exact elemV_transform_transform hs hKI b c (s.actV 1 a) 1 hj

theorem residue_natCast (x m : Nat) : residue (x : Int) m = x % m := by
  rw [residue, ← Int.natCast_mod, Int.toNat_natCast]

/-- The pad count that DECPAD finds in an encrypted padded block is the residue of the marker (R159). -/
theorem padCount_effect_encpad {s : State} (hs : s.ready) (h : IdentityProduct s.size (s.actM 0 .m1) (s.actM 0 .m0) s.modulus)
    (b a : VReg) {r : Nat} (hr : r < s.size) : (s.effect (.encpad b a r)).padCount b = (s.size - r) % s.modulus := by
  have hlast : s.size - 1 + 1 = s.size := by omega
  calc (s.effect (.encpad b a r)).padCount b
      = residue (padBlock s.size r (s.actV 1 a) (s.size - 1)) s.modulus :=
        matvec_actV_transform hs h b _ 1 (show s.size - 1 < s.size by omega)
    _ = (s.size - r) % s.modulus := by rw [padBlock_last hlast hr.le, residue_natCast]

/-- Settles O47: DECPAD finds the residue of the marker, which is the marker below the radix; a residue of 0 is corrupt. -/
theorem paddingRecovered : Obligations.PaddingRecovered := by
  intro s a b c r hI hs hv hw hr
  obtain ⟨_, hIK⟩ := keys_inverse hI hs hv hw
  have hs' : (s.effect (.encpad b a r)).ready := hs
  have hp := padCount_effect_encpad hs hIK b a hr
  by_cases h0 : (s.size - r) % s.modulus = 0
  · have hle : s.modulus ≤ s.size - r := Nat.le_of_dvd (by omega) (Nat.dvd_of_mod_eq_zero h0)
    refine ⟨_, _, execEncpad_ready hs hr b a, execDecpad_corrupt hs' hv (.inl (by omega)) c,
      fun hlt => absurd hlt (by omega), fun _ => ⟨fun hne => absurd h0 hne, fun _ => ⟨rfl, rfl, ?_⟩⟩⟩
    exact congrArg Sys2Proof.word (hp.trans h0)
  · have hn : (s.effect (.encpad b a r)).padCount b ≤ s.size := by
      rw [hp]
      exact (Nat.mod_le ..).trans (Nat.sub_le ..)
    have hpad : uint (Sys2Proof.word ((s.effect (.encpad b a r)).padCount b)) = (s.size - r) % s.modulus :=
      (uint_word (by have := hs.size_le; omega)).trans hp
    have hcell (j : Fin 8) (hj : j.val < s.size) :=
      elemV_transform_transform hs hIK b c (padBlock s.size r (s.actV 1 a)) 1 hj
    refine ⟨_, _, execEncpad_ready hs hr b a, execDecpad_ready hs' hv (by omega) hn c,
      fun hlt => ⟨hs.1, hpad.trans (Nat.mod_eq_of_lt hlt), fun j hj => ?_, fun j hj => ?_⟩,
      fun hle => ⟨fun _ => ⟨hs.1, hpad, ?_⟩, fun h => absurd h h0⟩⟩
    · refine (hcell j (by omega)).trans ?_
      rw [padBlock_of_lt hj]
      rfl
    · refine (hcell j (by omega)).trans ?_
      rw [padBlock_last hj hr.le, residue_of_lt hlt]
      rfl
    · have hlt := Nat.mod_lt (s.size - r) (show s.modulus > 0 by have := hs.modulus_ge; omega)
      exact hpad.trans_ne (by omega)

end Sys2Proof.Machine
end


/-! PROOFS of the family 42_system_and_port_ops.md: a write of a legal word to `CMD` (R175), a step with nothing presented (R178),
and NOP (R171). -/

section

namespace Sys2Proof.Machine

/-! ## The step (R175, R178) -/

/-- Settles O10: the step performs the write, which at `CMD` is `Execute`. -/
theorem stepRunsDecodedInstruction : Obligations.StepRunsDecodedInstruction := by
  intro s c i rest hport hdec
  calc step s
      = portWrite 0x003#9 c (s.accept rest) := step_input hport
    _ = execute c (s.accept rest) := portWrite_cmd c _
    _ = exec i (s.accept rest) := execute_ok hdec _

/-- Settles O11: the model's rule of an idle step. -/
theorem idleStepKeepsState : Obligations.IdleStepKeepsState := fun _ => step_idle

/-! ## NOP (R171) -/

theorem decode_eq_nop_iff {c : Word} : decode c = .ok .nop ↔ c = 0x01000000#32 := by
  constructor
  · intro h
    obtain ⟨_, henc⟩ := encodeOfDecodeIsWord c .nop h
    exact henc.symm
  · rintro rfl
    rfl

/-- `OP` 0x01 is NOP's alone, so a word with it that decodes is NOP's word. -/
theorem eq_nop_of_decode {c : Word} {i : Instr} (hop : c.extractLsb' 24 8 = 0x01#8) (h : decode c = .ok i) : i = .nop := by
  obtain ⟨hfield, _⟩ := holdsFields_of_decode h
  rw [hop] at hfield
  cases i with
  | nop => rfl
  | _ => simp [Instr.fields] at hfield

/-- Settles O23: NOP is among the commands that are ignored in every state, and its word is the only legal one with its `OP`. -/
theorem nopDoesNothing : Obligations.NopDoesNothing := by
  have hexec : ∀ s : State, exec .nop s = .next s := fun _ => exec_of_ignored (.inr rfl)
  refine ⟨fun s => ⟨hexec s, (execute_ok (decode_eq_nop_iff.mpr rfl) s).trans (hexec s)⟩, rfl, fun _ => decode_eq_nop_iff,
    fun c hop hne => ?_⟩
  cases hdec : decode c with
  | error e => exact ⟨e, rfl⟩
  | ok i =>
    obtain rfl := eq_nop_of_decode hop hdec
    exact absurd (decode_eq_nop_iff.mp hdec) hne

end Sys2Proof.Machine
end

/-! PROOFS of the family 60_exceptions.md: what a faulting command records (R191, R193, R196, R200, R202), and lockout (R203). -/

section

namespace Sys2Proof.Machine

/-! ## Lockout (R203) -/

/-- Under lockout `Execute` ignores every word, decodable or not. -/
theorem execute_locked {s : State} (h : s.fault = true) (c : Word) : execute c s = .next s := by
  cases hd : decode c with
  | ok i => exact (execute_ok hd s).trans (exec_locked h i)
  | error e => exact (execute_error hd s).trans (congrArg Host.Outcome.next (if_pos h))

/-- The only write that ends lockout is `ClearFault` (R207). -/
theorem portWrite_ends_lockout {a : Addr} {w : Word} {s t : State} (h : portWrite a w s = .next t) (hs : s.fault = true)
    (ht : t.fault = false) : a = 0x004#9 ∧ w.getLsbD 0 = true := by
  have hkept : t.fault ≠ s.fault := by simp [hs, ht]
  rcases portWrite_cases a w s with ⟨_, he⟩ | ⟨_, he⟩ | ⟨_, he⟩ | ⟨ha, he⟩ | ⟨k, j, _, he⟩ | ⟨k, i, j, _, he⟩ | ⟨_, he⟩
  · cases he.symm.trans h
    exact absurd rfl hkept
  · cases he.symm.trans h
    exact absurd rfl hkept
  · cases (execute_locked hs w).symm.trans (he.symm.trans h)
    exact absurd rfl hkept
  · refine ⟨ha, ?_⟩
    by_contra hw
    rw [if_neg hw] at he
    cases he.symm.trans h
    exact hkept rfl
  · cases he.symm.trans h
    exact absurd rfl hkept
  · cases he.symm.trans h
    exact absurd rfl hkept
  · cases he.symm.trans h
    exact absurd rfl hkept

/-- Settles O19: by the input that the step takes, of which only a reset and `ClearFault` touch `FAULT` under lockout. -/
theorem lockoutIgnoresCommands : Obligations.LockoutIgnoresCommands := by
  intro s hs
  refine ⟨exec_locked hs, fun c rest hport => ?_, fun t hstep ht => ?_⟩
  · calc step s
        = portWrite 0x003#9 c (s.accept rest) := step_input hport
      _ = execute c (s.accept rest) := portWrite_cmd c _
      _ = .next (s.accept rest) := execute_locked (s := s.accept rest) hs c
  · cases hport : s.port with
    | nil =>
      cases (step_idle hport).symm.trans hstep
      exact Bool.noConfusion (hs.symm.trans ht)
    | cons x rest =>
      rw [step_input hport] at hstep
      cases x with
      | read a =>
        cases hstep
        exact Bool.noConfusion (hs.symm.trans ht)
      | write a w =>
        obtain ⟨rfl, hw⟩ := portWrite_ends_lockout hstep hs ht
        exact ⟨rest, .inr ⟨w, hw, rfl⟩⟩
      | reset => exact ⟨rest, .inl rfl⟩

/-! ## The configuration check (R196) -/

theorem radixLegal_eq_false_iff (s : State) : s.radixLegal = false ↔ s.modulus < 2 ∨ 2 ^ 31 - 1 < s.modulus := by
  rw [← Bool.not_eq_true, radixLegal_iff]
  omega

theorem nLegal_eq_false_iff (s : State) : s.nLegal = false ↔ s.size < 1 ∨ 8 < s.size := by
  rw [← Bool.not_eq_true, nLegal_iff]
  omega

/-- Settles O20: a word that decodes is the word of its command, which meets the check of `RADIX` and then that of `N`. -/
theorem badConfigBeforeEveryCommand : Obligations.BadConfigBeforeEveryCommand := by
  intro c i s hd hi hf
  obtain ⟨_, rfl⟩ := encodeOfDecodeIsWord c i hd
  rw [execute_ok hd, and_self, and_self]
  refine ⟨fun hr => exec_badRadix hf ((radixLegal_eq_false_iff s).mpr hr) hi, fun h1 h2 hn => ?_⟩
  exact exec_badN hf ((radixLegal_iff s).mpr ⟨h1, h2⟩) ((nLegal_eq_false_iff s).mpr hn) hi

/-! ## The gcd that `SINGULAR` records (R193) -/

theorem gcdOf_range {a m : Nat} (hm : 0 < m) (h : gcdOf a m ≠ 1) : 2 ≤ gcdOf a m ∧ gcdOf a m ≤ m := by
  have hpos : 0 < gcdOf a m := Nat.gcd_pos_of_pos_right a hm
  exact ⟨by omega, Nat.gcd_le_right a hm⟩

theorem gcdOf_residue_of_dvd {d : Int} {m : Nat} (h : (m : Int) ∣ d) : gcdOf (residue d m) m = m := by
  rw [residue, Int.emod_eq_zero_of_dvd h, Int.toNat_zero, gcdOf, Nat.gcd_zero_left]

/-- Settles O29: the fault of a ready `MINV`, whose detail is the gcd of the determinant's residue with `RADIX`. -/
theorem minvSingularFaults : Obligations.MinvSingularFaults := by
  rintro md ma s g hs rfl hg
  rw [← detZ_eq_det_of] at hg ⊢
  obtain ⟨hge, hle⟩ := gcdOf_range (by have := hs.modulus_ge; omega) hg
  exact ⟨hge, hle, gcdOf_residue_of_dvd, execMinv_singular hs hg⟩

/-! ## What a fault records (R191, R200, R202) -/

/-- A word that takes a fault is illegal, or its command raises one; the record has the word as written (R37). -/
theorem execute_faults {c : Word} {s t : State} (h : execute c s = .next t) (hs : s.fault = false) (ht : t.fault = true) :
    ((∃ e, decode c = .error e) ∧ t = s.raise .illegalCmd 0 c) ∨
    (∃ i f info, decode c = .ok i ∧ Raises s i f info ∧ t = s.raise f info c) := by
  have hkept : t.fault ≠ s.fault := by simp [hs, ht]
  rcases execute_cases h with ⟨_, rfl⟩ | ⟨_, he, hraised⟩ | ⟨i, hd, hexec⟩
  · exact absurd rfl hkept
  · exact .inl ⟨he, hraised⟩
  · rcases exec_cases hexec with ⟨_, rfl⟩ | ⟨_, f, info, hraise, hraised⟩ | ⟨_, _, rfl⟩
    · exact absurd rfl hkept
    · obtain ⟨_, henc⟩ := encodeOfDecodeIsWord c i hd
      exact .inr ⟨i, f, info, hd, hraise, henc ▸ hraised⟩
    · exact absurd (effect_fault s i) hkept

/-- Settles O21: whichever fault it is, the state after it is a `raise`, of a code of 1 to 6. -/
theorem faultWritesOnlyTheRecord : Obligations.FaultWritesOnlyTheRecord := by
  intro c s t h hs ht
  rcases execute_faults h hs ht with ⟨_, rfl⟩ | ⟨i, f, info, _, _, rfl⟩
  · exact ⟨rfl, FaultCode.code_range _⟩
  · exact ⟨rfl, FaultCode.code_range _⟩

theorem lt_of_decode_encpad {c : Word} {vd vb : VReg} {r : Nat} (h : decode c = .ok (.encpad vd vb r)) : r < 256 :=
  (wellFormed_iff_imm_lt _).mp (encodeOfDecodeIsWord c _ h).1

/-- Settles O22: the cause by cause list of what a command raises, with the range of each detail that the record holds. -/
theorem faultCausesAndDetails : Obligations.FaultCausesAndDetails := by
  intro c s t h hs ht
  rcases execute_faults h hs ht with ⟨he, rfl⟩ | ⟨i, f, info, hd, hraise, rfl⟩
  · exact .inl ⟨rfl, he, rfl⟩
  · cases hraise with
    | badRadix hi hr => exact .inr (.inl ⟨rfl, ⟨i, hd, hi⟩, .inl ⟨hr, rfl⟩⟩)
    | badN hi hr hn => exact .inr (.inl ⟨rfl, ⟨i, hd, hi⟩, .inr ⟨hr, hn, rfl⟩⟩)
    | @badOperand vd vb _ hready hr =>
      have hlt := lt_of_decode_encpad hd
      have hpos := hready.size_pos
      exact .inr (.inr (.inl ⟨rfl, vd, vb, info, hd, hr, uint_word (by omega), by omega, by omega⟩))
    | @decNotValid vd vb hready hv => exact .inr (.inr (.inr (.inl ⟨rfl, ⟨vd, vb, .inl hd⟩, hv, rfl⟩)))
    | @decpadNotValid vd vb hready hv => exact .inr (.inr (.inr (.inl ⟨rfl, ⟨vd, vb, .inr hd⟩, hv, rfl⟩)))
    | @singular md ma hready hu =>
      have hm := hready.modulus_le
      obtain ⟨hge, hle⟩ := gcdOf_range (by have := hready.modulus_ge; omega) hu
      have hword := uint_word (hle.trans_lt (show s.modulus < 2 ^ 32 by omega))
      exact .inr (.inr (.inr (.inr (.inl ⟨rfl, md, ma, hd, hu, hword, hge.trans_eq hword.symm, hword.trans_le hle⟩))))
    | @corrupt vd vb hready hv hp =>
      have hm := hready.modulus_le
      have hlt : s.padCount vb < s.modulus := matvec_lt _ _ _ (by have := hready.modulus_ge; omega) _
      have hword : uint (Sys2Proof.word (s.padCount vb)) = s.padCount vb := uint_word (by omega)
      refine .inr (.inr (.inr (.inr (.inr ⟨rfl, vd, vb, hd, hword, ?_⟩))))
      rw [State.raise_errinfo, hword]
      omega

end Sys2Proof.Machine
end

/-! PROOFS of the family 70_reset_and_hazards.md: the reset input (R230 to R232), and the defined result of a command with written
sources (R242). -/

section

namespace Sys2Proof.Machine

/-! ## The reset input (R230 to R232) -/

/-- Settles O17: the step performs the reset at the accepted input, which keeps the record of the port and nothing else. -/
theorem resetInputGivesResetState : Obligations.ResetInputGivesResetState := by
  intro s rest hport
  calc step s
      = perform .reset (s.accept rest) := step_input hport
    _ = .next (s.accept rest).afterReset := rfl

/-! ## Written sources (R242)

The transaction count enters a command only through the free value of an unwritten element, so a command that reads written
elements alone does not depend on it. -/

/-- `s` with the transaction count `x`, at which the free values are drawn. -/
def State.atTxn (s : State) (x : Nat) : State := { s with txn := x }

/-! What a command writes when its results agree on the active region -/

theorem writeActM_congr (s : State) (k : MReg) {n : Nat} {C C' : Nat → Nat → Nat}
    (h : ∀ i j, i < n → j < n → C' i j = C i j) : s.writeActM k n C' = s.writeActM k n C := by
  have helem : ∀ i j : Fin 8, (if i.val < n ∧ j.val < n then Elem.holds (C' i j) else s.elemM k i j) =
      if i.val < n ∧ j.val < n then Elem.holds (C i j) else s.elemM k i j := fun i j =>
    ite_congr rfl (fun hij => congrArg Elem.holds (h i j hij.1 hij.2)) fun _ => rfl
  simp only [State.writeActM, helem]

theorem writeActV_congr (s : State) (k : VReg) {n : Nat} {y y' : Nat → Nat} (h : ∀ j, j < n → y' j = y j) :
    s.writeActV k n y' = s.writeActV k n y := by
  have helem : ∀ j : Fin 8, (if j.val < n then Elem.holds (y' j) else s.elemV k j) =
      if j.val < n then Elem.holds (y j) else s.elemV k j := fun j =>
    ite_congr rfl (fun hj => congrArg Elem.holds (h j hj)) fun _ => rfl
  simp only [State.writeActV, helem]

theorem writeActM_atTxn (s : State) (x : Nat) (k : MReg) {n : Nat} {C C' : Nat → Nat → Nat}
    (h : ∀ i j, i < n → j < n → C' i j = C i j) : (s.atTxn x).writeActM k n C' = (s.writeActM k n C).atTxn x :=
  congrArg (·.atTxn x) (writeActM_congr s k h)

theorem transform_atTxn (s : State) (x : Nat) (vd : VReg) {m n : Nat} {A A' : IMat} {v v' : IVec}
    (hA : ∀ i j, i < n → j < n → A' i j = A i j) (hv : ∀ j, j < n → v' j = v j) :
    (s.atTxn x).transform vd m n A' v' = (s.transform vd m n A v).atTxn x :=
  congrArg (·.atTxn x) (writeActV_congr s vd fun _ hi => matvec_congr (fun _ hj => hA _ _ hi hj) hv)

/-! What a command reads of written sources -/

section

variable {s : State} (hs : s.ready) (x : Nat)
include hs

theorem actM_atTxn (pos : Nat) {k : MReg} (h : s.writtenM k s.size) (i j : Nat) (hi : i < s.size) (hj : j < s.size) :
    (s.atTxn x).actM pos k i j = s.actM pos k i j :=
  actM_eq_of_elem (t := s.atTxn x) h hs.size_le (fun _ _ => rfl) pos pos hi hj

theorem actV_atTxn (pos : Nat) {k : VReg} {n : Nat} (hn : n ≤ s.size) (h : s.writtenV k n) (j : Nat) (hj : j < n) :
    (s.atTxn x).actV pos k j = s.actV pos k j :=
  actV_eq_of_elem (t := s.atTxn x) h (hn.trans hs.size_le) (fun _ => rfl) pos pos hj

theorem detZ_atTxn {k : MReg} (h : s.writtenM k s.size) :
    detZ s.size ((s.atTxn x).actM 0 k) = detZ s.size (s.actM 0 k) :=
  detZ_congr (actM_atTxn hs x 0 h)

theorem padCount_atTxn {vb : VReg} (hM : s.writtenM .m1 s.size) (hV : s.writtenV vb s.size) :
    (s.atTxn x).padCount vb = s.padCount vb :=
  matvec_congr (fun j hj => actM_atTxn hs x 0 hM (s.size - 1) j (Nat.sub_lt hs.size_pos one_pos) hj)
    (actV_atTxn hs x 1 le_rfl hV)

theorem unimodular_atTxn {k : MReg} (h : s.writtenM k s.size) :
    Unimodular s.size ((s.atTxn x).actM 0 k) s.modulus ↔ Unimodular s.size (s.actM 0 k) s.modulus := by
  rw [Unimodular, detZ_atTxn hs x h]

/-! A command with written sources, at two transaction counts -/

theorem completes_atTxn {i : Instr} (hw : s.sourcesWritten i) (hc : s.completes i) : (s.atTxn x).completes i := by
  cases i with
  | minv md ma => exact (unimodular_atTxn hs x hw).mpr hc
  | decpad vd vb =>
    obtain ⟨hM, hV⟩ := hw
    rw [State.completes, padCount_atTxn hs x hM hV]
    exact hc
  | _ => exact hc

/-- Every result is computed from the operands, which are written, so the effect is the same at every transaction count. -/
theorem effect_atTxn {i : Instr} (hw : s.sourcesWritten i) : (s.atTxn x).effect i = (s.effect i).atTxn x := by
  cases i with
  | nop => rfl
  | mmul md ma mb =>
    obtain ⟨hA, hB⟩ := hw
    exact congrArg (fun u : State => { u with invValid := invValidAfterMmul md s.invValid })
      (writeActM_atTxn s x md fun i j hi hj =>
        matmul_congr (fun k hk => actM_atTxn hs x 0 hA i k hi hk) fun k hk => actM_atTxn hs x 1 hB k j hk hj)
  | mvmul vd ma vb => exact transform_atTxn s x vd (actM_atTxn hs x 0 hw.1) (actV_atTxn hs x 1 le_rfl hw.2)
  | mdet ma =>
    exact congrArg (fun d => { s.atTxn x with det := Sys2Proof.word (residue d s.modulus) }) (detZ_atTxn hs x hw)
  | invchk ma =>
    exact congrArg (fun d => { s.atTxn x with
      det := Sys2Proof.word (residue d s.modulus)
      gcd := Sys2Proof.word (gcdOf (residue d s.modulus) s.modulus)
      invertible := decide (gcdOf (residue d s.modulus) s.modulus = 1) }) (detZ_atTxn hs x hw)
  | minv md ma =>
    exact congrArg (fun u : State => { u with invValid := invValidAfterMinv md ma s.invValid })
      (writeActM_atTxn s x md fun i j _ _ => invMat_congr (fun r c hr hc => actM_atTxn hs x 0 hw r c hr hc) _ i j)
  | enc vd vb => exact transform_atTxn s x vd (actM_atTxn hs x 0 hw.1) (actV_atTxn hs x 1 le_rfl hw.2)
  | dec vd vb => exact transform_atTxn s x vd (actM_atTxn hs x 0 hw.1) (actV_atTxn hs x 1 le_rfl hw.2)
  | encpad vd vb r =>
    have hslots : ∀ j, j + 1 < s.size → (s.atTxn x).actV 1 vb j = s.actV 1 vb j := fun j hj =>
      actV_atTxn hs x 1 (Nat.sub_le _ _) hw.2 j (Nat.lt_sub_of_add_lt hj)
    exact transform_atTxn s x vd (actM_atTxn hs x 0 hw.1) fun j hj => padBlock_congr hslots r hj
  | decpad vd vb =>
    obtain ⟨hM, hV⟩ := hw
    rw [State.effect, padCount_atTxn hs x hM hV]
    exact congrArg (fun u : State => { u with pad := Sys2Proof.word (s.padCount vb) })
      (transform_atTxn s x vd (actM_atTxn hs x 0 hM) (actV_atTxn hs x 1 le_rfl hV))

end

/-- The same fault with the same detail: its cause depends on the configuration and on written operands. -/
theorem raises_atTxn {s : State} {i : Instr} {f : FaultCode} {info : Nat} (hw : s.sourcesWritten i) (h : Raises s i f info)
    (x : Nat) : Raises (s.atTxn x) i f info := by
  cases h with
  | badRadix hi hr => exact .badRadix hi hr
  | badN hi hr hn => exact .badN hi hr hn
  | badOperand hs hr => exact .badOperand hs hr
  | decNotValid hs hv => exact .decNotValid hs hv
  | decpadNotValid hs hv => exact .decpadNotValid hs hv
  | @singular md ma hs hu =>
    have hsing := Raises.singular (s := s.atTxn x) (md := md) hs (mt (unimodular_atTxn hs x hw).mp hu)
    rwa [show (s.atTxn x).size = s.size from rfl, detZ_atTxn hs x hw] at hsing
  | @corrupt vd vb hs hv hp =>
    obtain ⟨hM, hV⟩ := hw
    have hcor := Raises.corrupt (s := s.atTxn x) (vd := vd) (vb := vb) hs hv
    rw [padCount_atTxn hs x hM hV] at hcor
    exact hcor hp

/-- Settles O42: a command with written sources is ignored, faults or has its effect alike at every transaction count. -/
theorem writtenSourcesGiveDefinedResults : Obligations.WrittenSourcesGiveDefinedResults := by
  intro i s t x hw he
  change exec i (s.atTxn x) = .next (t.atTxn x)
  rcases exec_cases he with ⟨hi, rfl⟩ | ⟨hf, f, info, hr, rfl⟩ | ⟨hs, hc, rfl⟩
  · exact exec_of_ignored hi
  · exact exec_of_raises hf (raises_atTxn hw hr x)
  · rw [← effect_atTxn hs x hw]
    exact exec_of_completes hs (completes_atTxn hs x hw hc)

end Sys2Proof.Machine
end
